-- ==== Sys2Proof/Word.lean ====
section
/-! DEFINITION. The word and byte types, the two output channels and pairs indexed by a channel. -/

namespace Sys2Proof

/-- A command or response word, and a `u32` register (rules R8, R101). -/
abbrev Word := BitVec 32

/-- A sample, a GPIO number, an operation number: a `u8` (rule R8). -/
abbrev Byte := BitVec 8

/-- An output channel `c` in {0 (left), 1 (right)} (rule R37). -/
inductive Channel where
  | left
  | right
deriving DecidableEq, Repr, Inhabited

/-- A register that exists once per channel (`x[0]`, `x[1]` in the spec). -/
structure PerChannel (α : Type) where
  left : α
  right : α
deriving DecidableEq, Repr

/-- The 32-bit word of a natural number below `2^32`. -/
abbrev toWord (n : Nat) : Word := BitVec.ofNat 32 n

/-- A flag as a result word: bit 0 (rule R103, `R1[0]`, `R2[0]`). -/
def boolWord (b : Bool) : Word := if b then 1 else 0

end Sys2Proof
end

