-- ==== Sys2Proof/Config.lean ====
section
/-! DEFINITION. What is fixed for one machine: the parameters of rules R5 to R7, their constraints, and the free values. -/

namespace Sys2Proof

/-- The five agents of rule R10, less `CTRL`, whose every step is a command that arrives on a port. -/
inductive Agent where
  /-- `PROD`: the next step of the operation it has in flight (rules R138, R217). -/
  | prod
  /-- `TIMER`: one count of the sample timer (rule R162). -/
  | timer
  /-- `PWM[c]`: one carrier cycle boundary of channel `c` (rule R193). -/
  | pwm (c : Channel)
  /-- `TICK`: one tick of the tick clock (rule R10). -/
  | tick
deriving DecidableEq, Repr, Inhabited

/-- The parameters of rules R6 and R7, all of them left open by decision D2. The record is carried in `State.cfg` and no step writes it (log 1). -/
structure Config where
  /-- `WATERMARK`, the document's `BUFFER_MIN_SIZE`. -/
  watermark : Nat
  /-- `FSV`, the document's `FULL_SCALE_VOLUME` and `FULL_SCALE`. -/
  fsv : Nat
  /-- `TIMER_BASE_CLOCK` in Hz. -/
  timerBaseClock : Nat
  /-- `TIMER_DIVIDER`. -/
  timerDivider : Nat
  /-- `PWM_BASE_CLOCK` in Hz. -/
  pwmBaseClock : Nat
  /-- `DUTY_FRAC_BITS`. -/
  dutyFracBits : Nat
  /-- `PRIMARY_CH`, the channel the alarm handler drives. -/
  primaryCh : Channel
  /-- `GPIO_NONE`, the GPIO number that means "not assigned". -/
  gpioNone : Byte
  /-- `CAP_MAX`, the largest capacity `create` can represent. -/
  capMax : Nat
  /-- `TCNT_W`, the width of the sample timer's registers. -/
  tcntW : Nat
  /-- `TICK_W`, the width of the tick counter and of timeouts. -/
  tickW : Nat
  /-- `ADDR_W`, the width of a source-buffer address. -/
  addrW : Nat
deriving DecidableEq, Repr

namespace Config

/-- The defaults of rules R6 and R7. -/
def defaults : Config where
  watermark := 256
  fsv := 16
  timerBaseClock := 80000000
  timerDivider := 16
  pwmBaseClock := 80000000
  dutyFracBits := 4
  primaryCh := .left
  gpioNone := 0xFF
  capMax := 2 ^ 32 - 1
  tcntW := 64
  tickW := 32
  addrW := 32

/-- `MIN_CAPACITY` (rule R5). -/
def minCapacity : Nat := 1024
/-- `RATE_MIN` (rule R5). -/
def rateMin : Nat := 8000
/-- `RATE_MAX` (rule R5). -/
def rateMax : Nat := 48000
/-- `RES_MIN` (rule R5). -/
def resMin : Nat := 8
/-- `RES_MAX` (rule R5). -/
def resMax : Nat := 10
/-- `DEFAULT_RATE` (rule R5). -/
def defaultRate : Word := 16000
/-- `DEFAULT_BITS` (rule R5). -/
def defaultBits : Word := 8
/-- `DEFAULT_CH` (rule R5). -/
def defaultCh : Word := 2

/-- The constraints of rule R6 and of U7; rule R7 states none. -/
def legal (k : Config) : Bool :=
  decide (k.watermark ≤ minCapacity - 2 ∧
    1 ≤ k.fsv ∧ k.fsv ≤ 2 ^ 31 - 1 ∧
    0 < k.timerBaseClock ∧ 0 < k.timerDivider ∧
    1 ≤ k.timerBaseClock / k.timerDivider / rateMax ∧
    0 < k.pwmBaseClock ∧
    k.dutyFracBits ≤ 24)

/-- A configuration that meets its constraints; a machine outside them is refused (log 27). -/
abbrev Legal (k : Config) : Prop := k.legal = true

/-- FREE VALUE: which agent the scheduler lets step when no input waits (rule R10: "Any enabled agent may be scheduled
at any step"). Safe: every schedule is allowed (log 5). -/
opaque freeAgent : Nat → Agent

/-- FREE VALUE: the unspecified contents of a new ring (rule R23, U10): cell `i` of the ring filled by draw `k`.
Safe (log 10). -/
opaque freeRingByte : Nat → Nat → Byte

/-- FREE VALUE: the byte at an address that the source buffer `n` does not list (rule R72). Safe (log 11). -/
opaque freeSourceByte : Nat → Nat → Byte

/-- FREE VALUE: taken modulo `2^TCNT_W`, one less than the number of counts to the next alarm when the alarm value is
not above the count (rule R166, U8: a draw in `1 .. 2^TCNT_W`). Safe (log 12). -/
opaque freeAlarmCount : Nat → Nat

/-- FREE VALUE: what a register of `w` bits holds after a value that does not fit it, a number the spec states no result
for. Safe (log 3). -/
opaque freeNarrowing : Nat → Nat → Nat

end Config

end Sys2Proof
end

