-- ==== Sys2Proof/Syntax.lean ====
section
/-! DEFINITION. The operations of the block, one constructor per row of spec/opcode_table.json, and the four words of a command. -/

namespace Sys2Proof

/-- A command as it arrives: the four 32-bit words `W0, A, B, C` (rule R101). -/
structure Cmd where
  w0 : Word
  a : Word
  b : Word
  c : Word
deriving DecidableEq, Repr

/-- The operations of rule R103, with the operands that table names. -/
inductive Instr where
  /-- `INIT` (R240): `A` = ringbuf_len, `B` = timer_sel ++ resolution, `C` = gpio_right ++ gpio_left. -/
  | init (ringbufLen : Word) (resolution timerSel gpioLeft gpioRight : Byte)
  /-- `DEINIT` (R242). -/
  | deinit
  /-- `SET_PARAM` (R243). -/
  | setParam (rate bits channels : Word)
  /-- `SET_RATE` (R244). -/
  | setRate (rate : Word)
  /-- `SET_VOL` (R245): `v` is the two's complement word of rule R105. -/
  | setVol (v : Word)
  /-- `GET_VOL` (R246). -/
  | getVol
  /-- `START` (R247). -/
  | start
  /-- `STOP` (R248). -/
  | stop
  /-- `GET_STATUS` (R249). -/
  | getStatus
  /-- `GET_PARAM` (R250). -/
  | getParam
  /-- `WRITE` (R210): address, length in bytes, timeout in ticks. -/
  | write (buf length timeout : Word)
  /-- `WRITE_NB` (R218). -/
  | writeNb (buf length : Word)
  /-- `RB_CREATE` (R130). -/
  | rbCreate (capacity : Word)
  /-- `RB_DESTROY` (R131). -/
  | rbDestroy
  /-- `RB_OCCUPIED` (R132). -/
  | rbOccupied
  /-- `RB_FREE` (R133). -/
  | rbFree
  /-- `RB_READ` (R134). -/
  | rbRead
  /-- `RB_WRITE` (R135). -/
  | rbWrite (b : Byte)
  /-- `RB_FLUSH` (R136). -/
  | rbFlush
  /-- `RB_SIGNAL` (R137). -/
  | rbSignal
  /-- `RB_WAIT` (R138). -/
  | rbWait (timeout : Word)
  /-- `SET_DUTY` (R190). -/
  | setDuty (channel : Channel) (value : Byte)
  /-- event code `ALARM` (R163). -/
  | alarm
  /-- event code `LATCH` (R193). -/
  | latch (channel : Channel)
deriving DecidableEq, Repr

end Sys2Proof
end

