-- ==== Sys2Proof/WellFormed.lean ====
section
/-! DEFINITION. The one check on an operation that its operand types do not already make: the source range of rule R79. -/

namespace Sys2Proof

/-- The source range `buf .. buf + length - 1` stays at or below `2^ADDR_W - 1` (rule R79). -/
def sourceRangeFits (k : Config) (buf length : Word) : Bool := decide (buf.toNat + length.toNat ≤ 2 ^ k.addrW)

/-- An operation the spec gives a meaning: every one, but a `WRITE` or `WRITE_NB` whose range passes the top of the
source space ("outside this spec", rule R79, U6). Operand widths and must-be-zero bits are kept by the operand types. -/
def Instr.wf (k : Config) : Instr → Bool
  | .init _ _ _ _ _ => true
  | .deinit => true
  | .setParam _ _ _ => true
  | .setRate _ => true
  | .setVol _ => true
  | .getVol => true
  | .start => true
  | .stop => true
  | .getStatus => true
  | .getParam => true
  | .write buf length _ => sourceRangeFits k buf length
  | .writeNb buf length => sourceRangeFits k buf length
  | .rbCreate _ => true
  | .rbDestroy => true
  | .rbOccupied => true
  | .rbFree => true
  | .rbRead => true
  | .rbWrite _ => true
  | .rbFlush => true
  | .rbSignal => true
  | .rbWait _ => true
  | .setDuty _ _ => true
  | .alarm => true
  | .latch _ => true

end Sys2Proof
end

