-- ==== Sys2Proof/Decode.lean ====
section
/-! DEFINITION. The decoder of rules R101 to R110, total on every four words, the encoder beside it, and the table word. -/

namespace Sys2Proof

/-- Why the decoder gives no operation (rule R109). -/
inductive DecodeError where
  /-- `op` is not in the table of rule R103. -/
  | reservedOp
  /-- `W0[31:8] != 0`. -/
  | zeroField
  /-- a must-be-zero operand bit of rule R104 is 1. -/
  | operandBits
deriving DecidableEq, Repr

/-- The operation number of an operation (rule R103). -/
def Instr.op : Instr → Byte
  | .init _ _ _ _ _ => 0x01
  | .deinit => 0x02
  | .setParam _ _ _ => 0x03
  | .setRate _ => 0x04
  | .setVol _ => 0x05
  | .getVol => 0x06
  | .start => 0x07
  | .stop => 0x08
  | .getStatus => 0x09
  | .getParam => 0x0A
  | .write _ _ _ => 0x10
  | .writeNb _ _ => 0x11
  | .rbCreate _ => 0x20
  | .rbDestroy => 0x21
  | .rbOccupied => 0x22
  | .rbFree => 0x23
  | .rbRead => 0x24
  | .rbWrite _ => 0x25
  | .rbFlush => 0x26
  | .rbSignal => 0x27
  | .rbWait _ => 0x28
  | .setDuty _ _ => 0x30
  | .alarm => 0x40
  | .latch _ => 0x41

/-- Field `op` of a command, `W0[7:0]` (rule R101). -/
def Cmd.op (k : Cmd) : Byte := k.w0.extractLsb' 0 8

/-- `w[7:0]` as a byte operand. -/
def lowByte (w : Word) : Byte := w.extractLsb' 0 8

/-- `w[15:8]` as a byte operand. -/
def secondByte (w : Word) : Byte := w.extractLsb' 8 8

/-- The channel number in bit 0 of an operand: 0 left, 1 right (rule R103). -/
def channelOf (w : Word) : Channel := if w.getLsbD 0 then .right else .left

/-- The operand word of a channel. -/
def channelWord : Channel → Word
  | .left => 0
  | .right => 1

/-- The must-be-zero bits from bit `n` of an operand word are 0 (rule R104). -/
def zeroFrom (n : Nat) (w : Word) : Bool := (w >>> n) == 0

/-- An operation whose must-be-zero bits are checked by `zero` (rules R104, R109). -/
def checked (zero : Bool) (i : Instr) : Except DecodeError Instr :=
  if zero then .ok i else .error .operandBits

/-- The operation with number `op` and operand words of `k` (rules R103, R104). Unused words are ignored (rule R101). -/
def decodeOp (op : Byte) (k : Cmd) : Except DecodeError Instr :=
  match op.toNat with
  | 0x01 => checked (zeroFrom 16 k.b && zeroFrom 16 k.c)
      (.init k.a (lowByte k.b) (secondByte k.b) (lowByte k.c) (secondByte k.c))
  | 0x02 => .ok .deinit
  | 0x03 => .ok (.setParam k.a k.b k.c)
  | 0x04 => .ok (.setRate k.a)
  | 0x05 => .ok (.setVol k.a)
  | 0x06 => .ok .getVol
  | 0x07 => .ok .start
  | 0x08 => .ok .stop
  | 0x09 => .ok .getStatus
  | 0x0A => .ok .getParam
  | 0x10 => .ok (.write k.a k.b k.c)
  | 0x11 => .ok (.writeNb k.a k.b)
  | 0x20 => .ok (.rbCreate k.a)
  | 0x21 => .ok .rbDestroy
  | 0x22 => .ok .rbOccupied
  | 0x23 => .ok .rbFree
  | 0x24 => .ok .rbRead
  | 0x25 => checked (zeroFrom 8 k.a) (.rbWrite (lowByte k.a))
  | 0x26 => .ok .rbFlush
  | 0x27 => .ok .rbSignal
  | 0x28 => .ok (.rbWait k.a)
  | 0x30 => checked (zeroFrom 1 k.a && zeroFrom 8 k.b) (.setDuty (channelOf k.a) (lowByte k.b))
  | 0x40 => .ok .alarm
  | 0x41 => checked (zeroFrom 1 k.a) (.latch (channelOf k.a))
  | _ => .error .reservedOp

/-- The decoder (rules R101, R109, R110): `W0[7:0]` alone finds the operation. Event codes decode too; which input may
carry what is rule R114's matter (`portAllows`). -/
def decode (k : Cmd) : Except DecodeError Instr :=
  if zeroFrom 8 k.w0 then decodeOp k.op k else .error .zeroField

/-- Two bytes in one operand word, `high` in bits 15:8 (rule R106). -/
def packBytes (high low : Byte) : Word := (high ++ low).setWidth 32

/-- The operand words `A, B, C` of an operation (rules R103 to R106); unused words are 0 (the convention of
95_test_vectors.md). -/
def Instr.operands : Instr → Word × Word × Word
  | .init ringbufLen resolution timerSel gpioLeft gpioRight =>
      (ringbufLen, packBytes timerSel resolution, packBytes gpioRight gpioLeft)
  | .deinit => (0, 0, 0)
  | .setParam rate bits channels => (rate, bits, channels)
  | .setRate rate => (rate, 0, 0)
  | .setVol v => (v, 0, 0)
  | .getVol => (0, 0, 0)
  | .start => (0, 0, 0)
  | .stop => (0, 0, 0)
  | .getStatus => (0, 0, 0)
  | .getParam => (0, 0, 0)
  | .write buf length timeout => (buf, length, timeout)
  | .writeNb buf length => (buf, length, 0)
  | .rbCreate capacity => (capacity, 0, 0)
  | .rbDestroy => (0, 0, 0)
  | .rbOccupied => (0, 0, 0)
  | .rbFree => (0, 0, 0)
  | .rbRead => (0, 0, 0)
  | .rbWrite b => (b.setWidth 32, 0, 0)
  | .rbFlush => (0, 0, 0)
  | .rbSignal => (0, 0, 0)
  | .rbWait timeout => (timeout, 0, 0)
  | .setDuty channel value => (channelWord channel, value.setWidth 32, 0)
  | .alarm => (0, 0, 0)
  | .latch channel => (channelWord channel, 0, 0)

/-- The encoder: the four words of an operation (rule R101). -/
def encode (i : Instr) : Cmd :=
  { w0 := i.op.setWidth 32, a := i.operands.1, b := i.operands.2.1, c := i.operands.2.2 }

/-- The four words whose bits are numbered as spec/opcode_table.json numbers them: `W0` is bits 31:0 of `w`, `A` bits
63:32, `B` bits 95:64, `C` bits 127:96; bits at and above `nbits` are 0. The words are abstract numbers, not memory
images (rule R74), so no byte order enters. -/
def tableCmd (nbits w : Nat) : Cmd :=
  let v := w % 2 ^ nbits
  { w0 := toWord v, a := toWord (v / 2 ^ 32), b := toWord (v / 2 ^ 64), c := toWord (v / 2 ^ 96) }

/-- What the decoder reads from an instruction given as a table word. -/
def decodeTableWord (nbits w : Nat) : Option Instr := (decode (tableCmd nbits w)).toOption

end Sys2Proof
end

