-- ==== Sys2Proof/Machine/State.lean ====
section
/-! DEFINITION. The state of the block (rules R20 to R58) as plain data, the reasons a step stops, and the state after reset. -/

namespace Sys2Proof.Machine

/-- Bytes by address: addresses strictly rising; an address not listed has no listed value (logs 10, 11). -/
abbrev Memory := List Host.Cell

/-- The canonical form of a memory: addresses strictly rising, so none is listed twice. -/
abbrev Memory.wf (m : Memory) : Prop := List.Pairwise (fun p q => p.1 < q.1) m

/-- The ring buffer, while one exists (rules R21 to R27). -/
structure RingBuffer where
  /-- `rb.size` (R22). -/
  size : Word
  /-- `rb.head`, the next write position (R24). -/
  head : Word
  /-- `rb.tail`, the next read position (R25). -/
  tail : Word
  /-- `rb.pending` (R26). -/
  pending : Bool
  /-- `rb.sem` (R27). -/
  sem : Bool
  /-- `rb.mem` (R23): the cells written since creation. -/
  mem : Memory
  /-- the model's own: which draw fills the unwritten cells (log 10). -/
  fill : Nat
deriving DecidableEq, Repr

/-- `status` (R30). -/
inductive Status where
  | uninitialized
  | idle
  | busy
deriving DecidableEq, Repr

/-- The parameter registers of AudioDeviceState, while the singleton exists (rules R32 to R38). -/
structure Params where
  /-- `rate` in Hz (R32). -/
  rate : Word
  /-- `bits` (R33). -/
  bits : Word
  /-- `channels` (R34). -/
  channels : Word
  /-- `volume`, the stored volume (R35). -/
  volume : Word
  /-- `resolution` (R36). -/
  resolution : Word
  /-- `gpio[c]` (R37). -/
  gpio : PerChannel Byte
  /-- `timer_sel` (R37). -/
  timerSel : Byte
  /-- `carrier_hz` (R38). -/
  carrierHz : Word
deriving DecidableEq, Repr

/-- The sample timer (R39). -/
structure Timer where
  /-- `t.claimed`. -/
  claimed : Bool
  /-- `t.alarm`, of `TCNT_W` bits (log 2). -/
  alarm : Nat
  /-- `t.cnt`, of `TCNT_W` bits. -/
  cnt : Nat
  /-- `t.run`. -/
  run : Bool
  /-- `t.inten`. -/
  inten : Bool
  /-- the model's own: the drawn number of counts to the next alarm in case U8 (log 12). -/
  countdown : Option Nat
deriving DecidableEq, Repr

/-- `pin_mode[c]` (R44). -/
inductive PinMode where
  | input
  | output
deriving DecidableEq, Repr

/-- The registers of one output channel (rules R37, R41 to R44). -/
structure ChannelRegs where
  /-- `ch_mask[c]` (R37). -/
  mask : Bool
  /-- `duty_reg[c]` (R41). -/
  dutyReg : Word
  /-- `upd[c]` (R42). -/
  upd : Bool
  /-- `out_en[c]` (R42). -/
  outEn : Bool
  /-- `duty_act[c]` (R43). -/
  dutyAct : Word
  /-- `pin_mode[c]` (R44). -/
  pin : PinMode
deriving DecidableEq, Repr

/-- `wr.phase` (R45). -/
inductive Phase where
  | none
  | waitClear
  | waitTake
  | chunk
  | check
deriving DecidableEq, Repr

/-- The write sequencer (R45). -/
structure WriteSeq where
  /-- `wr.phase`. -/
  phase : Phase
  /-- `wr.buf`, the address of the next input byte, of `ADDR_W` bits (log 2). -/
  buf : Nat
  /-- `wr.remaining`. -/
  remaining : Word
  /-- `wr.written`. -/
  written : Word
  /-- `wr.timeout`, of `TICK_W` bits. -/
  timeout : Nat
  /-- `wr.start`, of `TICK_W` bits. -/
  start : Nat
  /-- `wr.wait_start`, of `TICK_W` bits. -/
  waitStart : Nat
  /-- `wr.chunk`. -/
  chunk : Word
deriving DecidableEq, Repr

/-- A directly driven `RB_WAIT` after its first step (R138): the model's own, log 13. -/
structure DirectWait where
  /-- the operand `A`, a timeout of full 32 bits (R104). -/
  timeout : Word
  /-- `w`, the tick at which step 1 ran. -/
  start : Nat
  /-- `PROD` has reached the take and found itself blocked. -/
  atTake : Bool
deriving DecidableEq, Repr

/-- What an alarm did (R58). -/
inductive AlarmResult where
  | noHandle
  | byte (b : Byte)
  | underrun
deriving DecidableEq, Repr

/-- An observable event (R58). -/
inductive Event where
  /-- `Duty(c, v)`. -/
  | duty (c : Channel) (v : Word)
  /-- `Latch(c, v)`. -/
  | latch (c : Channel) (v : Word)
  /-- `Alarm(result)`. -/
  | alarm (result : AlarmResult)
  /-- `Post(yield)`. -/
  | post (yield : Bool)
  /-- `Resp(op, R0, R1, R2, R3)`; `op` is `W0[7:0]`. -/
  | resp (op : Byte) (r0 r1 r2 r3 : Word)
deriving DecidableEq, Repr

/-- The environment's draws for one command (rules R130, R240, U9). -/
structure Draws where
  /-- `alloc_ok`. -/
  allocOk : Bool
  /-- `hw_ok`. -/
  hwOk : Bool
deriving DecidableEq, Repr

/-- A source buffer: the producer's byte-addressed space as it stands while a command is in flight (rules R70, R72;
D16: an argument of the command; log 11). -/
structure SourceBuffer where
  /-- the listed bytes. -/
  bytes : Memory
  /-- which free bytes stand at the other addresses. -/
  fill : Nat
deriving DecidableEq, Repr

/-- Where a command or an event code arrives (rules R100, R114). -/
inductive Port where
  /-- the control port (`CTRL`). -/
  | control
  /-- the data port (`PROD`). -/
  | data
  /-- an operation driven directly in interrupt context. -/
  | interrupt
  /-- the alarm input and the carrier boundaries: event codes. -/
  | event
deriving DecidableEq, Repr

/-- One entry of the agenda (log 4). -/
inductive Input where
  /-- a command arrives on a port, with the environment's draws for it and the source buffer it may read. -/
  | command (port : Port) (cmd : Cmd) (draws : Draws) (source : SourceBuffer)
  /-- an agent is given its step. -/
  | turn (agent : Agent)
deriving DecidableEq, Repr

/-- The state of the machine: the registers of rule R50, the event history, the configuration, the environment's data
and the model's own fields. -/
structure State where
  /-- the parameters of rules R6 and R7; no step writes them (log 1). -/
  cfg : Config
  /-- `status` (S0). -/
  status : Status
  /-- `handle` (S1). -/
  handle : Bool
  /-- S2 to S6 and S8 to S11; absent until `INIT` (R50, U1, log 9). -/
  params : Option Params
  /-- S13 to S18; present exactly when `rb.valid = 1` (S12, R21, R50, log 9). -/
  rb : Option RingBuffer
  /-- S19 to S23. -/
  timer : Timer
  /-- `now` (S24), of `TICK_W` bits (log 2). -/
  now : Nat
  /-- S7 and S25 to S34. -/
  chan : PerChannel ChannelRegs
  /-- `wr.*` (S35). -/
  wr : WriteSeq
  /-- the event history, oldest first (R58). -/
  events : List Event
  /-- the model's own: a directly driven `RB_WAIT` in flight (log 13). -/
  wait : Option DirectWait
  /-- the source buffer of the last `WRITE` or `WRITE_NB` to arrive (R72, log 11). -/
  source : SourceBuffer
  /-- the draws of the current command (U9, log 6). -/
  env : Draws
  /-- the model's own: counter from which free values are drawn. -/
  draws : Nat
  /-- the model's own: the inputs and turns still to come, next one first (log 4). -/
  agenda : List Input
deriving DecidableEq, Repr

/-- Why the machine stops. Every one is named by 93_implementation_defined.md or by rule R100, and every one is safe:
where the spec gives an outcome the machine goes on. -/
inductive Fault where
  /-- U1: an operation needs a ring register while `rb.valid = 0`; raised by the ring primitives. Safe. -/
  | absentRing
  /-- U1: an operation reads a parameter register that holds no value; raised by the lifecycle and write meanings. Safe. -/
  | absentParams
  /-- U2: `RB_CREATE`, direct or inside `INIT`, while a ring exists. Safe. -/
  | ringExists
  /-- U3: cursors reset or released under an active other side; raised by `RB_FLUSH`, `RB_CREATE`, `RB_DESTROY`, `STOP`,
  `DEINIT`. Safe. -/
  | cursorRace
  /-- U4: `Full` inside a chunk of `WRITE`; raised by `PROD` in phase `CHUNK`. Safe. -/
  | fullInChunk
  /-- U5: `WRITE`, `WRITE_NB` or `RB_WRITE` while a `WRITE` is in flight. Safe. -/
  | secondProducer
  /-- U5: `RB_READ` driven directly while the timer runs. Safe. -/
  | secondConsumer
  /-- R100, U5: a command on the data port while that port has one in flight; raised by `issue`. Safe. -/
  | dataPortBusy
deriving DecidableEq, Repr

/-- Why a step gives no meaning. -/
inductive Refusal where
  /-- an instruction the model gives no meaning yet; raised by `exec` only. Safe. -/
  | notModelled (mnemonic : String)
  /-- U6, R79: the source range passes the top of the source space; raised by `WRITE` and `WRITE_NB`. Safe. -/
  | sourceRangeWraps
  /-- U7, R6: parameters outside their constraints; raised by `step`. Safe. -/
  | illegalConfig
deriving DecidableEq, Repr

/-- A channel at power-on (R330). -/
def ChannelRegs.reset : ChannelRegs where
  mask := false
  dutyReg := 0
  upd := false
  outEn := false
  dutyAct := 0
  pin := .input

/-- The sample timer at power-on (R330). -/
def Timer.reset : Timer where
  claimed := false
  alarm := 0
  cnt := 0
  run := false
  inten := false
  countdown := none

/-- The write sequencer at power-on: `wr.phase = NONE` (R330); the other registers are 0 by DESIGN CHOICE, unsafe (log 8). -/
def WriteSeq.reset : WriteSeq where
  phase := .none
  buf := 0
  remaining := 0
  written := 0
  timeout := 0
  start := 0
  waitStart := 0
  chunk := 0

/-- The power-on state (R330, R50). `now` is a draw there and 0 here by DESIGN CHOICE, unsafe (log 7). -/
def State.reset : State where
  cfg := Config.defaults
  status := .uninitialized
  handle := false
  params := none
  rb := none
  timer := Timer.reset
  now := 0
  chan := { left := ChannelRegs.reset, right := ChannelRegs.reset }
  wr := WriteSeq.reset
  events := []
  wait := none
  source := { bytes := [], fill := 0 }
  env := { allocOk := true, hwOk := true }
  draws := 0
  agenda := []

end Sys2Proof.Machine
end

