-- ==== Sys2Proof/Machine/Ops.lean ====
section
/-! DEFINITION. The operations the meanings share: memory, channels, events, responses and errors, the ring's cursors, and what each needs to exist. -/

namespace Sys2Proof.Machine

/-- What a step answers. -/
abbrev Result := Host.Outcome State Fault Refusal

/-! ### Memory -/

/-- The listed byte at address `a`, if there is one. -/
def Memory.read : Memory → Nat → Option Byte
  | [], _ => none
  | (k, b) :: rest, a => if k = a then some b else Memory.read rest a

/-- The memory with byte `v` at address `a` and every other address as before; keeps the canonical form. -/
def Memory.write : Memory → Nat → Byte → Memory
  | [], a, v => [(a, v)]
  | (k, b) :: rest, a, v =>
    if a < k then (a, v) :: (k, b) :: rest
    else if a = k then (a, v) :: rest
    else (k, b) :: Memory.write rest a v

/-- `RbRead(i)` (R9): the byte of ring cell `i`; a cell nothing has written holds a free byte (R23, U10, log 10). -/
def RingBuffer.cell (r : RingBuffer) (i : Nat) : Byte :=
  (r.mem.read i).getD (Config.freeRingByte r.fill i)

/-- `MemRead(addr, 1)` (R72): the byte of the source-buffer space; an unlisted one is a free byte (log 11). -/
def memRead (s : State) (addr : Nat) : Byte :=
  (s.source.bytes.read addr).getD (Config.freeSourceByte s.source.fill addr)

/-! ### Channels -/

/-- `x[c]`. -/
def PerChannel.get {α : Type} (p : PerChannel α) : Channel → α
  | .left => p.left
  | .right => p.right

/-- `x[c] <- v`. -/
def PerChannel.set {α : Type} (p : PerChannel α) (c : Channel) (v : α) : PerChannel α :=
  match c with
  | .left => { p with left := v }
  | .right => { p with right := v }

/-- The registers of channel `c`. -/
def State.channel (s : State) (c : Channel) : ChannelRegs := PerChannel.get s.chan c

/-- The state with the registers of channel `c` replaced. -/
def State.setChannel (s : State) (c : Channel) (r : ChannelRegs) : State :=
  { s with chan := PerChannel.set s.chan c r }

/-- `ch_mask` as the 2-bit register S7 (R37). -/
def State.chMask (s : State) : BitVec 2 :=
  BitVec.ofBool s.chan.right.mask ++ BitVec.ofBool s.chan.left.mask

/-! ### Events, responses and errors -/

/-- `emit Ev` (R9, R58): the history grows at its end. -/
def emit (e : Event) (s : State) : State := { s with events := s.events ++ [e] }

/-- The error codes of rule R108. -/
inductive ErrorCode where
  | ok
  | notInitialized
  | alreadyInitialized
  | invalidState
  | invalidArgument
  | allocFailed
  | hardwareConfigFailed
  | empty
  | full
  | timeout
  | badCommand
deriving DecidableEq, Repr

/-- The number of an error code, `R0[7:0]`; `R0[31:8] = 0` (rules R102, R108). -/
def errorWord : ErrorCode → Word
  | .ok => 0
  | .notInitialized => 1
  | .alreadyInitialized => 2
  | .invalidState => 3
  | .invalidArgument => 4
  | .allocFailed => 5
  | .hardwareConfigFailed => 6
  | .empty => 7
  | .full => 8
  | .timeout => 9
  | .badCommand => 0xFF

/-- The numbers of the status values (R107). -/
def statusWord : Status → Word
  | .uninitialized => 0
  | .idle => 1
  | .busy => 2

/-- A command completes: its response words go out as a `Resp` event (rules R58, R102). -/
def respond (op : Byte) (e : ErrorCode) (r1 r2 r3 : Word) (s : State) : State :=
  emit (.resp op (errorWord e) r1 r2 r3) s

/-- `return OK(..)` (R9). -/
def done (op : Byte) (r1 r2 r3 : Word) (s : State) : Result := .next (respond op .ok r1 r2 r3 s)

/-- `raise E` (R9, R291): what an instruction set calls a synchronous exception is here an error status in the response.
It saves nothing, changes no mode and transfers control nowhere; the results are 0 and no register is written. -/
def raise (op : Byte) (e : ErrorCode) (s : State) : Result := .next (respond op e 0 0 0 s)

/-! ### Units that may not exist (R50, U1) -/

/-- What is done with the ring, which must exist (U1). -/
def withRing (s : State) (k : RingBuffer → Result) : Result :=
  match s.rb with
  | none => .fault .absentRing
  | some r => k r

/-- What is done with the parameter registers, which must exist (U1). -/
def withParams (s : State) (k : Params → Result) : Result :=
  match s.params with
  | none => .fault .absentParams
  | some p => k p

/-- The state with the ring registers replaced. -/
def State.setRing (s : State) (r : RingBuffer) : State := { s with rb := some r }

/-- The state with the parameter registers replaced. -/
def State.setParams (s : State) (p : Params) : State := { s with params := some p }

/-! ### The ring's cursors (40_ring_buffer.md) -/

/-- `occupied(s)`: `head - tail` modulo `size` (R28, R132, R139). -/
def occupied (r : RingBuffer) : Nat :=
  if r.tail.toNat ≤ r.head.toNat then r.head.toNat - r.tail.toNat
  else r.head.toNat + r.size.toNat - r.tail.toNat

/-- `free(s)`: `size - occupied - 1` (R28, R133). -/
def free (r : RingBuffer) : Nat := r.size.toNat - occupied r - 1

/-- `(x + 1) mod size` (R139). -/
def nextIndex (r : RingBuffer) (x : Word) : Word := toWord ((x.toNat + 1) % r.size.toNat)

/-- `read_byte` (R134): the byte at `tail` and the ring with `tail` advanced, or nothing when the ring is empty. The
byte is loaded before the cursor moves (R86). -/
def ringPop (r : RingBuffer) : Option (Byte × RingBuffer) :=
  if r.head = r.tail then none
  else some (r.cell r.tail.toNat, { r with tail := nextIndex r r.tail })

/-- `write_byte(b)` (R135): the ring with `b` stored at `head` and `head` advanced, or nothing when the ring is full.
The byte is stored before the cursor moves (R85). -/
def ringPush (r : RingBuffer) (b : Byte) : Option RingBuffer :=
  if nextIndex r r.head = r.tail then none
  else some { r with mem := r.mem.write r.head.toNat b, head := nextIndex r r.head }

/-- `flush()` (R136): both cursors to 0, nothing else. -/
def ringFlush (r : RingBuffer) : RingBuffer := { r with head := 0, tail := 0 }

/-- The ring `create(capacity)` makes (R130): unspecified contents, drawn by `fill` (log 10). -/
def freshRing (capacity : Word) (fill : Nat) : RingBuffer where
  size := capacity
  head := 0
  tail := 0
  pending := false
  sem := false
  mem := []
  fill := fill

/-! ### Registers of a width that is a parameter, and the sample timer's alarm value -/

/-- What a register of `w` bits holds after `x` is written to it: `x`, and a free value of `w` bits where `x` does not fit,
for which the spec states no result (rule R8: nothing is narrowed that the pseudocode does not narrow; DESIGN CHOICE, safe: log 3). -/
def fitTo (w x : Nat) : Nat := if x < 2 ^ w then x else Config.freeNarrowing w x % 2 ^ w

/-- `alarm_of(rate)`: two divisions rounding down, left to right (R161), in the register `t.alarm` (R39). -/
def alarmOf (k : Config) (rate : Word) : Nat := fitTo k.tcntW (k.timerBaseClock / k.timerDivider / rate.toNat)

/-- Reprogramming the alarm writes `t.alarm` and nothing else of the timer (R166); the count to the next alarm is decided
anew, so a drawn one is dropped (log 12). -/
def reprogramAlarm (k : Config) (rate : Word) (t : Timer) : Timer :=
  { t with alarm := alarmOf k rate, countdown := none }

end Sys2Proof.Machine
end

