-- ==== Sys2Proof/Machine/Flags.lean ====
section
/-! DEFINITION. The one-bit flags of rule R48 (`rb.pending`, `rb.sem`, `upd[c]`, `out_en[c]`) and the conditions read off the sequencer and the timer. There are no arithmetic condition codes. -/

namespace Sys2Proof.Machine

/-- `RB_WAIT` clears the pending flag on entry (rules R26, R138). -/
def clearPending (r : RingBuffer) : RingBuffer := { r with pending := false }

/-- The post of `RB_SIGNAL`: `pending` and `sem` to 1; a semaphore already 1 stays 1 (rules R91, R137). -/
def postSem (r : RingBuffer) : RingBuffer := { r with pending := true, sem := true }

/-- A successful take: `sem` to 0 (R91). -/
def takeSem (r : RingBuffer) : RingBuffer := { r with sem := false }

/-- `RB_SIGNAL` posts: `free(s) > WATERMARK and rb.pending = 0` (R137, C6). -/
def postDue (k : Config) (r : RingBuffer) : Bool := decide (k.watermark < free r) && !r.pending

/-- `SET_DUTY` asserts the two control bits (R190). -/
def assertControlBits (c : ChannelRegs) : ChannelRegs := { c with upd := true, outEn := true }

/-- A `WRITE` is in flight (R45). -/
def writeInFlight (s : State) : Bool := decide (s.wr.phase ≠ .none)

/-- The data port has a command in flight: a `WRITE`, or a directly driven `RB_WAIT` (rules R100, R138). -/
def dataPortBusy (s : State) : Bool := writeInFlight s || s.wait.isSome

/-- The consumer can run: `t.run = 1` and `t.inten = 1` (R340, U3). -/
def consumerActive (s : State) : Bool := s.timer.run && s.timer.inten

/-- `PROD` stands in the take of `RB_WAIT`: `wr.phase = WAIT_TAKE`, or a directly driven wait that has reached it
(rules R137, R301; DEDUCED for the direct wait, safe: log 13). -/
def atTake (s : State) : Bool :=
  decide (s.wr.phase = .waitTake) || (s.wait.map DirectWait.atTake).getD false

/-- The context-switch request of a post: `PROD` is blocked in the take, which is to stand there with `rb.sem = 0`
(rules R49, R137, R301; DEDUCED, log 14). -/
def switchRequest (s : State) (r : RingBuffer) : Bool := atTake s && !r.sem

/-- The ticks since `since`: `(now - since) mod 2^TICK_W`, the non-negative remainder (rules R8, R224 (6)). -/
def elapsed (k : Config) (now since : Nat) : Nat := (((now : Int) - since) % ((2 ^ k.tickW : Nat) : Int)).toNat

/-- A wait of `timeout` ticks that began at `since` has run out: `(now - since) mod 2^TICK_W >= timeout` (rules R91, R138). -/
def waitExpired (k : Config) (now since timeout : Nat) : Bool := decide (timeout ≤ elapsed k now since)

/-- The overall deadline is exceeded: `(now - start) mod 2^TICK_W > timeout` (R216, D27). -/
def deadlineExceeded (k : Config) (now start timeout : Nat) : Bool := decide (timeout < elapsed k now start)

/-- The timer has a count step: claimed and running (R162). -/
def timerCounts (t : Timer) : Bool := t.claimed && t.run

end Sys2Proof.Machine
end

