-- ==== Sys2Proof/Machine/Operands.lean ====
section
/-! DEFINITION. What an operand word means and which operand values an operation accepts. -/

namespace Sys2Proof.Machine

/-- A volume setting the machine accepts: `-FSV <= v <= FSV` (R245), `v` the signed value of the word (R105). -/
def volumeInRange (k : Config) (v : Word) : Bool :=
  decide (-(k.fsv : Int) ≤ v.toInt ∧ v.toInt ≤ (k.fsv : Int))

/-- The stored volume `v + FSV` of a setting `v` (rules R35, R245). -/
def storedVolume (k : Config) (v : Word) : Word := BitVec.ofInt 32 (v.toInt + (k.fsv : Int))

/-- The signed offset `(volume - FSV) mod 2^32` of a stored volume (R246). -/
def volumeSetting (k : Config) (volume : Word) : Word := BitVec.ofInt 32 ((volume.toNat : Int) - (k.fsv : Int))

/-- `RATE_MIN <= rate <= RATE_MAX` (rules R243, R244). -/
def rateInRange (rate : Word) : Bool := decide (Config.rateMin ≤ rate.toNat ∧ rate.toNat ≤ Config.rateMax)

/-- `bits` in {8, 16, 32} (R243). -/
def bitsLegal (bits : Word) : Bool := decide (bits = 8 ∨ bits = 16 ∨ bits = 32)

/-- `channels` in {1, 2} (R243). -/
def channelsLegal (channels : Word) : Bool := decide (channels = 1 ∨ channels = 2)

/-- `8 <= resolution <= 10` (R240). -/
def resolutionInRange (resolution : Byte) : Bool :=
  decide (Config.resMin ≤ resolution.toNat ∧ resolution.toNat ≤ Config.resMax)

/-- A GPIO operand that assigns its channel (R106). -/
def gpioAssigned (k : Config) (gpio : Byte) : Bool := decide (gpio ≠ k.gpioNone)

/-- A null buffer or a zero length (rules R73, R210, R218). -/
def sourceArgsBad (buf length : Word) : Bool := decide (buf = 0 ∨ length = 0)

/-- The timeout of a `WRITE` in `wr.timeout`, of `TICK_W` bits (rules R45, R210; log 3). -/
def timeoutOf (k : Config) (timeout : Word) : Nat := fitTo k.tickW timeout.toNat

/-- `carrier_hz`: `base_clock / 2^resolution`, rounded down to the nearest kHz (R38), in its 32 bits. -/
def carrierOf (k : Config) (resolution : Byte) : Word :=
  let f := k.pwmBaseClock / 2 ^ resolution.toNat
  toWord (fitTo 32 (f - f % 1000))

/-- `scale(b, vol) = ((b * vol) div FSV) mod 256` (R212). -/
def scale (k : Config) (b : Byte) (volume : Word) : Byte :=
  BitVec.ofNat 8 (b.toNat * volume.toNat / k.fsv)

/-- The duty value of a sample: `zext_32(v) * 2^DUTY_FRAC_BITS` (R190). -/
def dutyOf (k : Config) (value : Byte) : Word := toWord (value.toNat * 2 ^ k.dutyFracBits)

end Sys2Proof.Machine
end

