-- ==== Sys2Proof/Machine/DutyDriver.lean ====
section
/-! DEFINITION. The duty driver and the latch step (42_duty_driver.md), and what a pin does (R194). -/

namespace Sys2Proof.Machine

/-- `set_duty_fast(channel, value)` (R190): the duty register, the two control bits, the `Duty` event. A channel that was
not configured has its registers written all the same (D24). -/
def applyDuty (c : Channel) (value : Byte) (s : State) : State :=
  emit (.duty c (dutyOf s.cfg value))
    (s.setChannel c (assertControlBits { s.channel c with dutyReg := dutyOf s.cfg value }))

/-- `SET_DUTY` (R190). -/
def execSetDuty (c : Channel) (value : Byte) (s : State) : Result :=
  done (Instr.setDuty c value).op 0 0 0 (applyDuty c value s)

/-- The registers of a channel after its latch (R193). -/
def latchRegs (r : ChannelRegs) : ChannelRegs := { r with dutyAct := r.dutyReg, upd := false }

/-- `LATCH` (R193): at a carrier boundary of a configured channel a waiting duty value is applied; otherwise, and on a
channel that is not configured and so has no carrier boundary (DEDUCED, log 21), nothing changes. No response. -/
def execLatch (c : Channel) (s : State) : Result :=
  if (s.channel c).mask && (s.channel c).upd then
    .next (emit (.latch c (s.channel c).dutyReg) (s.setChannel c (latchRegs (s.channel c))))
  else .next s

/-- A channel configured by `INIT` (R192). -/
def configuredChannel (r : ChannelRegs) : ChannelRegs :=
  { r with mask := true, pin := .output, outEn := true, dutyReg := 0, dutyAct := 0, upd := false }

/-- A channel that is not configured: its power-on registers. `DEINIT` leaves every channel so (rules R196, R330), `INIT`
the channels it does not configure (rules R50, R332; DEDUCED where R240 and R242 list the configured channels only, unsafe:
log 22). -/
def releaseChannel (r : ChannelRegs) : ChannelRegs :=
  { r with mask := false, outEn := false, upd := false, dutyReg := 0, dutyAct := 0, pin := .input }

/-- `configure each channel with ch_mask[c] = 1`, and the mask itself (rules R192, R240, R332). -/
def configureChannel (assigned : Bool) (r : ChannelRegs) : ChannelRegs :=
  if assigned then configuredChannel r else releaseChannel r

/-- What the block does to a pin (R194, G8). -/
inductive PinDrive where
  /-- the pin is an input: the block does not drive it. -/
  | undriven
  /-- the output is not enabled: the pin is low. -/
  | low
  /-- high for `high` counts of every `total` counts of the carrier cycle. -/
  | pwm (high total : Nat)
deriving DecidableEq, Repr

/-- The drive of the pin of channel `c` (R194); a view, which no step reads. An output pin without a resolution register
is unreachable and reads as low. -/
def pinDrive (s : State) (c : Channel) : PinDrive :=
  match (s.channel c).pin, (s.channel c).outEn, s.params with
  | .input, _, _ => .undriven
  | .output, false, _ => .low
  | .output, true, none => .low
  | .output, true, some p => .pwm ((s.channel c).dutyAct.toNat / 2 ^ s.cfg.dutyFracBits) (2 ^ p.resolution.toNat)

end Sys2Proof.Machine
end

