-- ==== Sys2Proof/Machine/RingBuffer.lean ====
section
/-! DEFINITION. The ring buffer operations (40_ring_buffer.md). -/

namespace Sys2Proof.Machine

/-! ### Shared with the lifecycle, the alarm handler and the write path -/

/-- `create(capacity)` (R130): the new ring, or nothing when the capacity is below the minimum or the allocation fails. A
capacity above `CAP_MAX`, which no ring may have (rules R7, R22), fails as an allocation does (DESIGN CHOICE: log 2). -/
def createRing (capacity : Word) (s : State) : Option RingBuffer :=
  if capacity.toNat < Config.minCapacity then none
  else if s.cfg.capMax < capacity.toNat then none
  else if !s.env.allocOk then none
  else some (freshRing capacity s.draws)

/-- The state with a new ring: its free contents use up one draw (log 10). -/
def State.installRing (s : State) (r : RingBuffer) : State := { s with rb := some r, draws := s.draws + 1 }

/-- `signal_space_available()` on a state whose ring is `r` (R137): a post when it is due, and its event. -/
def signalSpace (s : State) (r : RingBuffer) : State :=
  if postDue s.cfg r then emit (.post (switchRequest s r)) (s.setRing (postSem r)) else s.setRing r

/-! ### The operations -/

/-- `RB_CREATE` (R130). Faults: a running consumer (U3, R340), an existing ring (U2); both stand before the tests of
the operand, as the spec states them without one (logs 15, 17). A `WRITE` in flight without a ring is no fault: the ring is
made and the `WRITE` goes on with it (DESIGN CHOICE, unsafe: log 34). -/
def execRbCreate (capacity : Word) (s : State) : Result :=
  if consumerActive s then .fault .cursorRace
  else if s.rb.isSome then .fault .ringExists
  else match createRing capacity s with
    | none => raise (Instr.rbCreate capacity).op .allocFailed s
    | some r => done (Instr.rbCreate capacity).op 0 0 0 (s.installRing r)

/-- `RB_DESTROY` (R131): no ring afterwards; without one a no-op that answers `OK`. "legal only while neither side is
active" (R131): a running consumer (U3) or a `WRITE` in flight (log 16) is the race, also where there is no ring (DESIGN
CHOICE, safe: log 35). A directly driven `RB_WAIT` in flight
is not taken for an active side, and goes on without this ring (DESIGN CHOICE, unsafe: log 32). -/
def execRbDestroy (s : State) : Result :=
  if consumerActive s || writeInFlight s then .fault .cursorRace
  else done Instr.rbDestroy.op 0 0 0 { s with rb := none }

/-- `RB_OCCUPIED` (R132). -/
def execRbOccupied (s : State) : Result :=
  withRing s fun r => done Instr.rbOccupied.op (toWord (occupied r)) 0 0 s

/-- `RB_FREE` (R133). -/
def execRbFree (s : State) : Result :=
  withRing s fun r => done Instr.rbFree.op (toWord (free r)) 0 0 s

/-- `RB_READ` driven directly (R134). While the timer runs it is a second consumer (R341, U5, log 18). -/
def execRbRead (s : State) : Result :=
  if s.timer.run then .fault .secondConsumer
  else withRing s fun r =>
    match ringPop r with
    | none => raise Instr.rbRead.op .empty s
    | some (b, r') => done Instr.rbRead.op (b.setWidth 32) 0 0 (s.setRing r')

/-- `RB_WRITE` driven directly (R135). While a `WRITE` is in flight it is a second producer (R341, U5). -/
def execRbWrite (b : Byte) (s : State) : Result :=
  if writeInFlight s then .fault .secondProducer
  else withRing s fun r =>
    match ringPush r b with
    | none => raise (Instr.rbWrite b).op .full s
    | some r' => done (Instr.rbWrite b).op 0 0 0 (s.setRing r')

/-- `RB_FLUSH` driven directly (R136). A running consumer or a `WRITE` in flight is the race (R340, R343, U3). -/
def execRbFlush (s : State) : Result :=
  if consumerActive s || writeInFlight s then .fault .cursorRace
  else withRing s fun r => done Instr.rbFlush.op 0 0 0 (s.setRing (ringFlush r))

/-- `RB_SIGNAL` (R137): `R1[0]` says whether it posted. -/
def execRbSignal (s : State) : Result :=
  withRing s fun r => done Instr.rbSignal.op (boolWord (postDue s.cfg r)) 0 0 (signalSpace s r)

/-- `RB_WAIT` driven directly, step 1 (R138): the pending flag is cleared, the tick and the operand are kept; step 2
is `directTake`, a later step of `PROD` (log 13). -/
def execRbWait (timeout : Word) (s : State) : Result :=
  withRing s fun r =>
    .next { s with
      rb := some (clearPending r)
      wait := some { timeout := timeout, start := s.now, atTake := false } }

/-- The operation number of `RB_WAIT` (R103), for the response that ends one. -/
def rbWaitOp : Byte := (Instr.rbWait 0).op

/-- Step 2 of a directly driven `RB_WAIT` (rules R91, R138): the take, the timeout, or blocked; a post wins over the
timeout (D18). The ticks are compared with `A` itself, so a timeout of `2^TICK_W` or more never runs out. -/
def directTake (w : DirectWait) (s : State) : Result :=
  withRing s fun r =>
    if r.sem then
      done rbWaitOp 0 0 0 { s with rb := some (takeSem r), wait := none }
    else if waitExpired s.cfg s.now w.start w.timeout.toNat then
      raise rbWaitOp .timeout { s with wait := none }
    else .next { s with wait := some { w with atTake := true } }

end Sys2Proof.Machine
end

