-- ==== Sys2Proof/Machine/Lifecycle.lean ====
section
/-! DEFINITION. The ten control commands (44_lifecycle.md), each one atomic step (R252). -/

namespace Sys2Proof.Machine

/-! ### `INIT` -/

/-- The parameter registers after a successful `INIT` (rules R240, R332). -/
def initParams (k : Config) (resolution timerSel gpioLeft gpioRight : Byte) : Params where
  rate := Config.defaultRate
  bits := Config.defaultBits
  channels := Config.defaultCh
  volume := toWord k.fsv
  resolution := resolution.setWidth 32
  gpio := { left := gpioLeft, right := gpioRight }
  timerSel := timerSel
  carrierHz := carrierOf k resolution

/-- The sample timer after a successful `INIT`: claimed, armed, not started (rules R39, R240). -/
def initTimer (k : Config) : Timer where
  claimed := true
  alarm := alarmOf k Config.defaultRate
  cnt := 0
  run := false
  inten := false
  countdown := none

/-- The whole success state of `INIT` with the ring `r` (rules R240, R332). -/
def initState (resolution timerSel gpioLeft gpioRight : Byte) (r : RingBuffer) (s : State) : State :=
  { s.installRing r with
    status := .idle
    handle := true
    params := some (initParams s.cfg resolution timerSel gpioLeft gpioRight)
    timer := initTimer s.cfg
    chan :=
      { left := configureChannel (gpioAssigned s.cfg gpioLeft) s.chan.left
        right := configureChannel (gpioAssigned s.cfg gpioRight) s.chan.right } }

/-- `INIT` (R240). Every failure leaves every register as it was (R241, D29). A ring made by a direct `RB_CREATE` makes the
inner `create` a second one: U2. -/
def execInit (ringbufLen : Word) (resolution timerSel gpioLeft gpioRight : Byte) (s : State) : Result :=
  let op := (Instr.init ringbufLen resolution timerSel gpioLeft gpioRight).op
  if s.status ≠ .uninitialized then raise op .alreadyInitialized s
  else if !resolutionInRange resolution then raise op .invalidArgument s
  else if s.rb.isSome then .fault .ringExists
  else match createRing ringbufLen s with
    | none => raise op .allocFailed s
    | some r =>
      if !gpioAssigned s.cfg gpioLeft && !gpioAssigned s.cfg gpioRight then raise op .invalidArgument s
      else if !s.env.hwOk then raise op .hardwareConfigFailed s
      else done op 0 0 0 (initState resolution timerSel gpioLeft gpioRight r s)

/-! ### `DEINIT` -/

/-- The state after `DEINIT` (rules R242, R330): the ring, the parameters and the timer are released, and everything but
`now` and the history is as at power-on; so `t.cnt`, `t.alarm`, the registers of channels that were not configured and
`wr.*`, which R242 does not name, are as R330 says (logs 8, 22). -/
def deinitState (s : State) : State :=
  { s with
    status := .uninitialized
    handle := false
    params := none
    rb := none
    timer := Timer.reset
    wr := WriteSeq.reset
    chan := { left := releaseChannel s.chan.left, right := releaseChannel s.chan.right } }

/-- `DEINIT` (R242): legal from `IDLE` and `BUSY`, a no-op that answers `OK` when nothing exists (D21); while a `WRITE` is
in flight a race (R343, U3, log 15). A directly driven `RB_WAIT` in flight is none, as in `execRbDestroy` (DESIGN CHOICE,
unsafe: log 32). -/
def execDeinit (s : State) : Result :=
  if writeInFlight s then .fault .cursorRace
  else if s.status = .uninitialized then done Instr.deinit.op 0 0 0 s
  else done Instr.deinit.op 0 0 0 (deinitState s)

/-! ### Parameters -/

/-- `SET_PARAM` (R243): the state gate before the arguments (C5). -/
def execSetParam (rate bits channels : Word) (s : State) : Result :=
  let op := (Instr.setParam rate bits channels).op
  match s.status with
  | .uninitialized => raise op .notInitialized s
  | .busy => raise op .invalidState s
  | .idle =>
    if !rateInRange rate then raise op .invalidArgument s
    else if !bitsLegal bits then raise op .invalidArgument s
    else if !channelsLegal channels then raise op .invalidArgument s
    else withParams s fun p =>
      done op 0 0 0
        { s with
          params := some { p with rate := rate, bits := bits, channels := channels }
          timer := reprogramAlarm s.cfg rate s.timer }

/-- `SET_RATE` (R244): no `BUSY` gate (U13, C4). -/
def execSetRate (rate : Word) (s : State) : Result :=
  let op := (Instr.setRate rate).op
  if s.status = .uninitialized then raise op .notInitialized s
  else if !rateInRange rate then raise op .invalidArgument s
  else withParams s fun p =>
    done op 0 0 0
      { s with params := some { p with rate := rate }, timer := reprogramAlarm s.cfg rate s.timer }

/-- `SET_VOL` (R245). -/
def execSetVol (v : Word) (s : State) : Result :=
  let op := (Instr.setVol v).op
  if s.status = .uninitialized then raise op .notInitialized s
  else if !volumeInRange s.cfg v then raise op .invalidArgument s
  else withParams s fun p => done op 0 0 0 (s.setParams { p with volume := storedVolume s.cfg v })

/-- `GET_VOL` (R246). -/
def execGetVol (s : State) : Result :=
  if s.status = .uninitialized then raise Instr.getVol.op .notInitialized s
  else withParams s fun p => done Instr.getVol.op (volumeSetting s.cfg p.volume) 0 0 s

/-- `GET_PARAM` (R250). -/
def execGetParam (s : State) : Result :=
  if s.status = .uninitialized then raise Instr.getParam.op .notInitialized s
  else withParams s fun p => done Instr.getParam.op p.rate p.bits p.channels s

/-! ### The status state machine (R167, R251) -/

/-- `START` (R247): the timer and its interrupt are enabled; the count goes on from where it stood (D12). -/
def execStart (s : State) : Result :=
  match s.status with
  | .uninitialized => raise Instr.start.op .notInitialized s
  | .busy => raise Instr.start.op .invalidState s
  | .idle =>
    done Instr.start.op 0 0 0
      { s with timer := { s.timer with run := true, inten := true }, status := .busy }

/-- `STOP` (R248): the timer is paused first, then the ring is flushed; nothing else is written. While a `WRITE` is in
flight it is a race (R343, U3, log 15). -/
def execStop (s : State) : Result :=
  if writeInFlight s then .fault .cursorRace
  else match s.status with
    | .uninitialized => raise Instr.stop.op .notInitialized s
    | .idle => raise Instr.stop.op .invalidState s
    | .busy =>
      withRing s fun r =>
        done Instr.stop.op 0 0 0
          { s with
            timer := { s.timer with run := false, inten := false }
            rb := some (ringFlush r)
            status := .idle }

/-- `GET_STATUS` (R249, C9). -/
def execGetStatus (s : State) : Result :=
  if s.status = .uninitialized then raise Instr.getStatus.op .notInitialized s
  else done Instr.getStatus.op (statusWord s.status) 0 0 s

end Sys2Proof.Machine
end

