-- ==== Sys2Proof/Machine/ProducerWrite.lean ====
section
/-! DEFINITION. The producer write path (43_producer_write.md): `WRITE` with its phase machine, and `WRITE_NB`. -/

namespace Sys2Proof.Machine

/-- The operation number of `WRITE` (R103), for the response that ends one. -/
def writeOp : Byte := (Instr.write 0 0 0).op

/-- The write sequencer at the entry of a `WRITE` (R210). -/
def enterWrite (buf length timeout : Word) (s : State) : WriteSeq :=
  { s.wr with
    phase := .waitClear, buf := buf.toNat, remaining := length, written := 0, timeout := timeoutOf s.cfg timeout
    start := s.now }

/-- `WRITE`, the entry step (R210). A second one while one is in flight is a second producer (R341, U5, log 15); a range
past the top of the source space is refused (R79, U6, log 26). -/
def execWrite (buf length timeout : Word) (s : State) : Result :=
  if writeInFlight s then .fault .secondProducer
  else if s.status = .uninitialized then raise (Instr.write buf length timeout).op .notInitialized s
  else if sourceArgsBad buf length then raise (Instr.write buf length timeout).op .invalidArgument s
  else if !(Instr.write buf length timeout).wf s.cfg then .refused .sourceRangeWraps
  else .next { s with wr := enterWrite buf length timeout s }

/-- A `WRITE` ends (rules R214, R216, C3): `R0 = OK`, `R1` the bytes written, `R2[0]` whether it timed out. -/
def finishWrite (timedOut : Bool) (s : State) : Result :=
  done writeOp s.wr.written (boolWord timedOut) 0 { s with wr := { s.wr with phase := .none } }

/-- Phase `WAIT_CLEAR` (R213): step 1 of `RB_WAIT`. -/
def waitClearStep (s : State) : Result :=
  withRing s fun r =>
    .next { s with rb := some (clearPending r), wr := { s.wr with waitStart := s.now, phase := .waitTake } }

/-- Phase `WAIT_TAKE` (R214): the take and the size of the chunk, the timeout, or blocked. -/
def waitTakeStep (s : State) : Result :=
  withRing s fun r =>
    if r.sem then
      .next { s with
        rb := some (takeSem r)
        wr := { s.wr with chunk := toWord (min s.wr.remaining.toNat (free r)), phase := .chunk } }
    else if waitExpired s.cfg s.now s.wr.waitStart s.wr.timeout then finishWrite true s
    else .next s

/-- The sequencer after one byte of a chunk (R215). After a byte at the last address, which rule R79 lets a range reach
and rule R224 (7) does not expect, the `ADDR_W` bits of `wr.buf` hold 0; nothing reads them again in that `WRITE` (DESIGN
CHOICE: log 33). -/
def advanceWrite (k : Config) (w : WriteSeq) : WriteSeq :=
  { w with buf := (w.buf + 1) % 2 ^ k.addrW, remaining := w.remaining - 1, written := w.written + 1, chunk := w.chunk - 1 }

/-- Phase `CHUNK` (R215): one byte, scaled with the volume of this moment (R212), or on to `CHECK`. -/
def chunkStep (s : State) : Result :=
  if s.wr.chunk = 0 then .next { s with wr := { s.wr with phase := .check } }
  else withRing s fun r => withParams s fun p =>
    match ringPush r (scale s.cfg (memRead s s.wr.buf) p.volume) with
    | none => .fault .fullInChunk
    | some r' => .next { s with rb := some r', wr := advanceWrite s.cfg s.wr }

/-- Phase `CHECK` (R216). -/
def checkStep (s : State) : Result :=
  if s.wr.remaining = 0 then finishWrite false s
  else if deadlineExceeded s.cfg s.now s.wr.start s.wr.timeout then finishWrite true s
  else .next { s with wr := { s.wr with phase := .waitClear } }

/-- The step of `PROD` with what it has in flight (rules R138, R217); with nothing in flight it has no step. -/
def prodStep (s : State) : Result :=
  match s.wr.phase with
  | .waitClear => waitClearStep s
  | .waitTake => waitTakeStep s
  | .chunk => chunkStep s
  | .check => checkStep s
  | .none =>
    match s.wait with
    | none => .next s
    | some w => directTake w s

/-- `for i in 0 .. n - 1: RB_WRITE(scale(MemRead(addr + i, 1), s.volume))` (R218). -/
def pushSource (s : State) (volume : Word) : Nat → Nat → RingBuffer → Option RingBuffer
  | 0, _, r => some r
  | n + 1, addr, r =>
    match ringPush r (scale s.cfg (memRead s addr) volume) with
    | none => none
    | some r' => pushSource s volume n (addr + 1) r'

/-- `WRITE_NB` (R218): as many bytes as fit, in one step; the semaphore, the flag and the clock are not touched. While a
`WRITE` is in flight it is a second producer (R341, U5, log 15). `Full` cannot arise, since at most `free` bytes are
written. -/
def execWriteNb (buf length : Word) (s : State) : Result :=
  if writeInFlight s then .fault .secondProducer
  else if s.status = .uninitialized then raise (Instr.writeNb buf length).op .notInitialized s
  else if sourceArgsBad buf length then raise (Instr.writeNb buf length).op .invalidArgument s
  else if !(Instr.writeNb buf length).wf s.cfg then .refused .sourceRangeWraps
  else withRing s fun r => withParams s fun p =>
    let n := min length.toNat (free r)
    match pushSource s p.volume n buf.toNat r with
    | none => .fault .fullInChunk
    | some r' => done (Instr.writeNb buf length).op (toWord n) 0 0 (s.setRing r')

end Sys2Proof.Machine
end

