-- ==== Sys2Proof/Machine/SampleClock.lean ====
section
/-! DEFINITION. The alarm handler, the timer's count step and the tick (41_sample_clock.md, 60_exceptions.md section 2). -/

namespace Sys2Proof.Machine

/-- Steps 2 and 3 of the alarm handler on the ring `r` (rules R163, R164): one byte to the primary channel, or an
underrun that writes no duty register; then `RB_SIGNAL`, always. -/
def serveAlarm (s : State) (r : RingBuffer) : State :=
  match ringPop r with
  | none => signalSpace (emit (.alarm .underrun) s) r
  | some (b, r') => signalSpace (emit (.alarm (.byte b)) (applyDuty s.cfg.primaryCh b s)) r'

/-- Taking the alarm interrupt (rules R163, R297 to R300): the handler is one atomic step; entry saves nothing, changes no
mode and no mask, and the return restores nothing. Without the handle it returns at once. -/
def takeAlarm (s : State) : Result :=
  if s.handle then withRing s fun r => .next (serveAlarm s r)
  else .next (emit (.alarm .noHandle) s)

/-- `ALARM` (R163); as an event code, a spurious alarm (R168, log 24). No response. -/
def execAlarm (s : State) : Result := takeAlarm s

/-- The alarm is reached: the counter reloads and, when `t.inten = 1`, the handler runs in the same step; with `t.inten = 0`
the alarm is dropped (rules R162, R296, R297). -/
def timerFires (s : State) : Result :=
  let s' := { s with timer := { s.timer with cnt := 0, countdown := none } }
  if s'.timer.inten then takeAlarm s' else .next s'

/-- `t.cnt + 1` in a counter of `TCNT_W` bits (rules R39, R162). -/
def countUp (k : Config) (cnt : Nat) : Nat := (cnt + 1) % 2 ^ k.tcntW

/-- One count of a timer whose next alarm comes after `n` counts (R166, U8). -/
def countDown (n : Nat) (s : State) : Result :=
  if n ≤ 1 then timerFires s
  else .next { s with timer := { s.timer with cnt := countUp s.cfg s.timer.cnt, countdown := some (n - 1) } }

/-- The drawn number of counts to the next alarm, in `1 .. 2^TCNT_W` (R166, U8). -/
def drawnCounts (k : Config) (draw : Nat) : Nat := Config.freeAlarmCount draw % 2 ^ k.tcntW + 1

/-- The count step (R162). With the alarm value not above the count, the number of counts to the next alarm is drawn
(R166, U8, log 12). A timer that is not claimed or does not run has no count step. -/
def countStep (s : State) : Result :=
  if timerCounts s.timer then
    match s.timer.countdown with
    | some n => countDown n s
    | none =>
      if s.timer.cnt < s.timer.alarm then
        if countUp s.cfg s.timer.cnt = s.timer.alarm then timerFires s
        else .next { s with timer := { s.timer with cnt := countUp s.cfg s.timer.cnt } }
      else countDown (drawnCounts s.cfg s.draws) { s with draws := s.draws + 1 }
  else .next s

/-- The tick step (R10, R40): `now` wraps modulo `2^TICK_W`. -/
def tickStep (s : State) : Result := .next { s with now := (s.now + 1) % 2 ^ s.cfg.tickW }

end Sys2Proof.Machine
end

