-- ==== Sys2Proof/Machine/Dispatch.lean ====
section
/-! DEFINITION. One arm per operation: the meaning of each. -/

namespace Sys2Proof.Machine

def exec (i : Instr) (s : State) : Host.Outcome State Fault Refusal :=
  match i with
  | .init ringbufLen resolution timerSel gpioLeft gpioRight => Sys2Proof.Machine.execInit ringbufLen resolution timerSel gpioLeft gpioRight s
  | .deinit => Sys2Proof.Machine.execDeinit s
  | .setParam rate bits channels => Sys2Proof.Machine.execSetParam rate bits channels s
  | .setRate rate => Sys2Proof.Machine.execSetRate rate s
  | .setVol v => Sys2Proof.Machine.execSetVol v s
  | .getVol => Sys2Proof.Machine.execGetVol s
  | .start => Sys2Proof.Machine.execStart s
  | .stop => Sys2Proof.Machine.execStop s
  | .getStatus => Sys2Proof.Machine.execGetStatus s
  | .getParam => Sys2Proof.Machine.execGetParam s
  | .write buf length timeout => Sys2Proof.Machine.execWrite buf length timeout s
  | .writeNb buf length => Sys2Proof.Machine.execWriteNb buf length s
  | .rbCreate capacity => Sys2Proof.Machine.execRbCreate capacity s
  | .rbDestroy => Sys2Proof.Machine.execRbDestroy s
  | .rbOccupied => Sys2Proof.Machine.execRbOccupied s
  | .rbFree => Sys2Proof.Machine.execRbFree s
  | .rbRead => Sys2Proof.Machine.execRbRead s
  | .rbWrite b => Sys2Proof.Machine.execRbWrite b s
  | .rbFlush => Sys2Proof.Machine.execRbFlush s
  | .rbSignal => Sys2Proof.Machine.execRbSignal s
  | .rbWait timeout => Sys2Proof.Machine.execRbWait timeout s
  | .setDuty channel value => Sys2Proof.Machine.execSetDuty channel value s
  | .alarm => Sys2Proof.Machine.execAlarm s
  | .latch channel => Sys2Proof.Machine.execLatch channel s

end Sys2Proof.Machine
end

