-- ==== Sys2Proof/Machine/Ports.lean ====
section
/-! DEFINITION. The ports (rules R100, R109, R114), the agents' turns (R10) and how a command is placed on its port. -/

namespace Sys2Proof.Machine

/-- The ports that may carry an operation, its own first (rules R103, R114, R303); event codes arrive on the event input
only (R109). -/
def portsOf : Instr → List Port
  | .init _ _ _ _ _ => [.control]
  | .deinit => [.control]
  | .setParam _ _ _ => [.control]
  | .setRate _ => [.control]
  | .setVol _ => [.control]
  | .getVol => [.control]
  | .start => [.control]
  | .stop => [.control]
  | .getStatus => [.control]
  | .getParam => [.control]
  | .write _ _ _ => [.data]
  | .writeNb _ _ => [.data, .interrupt]
  | .rbCreate _ => [.control]
  | .rbDestroy => [.control]
  | .rbOccupied => [.control, .data, .interrupt]
  | .rbFree => [.control, .data, .interrupt]
  | .rbRead => [.interrupt]
  | .rbWrite _ => [.data]
  | .rbFlush => [.control]
  | .rbSignal => [.interrupt]
  | .rbWait _ => [.data]
  | .setDuty _ _ => [.interrupt]
  | .alarm => [.event]
  | .latch _ => [.event]

/-- Port `p` may carry operation `i` (R114). -/
def portAllows (p : Port) (i : Instr) : Bool := (portsOf i).contains p

/-- An illegal command is answered `BadCommand` and writes no register (rules R109, R294, log 20). -/
def badCommand (k : Cmd) (s : State) : Result := raise k.op .badCommand s

/-- The operations that read the source buffer (R72). -/
def readsSource : Instr → Bool
  | .init _ _ _ _ _ => false
  | .deinit => false
  | .setParam _ _ _ => false
  | .setRate _ => false
  | .setVol _ => false
  | .getVol => false
  | .start => false
  | .stop => false
  | .getStatus => false
  | .getParam => false
  | .write _ _ _ => true
  | .writeNb _ _ => true
  | .rbCreate _ => false
  | .rbDestroy => false
  | .rbOccupied => false
  | .rbFree => false
  | .rbRead => false
  | .rbWrite _ => false
  | .rbFlush => false
  | .rbSignal => false
  | .rbWait _ => false
  | .setDuty _ _ => false
  | .alarm => false
  | .latch _ => false

/-- A command that reads the source buffer brings its own (R72, D16); the buffer of a `WRITE` in flight stays (R354). -/
def supplySource (i : Instr) (b : SourceBuffer) (s : State) : State :=
  if readsSource i && !writeInFlight s then { s with source := b } else s

/-- A command arrives on a port (rules R100, R109, R114): an illegal one is answered `BadCommand`; the data port takes no
second command while one is in flight (R100, log 19); otherwise the operation runs. -/
def issue (p : Port) (k : Cmd) (b : SourceBuffer) (s : State) : Result :=
  match decode k with
  | .error _ => badCommand k s
  | .ok i =>
    if !portAllows p i then badCommand k s
    else if p = .data ∧ dataPortBusy s = true then .fault .dataPortBusy
    else exec i (supplySource i b s)

/-- An agent takes its step (R10); one that has no step leaves the state as it is (log 5). -/
def turnOf : Agent → State → Result
  | .prod, s => prodStep s
  | .timer, s => countStep s
  | .pwm c, s => execLatch c s
  | .tick, s => tickStep s

/-- What the head of the agenda is (log 4). -/
def serve : Input → State → Result
  | .command p k d b, s => issue p k b { s with env := d }
  | .turn a, s => turnOf a s

/-- Without an input the scheduler's choice is free (R10, log 5). -/
def freeTurn (s : State) : Result := turnOf (Config.freeAgent s.draws) { s with draws := s.draws + 1 }

/-- The port a command is placed on: that of its operation, or the control port for a command without one. -/
def portOfCmd (k : Cmd) : Port :=
  match decode k with
  | .error _ => .control
  | .ok i => (portsOf i).headD .control

/-- The state with a command placed in front of the agenda, the environment granting both draws (log 6) and leaving the
source buffer as it stands. -/
def placeCommand (k : Cmd) (s : State) : State :=
  { s with agenda := .command (portOfCmd k) k { allocOk := true, hwOk := true } s.source :: s.agenda }

end Sys2Proof.Machine
end

