-- ==== Sys2Proof/Machine/Step.lean ====
section
/-! DEFINITION. One step of the machine, and the placing of an instruction where the next step takes it. -/

namespace Sys2Proof.Machine

/-- One atomic step of one agent (rules R10, R84): the agenda's head, or a free choice where the agenda is empty. A
configuration outside its constraints is refused (U7). -/
def step (s : State) : Host.Outcome State Fault Refusal :=
  if s.cfg.Legal then
    match s.agenda with
    | [] => freeTurn s
    | x :: rest => serve x { s with agenda := rest }
  else .refused .illegalConfig

/-- `s` with the command of a table word in front of its agenda: the very next step takes it from its port (log 4). -/
def State.withFetchWord (s : State) (nbits w : Nat) : State := placeCommand (tableCmd nbits w) s

end Sys2Proof.Machine
end

