-- ==== Sys2Proof/Safety.lean ====
section
/-! DEFINITION. What claims about the machine are stated in: the queue a ring holds, the invariants of rules R28 to R45, and what the outside can see of a state. -/

namespace Sys2Proof.Machine

/-! ### The ring as a queue -/

/-- The ring index `tail + k`, modulo the size. -/
def RingBuffer.slot (r : RingBuffer) (k : Nat) : Nat := (r.tail.toNat + k) % r.size.toNat

/-- The bytes a ring holds, oldest first (R89: "strict FIFO byte ordering"). -/
def RingBuffer.contents (r : RingBuffer) : List Byte :=
  (List.range (occupied r)).map fun k => r.cell (r.slot k)

/-- The bytes that wait in the ring, oldest first; none while no ring exists. -/
def State.queue (s : State) : List Byte :=
  match s.rb with
  | none => []
  | some r => r.contents

/-- The ring invariants (rules R22 to R25, R28), and that its memory is canonical and lies inside the array. -/
structure RingBuffer.Ok (r : RingBuffer) : Prop where
  capacity : Config.minCapacity ≤ r.size.toNat
  head : r.head.toNat < r.size.toNat
  tail : r.tail.toNat < r.size.toNat
  canonical : r.mem.wf
  inside : ∀ c ∈ r.mem, c.1 < r.size.toNat

/-! ### The other registers -/

/-- The legal values of the parameter registers (rules R32 to R36, R38). -/
structure Params.Ok (k : Config) (p : Params) : Prop where
  rate : rateInRange p.rate = true
  bits : bitsLegal p.bits = true
  channels : channelsLegal p.channels = true
  volume : p.volume.toNat ≤ 2 * k.fsv
  resolution : Config.resMin ≤ p.resolution.toNat ∧ p.resolution.toNat ≤ Config.resMax
  carrier : ∃ res : Byte, p.resolution = res.setWidth 32 ∧ p.carrierHz = carrierOf k res

/-- A duty value a sample can have: `v * 2^DUTY_FRAC_BITS` with `0 <= v <= 255` (R41). -/
def IsDuty (k : Config) (w : Word) : Prop := ∃ v : Byte, w = dutyOf k v

/-- The registers of a channel (rules R37, R41, R43, R44). -/
structure ChannelRegs.Ok (k : Config) (r : ChannelRegs) : Prop where
  dutyReg : IsDuty k r.dutyReg
  dutyAct : IsDuty k r.dutyAct
  pin : r.pin = .output ↔ r.mask = true

/-- The registers whose width is a parameter hold values of that width (rules R7, R39, R40, R45). -/
structure State.Fits (s : State) : Prop where
  now : s.now < 2 ^ s.cfg.tickW
  alarm : s.timer.alarm < 2 ^ s.cfg.tcntW
  cnt : s.timer.cnt < 2 ^ s.cfg.tcntW
  buf : s.wr.buf < 2 ^ s.cfg.addrW
  timeout : s.wr.timeout < 2 ^ s.cfg.tickW
  start : s.wr.start < 2 ^ s.cfg.tickW
  waitStart : s.wr.waitStart < 2 ^ s.cfg.tickW
  wait : ∀ w, s.wait = some w → w.start < 2 ^ s.cfg.tickW

/-- The invariant of the block: what rules R28 to R45, R166, R167 and R221 say of every state the machine reaches. -/
structure State.Inv (s : State) : Prop where
  /-- the parameters meet their constraints (R6). -/
  legal : s.cfg.Legal
  /-- R28. -/
  ring : ∀ r, s.rb = some r → r.Ok
  /-- R22: no ring is larger than `CAP_MAX`. -/
  capacity : ∀ r, s.rb = some r → r.size.toNat ≤ s.cfg.capMax
  /-- R7: no register outgrows its width. -/
  fits : s.Fits
  /-- R31: `handle = 1` exactly when `status != UNINITIALIZED`. -/
  handle : s.handle = decide (s.status ≠ .uninitialized)
  /-- R50: the parameter registers hold values exactly while the handle is set. -/
  params : s.params.isSome = s.handle
  /-- R32 to R38. -/
  paramsOk : ∀ p, s.params = some p → p.Ok s.cfg
  /-- R39: the timer is claimed exactly while the handle is set. -/
  claimed : s.timer.claimed = s.handle
  /-- R167: the timer counts exactly when `status = BUSY`. -/
  run : s.timer.run = decide (s.status = .busy)
  /-- R39: the interrupt is enabled exactly while the counter runs. -/
  inten : s.timer.inten = s.timer.run
  /-- R161, R166: the alarm value is that of the stored rate. -/
  alarm : ∀ p, s.params = some p → s.timer.alarm = alarmOf s.cfg p.rate
  /-- R166, U8: a drawn count lies in `1 .. 2^TCNT_W`. -/
  countdown : ∀ k, s.timer.countdown = some k → 1 ≤ k ∧ k ≤ 2 ^ s.cfg.tcntW
  /-- R37, R41 to R44. -/
  channels : ∀ c, (s.channel c).Ok s.cfg
  /-- R37: at least one channel is configured exactly while the handle is set. -/
  mask : (s.chan.left.mask || s.chan.right.mask) = s.handle
  /-- R210: a `WRITE` in flight stands on an initialised subsystem. -/
  write : writeInFlight s = true → s.status ≠ .uninitialized
  /-- R221: what is left of a chunk still fits the ring and the input. -/
  chunk : s.wr.phase = .chunk →
    ∃ r, s.rb = some r ∧ s.wr.chunk.toNat ≤ free r ∧ s.wr.chunk.toNat ≤ s.wr.remaining.toNat
  /-- the source buffer is canonical. -/
  source : s.source.bytes.wf
  /-- the same of the source buffers on the agenda. -/
  agenda : ∀ p k d b, .command p k d b ∈ s.agenda → b.bytes.wf

/-! ### What the outside sees, and what a step leaves alone -/

/-- The operation completes in the state `t` with the response `r0 r1 r2 r3`, its only event (rules R58, R102). -/
def Answers (i : Instr) (s t : State) (r0 r1 r2 r3 : Word) : Prop :=
  exec i s = .next t ∧ t.events = s.events ++ [.resp i.op r0 r1 r2 r3]

/-- Only the event history may differ. -/
def OnlyEvents (s t : State) : Prop := { t with events := s.events } = s

/-- Only the ring's registers and the event history may differ. -/
def OnlyRing (s t : State) : Prop := { t with events := s.events, rb := s.rb } = s

/-- The byte of ring cell `i`, while a ring exists: how claims read the ring memory. -/
def ringByte (s : State) (i : Nat) : Option Byte := s.rb.map fun r => r.cell i

/-- The operation writes bytes of the ring memory, or makes or releases a ring. -/
def touchesRingBytes : Instr → Bool
  | .init _ _ _ _ _ => true
  | .deinit => true
  | .writeNb _ _ => true
  | .rbCreate _ => true
  | .rbDestroy => true
  | .rbWrite _ => true
  | .setParam _ _ _ => false
  | .setRate _ => false
  | .setVol _ => false
  | .getVol => false
  | .start => false
  | .stop => false
  | .getStatus => false
  | .getParam => false
  | .write _ _ _ => false
  | .rbOccupied => false
  | .rbFree => false
  | .rbRead => false
  | .rbFlush => false
  | .rbSignal => false
  | .rbWait _ => false
  | .setDuty _ _ => false
  | .alarm => false
  | .latch _ => false

/-- How many of the operand words `A, B, C` an operation reads (R103). -/
def operandWords : Instr → Nat
  | .init _ _ _ _ _ => 3
  | .setParam _ _ _ => 3
  | .write _ _ _ => 3
  | .writeNb _ _ => 2
  | .setDuty _ _ => 2
  | .setRate _ => 1
  | .setVol _ => 1
  | .rbCreate _ => 1
  | .rbWrite _ => 1
  | .rbWait _ => 1
  | .latch _ => 1
  | .deinit => 0
  | .getVol => 0
  | .start => 0
  | .stop => 0
  | .getStatus => 0
  | .getParam => 0
  | .rbDestroy => 0
  | .rbOccupied => 0
  | .rbFree => 0
  | .rbRead => 0
  | .rbFlush => 0
  | .rbSignal => 0
  | .alarm => 0

/-- The answer of a step with its event history put after `es` (R58: no rule reads the history). -/
def prependEvents (es : List Event) : Result → Result
  | .next t => .next { t with events := es ++ t.events }
  | .fault f => .fault f
  | .refused r => .refused r

/-- The bytes of the source buffer from `addr` on, `n` of them, scaled with `volume` (rules R212, R218). -/
def scaledSource (s : State) (volume : Word) (addr : Nat) (n : Nat) : List Byte :=
  (List.range n).map fun k => scale s.cfg (memRead s (addr + k)) volume

/-- The next step is a command on port `p` whose operation has one of the numbers `ops`. -/
def NextCommand (s : State) (p : Port) (ops : List Byte) : Prop :=
  ∃ k d b rest i, s.agenda = .command p k d b :: rest ∧ decode k = .ok i ∧ i.op ∈ ops

/-- The next step may be a turn of the agent `g`: it is, or no input waits and the choice is free. -/
def MayTurn (s : State) (g : Agent) : Prop := (∃ rest, s.agenda = .turn g :: rest) ∨ s.agenda = []

/-- A reached alarm (R162): the counter reloads, and the handler runs in the same step when the interrupt is enabled. -/
def reloadAndServe (s : State) : Result :=
  if s.timer.inten then exec .alarm { s with timer := { s.timer with cnt := 0, countdown := none } }
  else .next { s with timer := { s.timer with cnt := 0, countdown := none } }

/-- `n` steps, stopping at the first fault or refusal. -/
def steps : Nat → State → Result
  | 0, s => .next s
  | n + 1, s =>
    match step s with
    | .next t => steps n t
    | .fault f => .fault f
    | .refused r => .refused r

end Sys2Proof.Machine
end

