-- ==== Sys2Proof/Certificates/Slice0/Obligations.lean ====
section
/-! DEFINITION. The statements about the block, for the provers. Codes and numbers are written out as the spec has them. -/

open Sys2Proof Sys2Proof.Machine

/-! ## Encoding -/

/-- R103 to R106: the encoder's words decode to the operation, every operand at every value. -/
def Obligations.DecodeOfEncodeIsIdentity : Prop :=
  ∀ i : Instr, decode (encode i) = .ok i

/-- R101, R104, R109, R110: four words are the operation `i` exactly when `W0` and the operand words `i` reads are those of
its encoding; unused words are ignored and everything else is refused. -/
def Obligations.CommandWordsHaveExactlyOneReading : Prop :=
  ∀ (k : Cmd) (i : Instr), decode k = .ok i ↔
    k.w0 = (encode i).w0 ∧
    (1 ≤ operandWords i → k.a = (encode i).a) ∧
    (2 ≤ operandWords i → k.b = (encode i).b) ∧
    (3 ≤ operandWords i → k.c = (encode i).c)

/-- Words of 95_test_vectors.md section 2.1, one of each family and the illegal ones. -/
def Obligations.WordsOfTheVectorFileDecode : Prop :=
  decode ⟨0x00000001, 0x00001000, 0x00000008, 0x0000FF19⟩ = .ok (.init 4096 8 0 25 0xFF) ∧
  decode ⟨0x00000001, 0x00000400, 0x0000010A, 0x00001A19⟩ = .ok (.init 1024 10 1 25 26) ∧
  decode ⟨0x00000003, 0x0000AC44, 0x00000010, 0x00000002⟩ = .ok (.setParam 44100 16 2) ∧
  decode ⟨0x00000010, 0x00001000, 0x00003E80, 0x000003E8⟩ = .ok (.write 0x1000 16000 1000) ∧
  decode ⟨0x00000025, 0x00000055, 0, 0⟩ = .ok (.rbWrite 0x55) ∧
  decode ⟨0x00000030, 0x00000001, 0x000000FF, 0⟩ = .ok (.setDuty .right 0xFF) ∧
  decode ⟨0x00000041, 0x00000001, 0, 0⟩ = .ok (.latch .right) ∧
  decode ⟨0x0000000B, 0, 0, 0⟩ = .error .reservedOp ∧
  decode ⟨0x00000107, 0, 0, 0⟩ = .error .zeroField ∧
  decode ⟨0x00000030, 0x00000002, 0x00000080, 0⟩ = .error .operandBits

/-! ## Ports, turns and the step -/

/-- R84, R100, R114: a command that decodes, on a port that may carry it and that is not busy, runs as its operation, with the
environment's draws for it and, where it reads one and no `WRITE` is in flight, the source buffer it brings (R72, R354). The
agenda it stands on is the model's (logs 4, 6, 11). -/
def Obligations.StepRunsTheArrivingCommand : Prop :=
  ∀ (s : State) (p : Port) (k : Cmd) (d : Draws) (b : SourceBuffer) (rest : List Input) (i : Instr),
    s.cfg.Legal → s.agenda = .command p k d b :: rest → decode k = .ok i → portAllows p i = true →
    (p = .data → dataPortBusy s = false) →
    step s = exec i { s with
      agenda := rest
      env := d
      source := if i.op ∈ ([0x10, 0x11] : List Byte) ∧ writeInFlight s = false then b else s.source }

/-- A table word placed for the next step is the operation that the next step runs (logs 4, 6). -/
def Obligations.PlacedTableWordRunsNext : Prop :=
  ∀ (s : State) (nbits w : Nat) (i : Instr),
    s.cfg.Legal → decodeTableWord nbits w = some i → dataPortBusy s = false →
    step (s.withFetchWord nbits w) = exec i { s with env := { allocOk := true, hwOk := true } }

/-- R109, R294: an illegal command is answered `BadCommand` and writes no register. The `op` of its response event is
`W0[7:0]` by the model's choice (log 20). -/
def Obligations.IllegalCommandIsAnsweredBadCommand : Prop :=
  ∀ (s : State) (p : Port) (k : Cmd) (d : Draws) (b : SourceBuffer) (rest : List Input),
    s.cfg.Legal → s.agenda = .command p k d b :: rest →
    (∀ i, decode k = .ok i → portAllows p i = false) →
    ∃ t, step s = .next t ∧ t.events = s.events ++ [.resp (k.w0.extractLsb' 0 8) 0xFF 0 0 0] ∧
      { t with events := s.events, agenda := s.agenda, env := s.env } = s

/-- R114: which port may carry which operation number. -/
def Obligations.PortsCarryTheOperationsOfTheirContext : Prop :=
  ∀ i : Instr,
    (portAllows .control i = true ↔
      i.op ∈ ([0x01, 0x02, 0x03, 0x04, 0x05, 0x06, 0x07, 0x08, 0x09, 0x0A, 0x20, 0x21, 0x26, 0x22, 0x23] : List Byte)) ∧
    (portAllows .data i = true ↔ i.op ∈ ([0x10, 0x11, 0x25, 0x28, 0x22, 0x23] : List Byte)) ∧
    (portAllows .interrupt i = true ↔ i.op ∈ ([0x24, 0x27, 0x30, 0x22, 0x23, 0x11] : List Byte)) ∧
    (portAllows .event i = true ↔ i.op ∈ ([0x40, 0x41] : List Byte))

/-- R10, R84, R162, R193, R217: a turn is one step of its agent; without an input the scheduler's choice is some agent. The
agenda and the free choice are the model's (logs 4, 5). -/
def Obligations.AgentsTakeTheirTurns : Prop :=
  ∀ s : State, s.cfg.Legal →
    (∀ rest, s.agenda = .turn .tick :: rest → step s = .next { s with agenda := rest, now := (s.now + 1) % 2 ^ s.cfg.tickW }) ∧
    (∀ rest, s.agenda = .turn .timer :: rest → step s = countStep { s with agenda := rest }) ∧
    (∀ rest, s.agenda = .turn .prod :: rest → step s = prodStep { s with agenda := rest }) ∧
    (∀ c rest, s.agenda = .turn (.pwm c) :: rest → step s = exec (.latch c) { s with agenda := rest }) ∧
    (s.agenda = [] → ∃ a, step s = turnOf a { s with draws := s.draws + 1 })

/-- R100 (log 19): while a `WRITE` or a directly driven `RB_WAIT` is in flight the data port takes no second command: a legal
one is the fault `dataPortBusy`. U7: an illegal configuration is refused. -/
def Obligations.BusyDataPortAndIllegalConfigurationStop : Prop :=
  (∀ (s : State) (k : Cmd) (d : Draws) (b : SourceBuffer) (rest : List Input) (i : Instr),
    s.cfg.Legal → s.agenda = .command .data k d b :: rest → decode k = .ok i → portAllows .data i = true →
    dataPortBusy s = true → step s = .fault .dataPortBusy) ∧
  (∀ s : State, ¬ s.cfg.Legal → step s = .refused .illegalConfig)

/-! ## Ring buffer -/

/-- R130: `RB_CREATE` with no ring and a quiet consumer. No cell is written: the contents are free bytes (log 10). That a
capacity above `CAP_MAX` is answered `AllocFailed` (log 2) and that a `WRITE` in flight is no hindrance (log 34) are the
model's choices. -/
def Obligations.RbCreateMakesAnEmptyRingOrFails : Prop :=
  ∀ (s : State) (capacity : Word), consumerActive s = false → s.rb = none →
    (capacity.toNat < 1024 ∨ s.cfg.capMax < capacity.toNat ∨ s.env.allocOk = false →
      ∃ t, Answers (.rbCreate capacity) s t 5 0 0 0 ∧ OnlyEvents s t) ∧
    (1024 ≤ capacity.toNat → capacity.toNat ≤ s.cfg.capMax → s.env.allocOk = true →
      ∃ t r, Answers (.rbCreate capacity) s t 0 0 0 0 ∧ t.rb = some r ∧
        r.size = capacity ∧ r.head = 0 ∧ r.tail = 0 ∧ r.pending = false ∧ r.sem = false ∧
        (∀ a, r.mem.read a = none) ∧
        { t with events := s.events, rb := none, draws := s.draws } = s)

/-- R131: `RB_DESTROY` while neither side is active (log 16); without a ring a no-op that answers `OK`. That it completes with
a directly driven `RB_WAIT` in flight, which stays, is the model's choice (log 32), and so are the premises where there is no
ring (log 35). -/
def Obligations.RbDestroyLeavesNoRing : Prop :=
  ∀ s : State, consumerActive s = false → writeInFlight s = false →
    ∃ t, Answers .rbDestroy s t 0 0 0 0 ∧ t.rb = none ∧ OnlyRing s t

/-- R28, R132, R133: the two counts are `head - tail` modulo `size` and `size - occupied - 1`, and change nothing. -/
def Obligations.OccupancyQueriesAnswerTheModularDifference : Prop :=
  ∀ (s : State) (r : RingBuffer), s.rb = some r → r.Ok →
    ∃ t u, Answers .rbOccupied s t 0 (toWord ((r.head.toNat + r.size.toNat - r.tail.toNat) % r.size.toNat)) 0 0 ∧
      OnlyEvents s t ∧
      Answers .rbFree s u 0
        (toWord (r.size.toNat - (r.head.toNat + r.size.toNat - r.tail.toNat) % r.size.toNat - 1)) 0 0 ∧
      OnlyEvents s u

/-- R134: `RB_READ` driven directly while the timer is stopped. -/
def Obligations.RbReadPopsTheByteAtTailOrAnswersEmpty : Prop :=
  ∀ (s : State) (r : RingBuffer), s.timer.run = false → s.rb = some r → r.Ok →
    (r.head = r.tail → ∃ t, Answers .rbRead s t 7 0 0 0 ∧ OnlyEvents s t) ∧
    (r.head ≠ r.tail → ∃ t r', Answers .rbRead s t 0 ((r.cell r.tail.toNat).setWidth 32) 0 0 ∧ OnlyRing s t ∧
      t.rb = some r' ∧ { r' with tail := r.tail } = r ∧
      r'.tail.toNat = if r.tail.toNat + 1 = r.size.toNat then 0 else r.tail.toNat + 1)

/-- R135: `RB_WRITE` driven directly with no `WRITE` in flight: the byte goes to `head`, every other cell reads as before;
a full ring is left alone. -/
def Obligations.RbWriteStoresAtHeadOrAnswersFull : Prop :=
  ∀ (s : State) (r : RingBuffer) (b : Byte), writeInFlight s = false → s.rb = some r → r.Ok →
    ((r.head.toNat + 1) % r.size.toNat = r.tail.toNat →
      ∃ t, Answers (.rbWrite b) s t 8 0 0 0 ∧ OnlyEvents s t) ∧
    ((r.head.toNat + 1) % r.size.toNat ≠ r.tail.toNat →
      ∃ t r', Answers (.rbWrite b) s t 0 0 0 0 ∧ OnlyRing s t ∧ t.rb = some r' ∧
        { r' with head := r.head, mem := r.mem } = r ∧
        r'.head.toNat = (r.head.toNat + 1) % r.size.toNat ∧
        r'.cell r.head.toNat = b ∧ ∀ j, j ≠ r.head.toNat → r'.cell j = r.cell j)

/-- R136: `RB_FLUSH` with both sides quiet: both cursors 0, occupancy 0, every byte and both flags as before. -/
def Obligations.RbFlushZeroesBothCursors : Prop :=
  ∀ (s : State) (r : RingBuffer), consumerActive s = false → writeInFlight s = false → s.rb = some r →
    ∃ t r', Answers .rbFlush s t 0 0 0 0 ∧ OnlyRing s t ∧ t.rb = some r' ∧
      r'.head = 0 ∧ r'.tail = 0 ∧ occupied r' = 0 ∧ { r' with head := r.head, tail := r.tail } = r

/-- R137, R49: `RB_SIGNAL` posts exactly when the free space exceeds the watermark and no signal is pending; the post asks
for a context switch exactly when `PROD` is blocked in the take (logs 13, 14). -/
def Obligations.RbSignalPostsAboveTheWatermark : Prop :=
  ∀ (s : State) (r : RingBuffer), s.rb = some r →
    (s.cfg.watermark < free r ∧ r.pending = false →
      ∃ t y, exec .rbSignal s = .next t ∧ t.events = s.events ++ [.post y, .resp 0x27 0 1 0 0] ∧
        (y = true ↔ r.sem = false ∧ (s.wr.phase = .waitTake ∨ ∃ w, s.wait = some w ∧ w.atTake = true)) ∧
        t.rb = some { r with pending := true, sem := true } ∧ OnlyRing s t) ∧
    (free r ≤ s.cfg.watermark ∨ r.pending = true →
      ∃ t, Answers .rbSignal s t 0 0 0 0 ∧ OnlyEvents s t)

/-- R138, R91: a directly driven `RB_WAIT` clears `pending` and notes the tick; in its second step a post wins, then the
timeout, and otherwise `PROD` is blocked with no register changed. The ticks are compared with the
operand itself, whatever `TICK_W` is. The fields of `wait` are the model's (log 13). -/
def Obligations.RbWaitClearsThenTakesOrTimesOut : Prop :=
  (∀ (s : State) (r : RingBuffer) (timeout : Word), s.rb = some r →
    ∃ t, exec (.rbWait timeout) s = .next t ∧ t.events = s.events ∧ t.rb = some { r with pending := false } ∧
      t.wait = some { timeout := timeout, start := s.now, atTake := false } ∧ { t with rb := s.rb, wait := s.wait } = s) ∧
  (∀ (s : State) (r : RingBuffer) (w : DirectWait), s.wr.phase = .none → s.wait = some w → s.rb = some r →
    (r.sem = true → ∃ t, prodStep s = .next t ∧ t.events = s.events ++ [.resp 0x28 0 0 0 0] ∧
      t.rb = some { r with sem := false } ∧ t.wait = none ∧ { t with events := s.events, rb := s.rb, wait := s.wait } = s) ∧
    (r.sem = false → (w.timeout.toNat : Int) ≤ ((s.now : Int) - w.start) % 2 ^ s.cfg.tickW →
      ∃ t, prodStep s = .next t ∧ t.events = s.events ++ [.resp 0x28 9 0 0 0] ∧ t.wait = none ∧
        { t with events := s.events, wait := s.wait } = s) ∧
    (r.sem = false → ((s.now : Int) - w.start) % 2 ^ s.cfg.tickW < (w.timeout.toNat : Int) →
      prodStep s = .next { s with wait := some { w with atTake := true } }))

/-- R89, R140 law 1: what `RB_WRITE` puts in comes last in the queue, and `RB_READ` answers the oldest byte and leaves the
rest of the queue in order. -/
def Obligations.RingIsAFirstInFirstOutQueue : Prop :=
  ∀ (s : State) (r : RingBuffer), s.rb = some r → r.Ok →
    (∀ b t, writeInFlight s = false → Answers (.rbWrite b) s t 0 0 0 0 →
      ∃ r', t.rb = some r' ∧ r'.contents = r.contents ++ [b]) ∧
    (∀ b rest, s.timer.run = false → r.contents = b :: rest →
      ∃ t r', Answers .rbRead s t 0 (b.setWidth 32) 0 0 ∧ t.rb = some r' ∧ r'.contents = rest)

/-- R28, R140 law 2: a ring holds at most `size - 1` bytes, occupied and free add up to `size - 1`, and a write is answered
`Full` exactly when it holds that many. -/
def Obligations.RingHoldsAtMostSizeMinusOneBytes : Prop :=
  ∀ (s : State) (r : RingBuffer) (b : Byte), writeInFlight s = false → s.rb = some r → r.Ok →
    r.contents.length ≤ r.size.toNat - 1 ∧ r.contents.length + free r = r.size.toNat - 1 ∧
    ((∃ t, Answers (.rbWrite b) s t 8 0 0 0) ↔ r.contents.length = r.size.toNat - 1) ∧
    ((∃ t, Answers (.rbWrite b) s t 0 0 0 0) ↔ r.contents.length < r.size.toNat - 1)

/-! ## Sample clock -/

/-- R163: the alarm handler without a handle, with a byte, and on an empty ring; `RB_SIGNAL` always follows. The
context-switch bit `y` is the model's reading (logs 13, 14). -/
def Obligations.AlarmServesExactlyOneByte : Prop :=
  ∀ s : State,
    (s.handle = false → exec .alarm s = .next { s with events := s.events ++ [.alarm .noHandle] }) ∧
    (∀ r, s.handle = true → s.rb = some r → r.Ok → r.head ≠ r.tail →
      ∃ t r' y, exec .alarm s = .next t ∧ t.rb = some r' ∧
        r'.tail.toNat = (r.tail.toNat + 1) % r.size.toNat ∧
        { r' with tail := r.tail, pending := r.pending, sem := r.sem } = r ∧
        t.channel s.cfg.primaryCh = { s.channel s.cfg.primaryCh with
          dutyReg := dutyOf s.cfg (r.cell r.tail.toNat), upd := true, outEn := true } ∧
        (∀ c, c ≠ s.cfg.primaryCh → t.channel c = s.channel c) ∧
        { t with events := s.events, rb := s.rb, chan := s.chan } = s ∧
        (s.cfg.watermark < free r + 1 ∧ r.pending = false →
          r'.pending = true ∧ r'.sem = true ∧
          (y = true ↔ r.sem = false ∧ (s.wr.phase = .waitTake ∨ ∃ w, s.wait = some w ∧ w.atTake = true)) ∧
          t.events = s.events ++ [.duty s.cfg.primaryCh (dutyOf s.cfg (r.cell r.tail.toNat)),
            .alarm (.byte (r.cell r.tail.toNat)), .post y]) ∧
        (free r + 1 ≤ s.cfg.watermark ∨ r.pending = true →
          r'.pending = r.pending ∧ r'.sem = r.sem ∧
          t.events = s.events ++ [.duty s.cfg.primaryCh (dutyOf s.cfg (r.cell r.tail.toNat)),
            .alarm (.byte (r.cell r.tail.toNat))])) ∧
    (∀ r, s.handle = true → s.rb = some r → r.head = r.tail →
      ∃ t, exec .alarm s = .next t ∧ OnlyRing s t ∧
        (s.cfg.watermark < free r ∧ r.pending = false →
          t.rb = some { r with pending := true, sem := true } ∧
          ∃ y : Bool, (y = true ↔ r.sem = false ∧ (s.wr.phase = .waitTake ∨ ∃ w, s.wait = some w ∧ w.atTake = true)) ∧
            t.events = s.events ++ [.alarm .underrun, .post y]) ∧
        (free r ≤ s.cfg.watermark ∨ r.pending = true →
          t.rb = some r ∧ t.events = s.events ++ [.alarm .underrun]))

/-- R164: an underrun changes no duty register, no control bit, no applied duty and no cursor, and emits no `Duty` event. -/
def Obligations.UnderrunHoldsTheLastDuty : Prop :=
  ∀ (s : State) (r : RingBuffer), s.handle = true → s.rb = some r → r.head = r.tail →
    ∃ t r', exec .alarm s = .next t ∧ t.chan = s.chan ∧ t.rb = some r' ∧
      r'.head = r.head ∧ r'.tail = r.tail ∧
      ∃ es, t.events = s.events ++ es ∧ .alarm .underrun ∈ es ∧ ∀ c v, .duty c v ∉ es

/-- R191: the handler leaves every register of the channel that is not the primary one as it was. -/
def Obligations.AlarmNeverTouchesTheOtherChannel : Prop :=
  ∀ (s t : State) (c : Channel), c ≠ s.cfg.primaryCh → exec .alarm s = .next t → t.channel c = s.channel c

/-- R162: below an alarm value that fits its register `n` counts only count; the count that reaches it reloads and runs the
handler in the same step when the interrupt is enabled; a timer that is not claimed or does not run has no count step (a turn
of it changes nothing, log 5). -/
def Obligations.AlarmComesAfterExactlyItsCount : Prop :=
  (∀ (n : Nat) (s : State) (rest : List Input), s.cfg.Legal → timerCounts s.timer = true → s.timer.countdown = none →
    s.agenda = List.replicate n (.turn .timer) ++ rest → s.timer.cnt + n < s.timer.alarm →
    s.timer.alarm < 2 ^ s.cfg.tcntW →
    steps n s = .next { s with agenda := rest, timer := { s.timer with cnt := s.timer.cnt + n } }) ∧
  (∀ (s : State) (rest : List Input), s.cfg.Legal → timerCounts s.timer = true → s.timer.countdown = none →
    s.agenda = .turn .timer :: rest → s.timer.cnt + 1 = s.timer.alarm → s.timer.alarm < 2 ^ s.cfg.tcntW →
    step s = if s.timer.inten then exec .alarm { s with agenda := rest, timer := { s.timer with cnt := 0 } }
      else .next { s with agenda := rest, timer := { s.timer with cnt := 0 } }) ∧
  (∀ s : State, s.timer.claimed = false ∨ s.timer.run = false → countStep s = .next s)

/-- R166, U8: with the alarm value at or below the count, the next alarm comes after exactly some number `n` of counts in
`1 .. 2^TCNT_W`, and no fewer counts do more than count; a number once drawn is kept (the second clause; its field
`countdown` is the model's, log 12). -/
def Obligations.CountPastTheAlarmIsADraw : Prop :=
  (∀ s : State, s.cfg.Legal → timerCounts s.timer = true → s.timer.countdown = none → s.timer.alarm ≤ s.timer.cnt →
    ∃ n, 1 ≤ n ∧ n ≤ 2 ^ s.cfg.tcntW ∧
      (∀ rest, steps n { s with agenda := List.replicate n (.turn .timer) ++ rest } =
        reloadAndServe { s with agenda := rest, draws := s.draws + 1 }) ∧
      ∀ m rest, 0 < m → m < n → steps m { s with agenda := List.replicate m (.turn .timer) ++ rest } = .next { s with
        agenda := rest
        draws := s.draws + 1
        timer := { s.timer with cnt := (s.timer.cnt + m) % 2 ^ s.cfg.tcntW, countdown := some (n - m) } }) ∧
  (∀ (s : State) (n : Nat) (rest : List Input), s.cfg.Legal → timerCounts s.timer = true →
    s.timer.countdown = some n → 1 ≤ n → s.agenda = List.replicate n (.turn .timer) ++ rest →
    steps n s = reloadAndServe { s with agenda := rest })

/-- R161, U7: for every legal configuration and every legal rate the alarm value, where it fits the `TCNT_W` bits of its
register, is the formula's and is not 0; where it does not fit the register holds a free value of that width (log 3), which
may be 0. -/
def Obligations.AlarmValueThatFitsIsTheFormulas : Prop :=
  ∀ (k : Config) (rate : Word), k.Legal → 8000 ≤ rate.toNat → rate.toNat ≤ 48000 →
    alarmOf k rate < 2 ^ k.tcntW ∧
    (k.timerBaseClock / k.timerDivider / rate.toNat < 2 ^ k.tcntW →
      alarmOf k rate = k.timerBaseClock / k.timerDivider / rate.toNat ∧ 0 < alarmOf k rate)

/-! ## Duty driver -/

/-- R190: `SET_DUTY` writes the shifted sample, sets both control bits of its channel, and leaves the other channel and
everything else alone. -/
def Obligations.SetDutyWritesTheShiftedSample : Prop :=
  ∀ (s : State) (c : Channel) (v : Byte), s.cfg.Legal →
    ∃ t d, exec (.setDuty c v) s = .next t ∧ d.toNat = v.toNat * 2 ^ s.cfg.dutyFracBits ∧
      t.events = s.events ++ [.duty c d, .resp 0x30 0 0 0 0] ∧
      t.channel c = { s.channel c with dutyReg := d, upd := true, outEn := true } ∧
      (∀ c', c' ≠ c → t.channel c' = s.channel c') ∧ { t with events := s.events, chan := s.chan } = s

/-- R193: at a carrier boundary of a configured channel a waiting duty value is applied and the request cleared; with no
request, and on a channel that has no boundary (log 21), nothing changes. -/
def Obligations.LatchAppliesAWaitingDuty : Prop :=
  ∀ (s : State) (c : Channel),
    ((s.channel c).mask = true → (s.channel c).upd = true →
      ∃ t, exec (.latch c) s = .next t ∧ t.events = s.events ++ [.latch c (s.channel c).dutyReg] ∧
        t.channel c = { s.channel c with dutyAct := (s.channel c).dutyReg, upd := false } ∧
        (∀ c', c' ≠ c → t.channel c' = s.channel c') ∧ { t with events := s.events, chan := s.chan } = s) ∧
    ((s.channel c).mask = false ∨ (s.channel c).upd = false → exec (.latch c) s = .next s)

/-- R194, R224 (5): after `SET_DUTY c v` and the latch of a configured output channel the pin is high for `v` counts of
`2^resolution` in each carrier cycle. The pin is the model's view (log 30). -/
def Obligations.LatchedSampleDrivesThePin : Prop :=
  ∀ (s t u : State) (c : Channel) (v : Byte) (p : Params), s.cfg.Legal → s.params = some p →
    (s.channel c).mask = true → (s.channel c).pin = .output →
    exec (.setDuty c v) s = .next t → exec (.latch c) t = .next u →
    pinDrive u c = .pwm v.toNat (2 ^ p.resolution.toNat)

/-! ## Producer write path -/

/-- R210: the entry step of `WRITE`, its two errors in order, and the registers it writes. The range test comes after the
errors (log 26); a timeout that does not fit `TICK_W` bits is a free value (log 3). -/
def Obligations.WriteEntryTestsThenStartsTheSequencer : Prop :=
  ∀ (s : State) (buf length timeout : Word), writeInFlight s = false →
    (s.status = .uninitialized →
      ∃ t, Answers (.write buf length timeout) s t 1 0 0 0 ∧ OnlyEvents s t) ∧
    (s.status ≠ .uninitialized → buf = 0 ∨ length = 0 →
      ∃ t, Answers (.write buf length timeout) s t 4 0 0 0 ∧ OnlyEvents s t) ∧
    (s.status ≠ .uninitialized → buf ≠ 0 → length ≠ 0 → buf.toNat + length.toNat ≤ 2 ^ s.cfg.addrW →
      ∃ w : Nat, w < 2 ^ s.cfg.tickW ∧ (timeout.toNat < 2 ^ s.cfg.tickW → w = timeout.toNat) ∧
        exec (.write buf length timeout) s = .next { s with wr := { s.wr with
          phase := .waitClear, buf := buf.toNat, remaining := length, written := 0, timeout := w, start := s.now } })

/-- R79, U6: a source range past the top of the source space is refused, after the error tests (log 26). -/
def Obligations.WrappingSourceRangeIsRefused : Prop :=
  ∀ (s : State) (buf length timeout : Word), writeInFlight s = false → s.status ≠ .uninitialized →
    buf ≠ 0 → length ≠ 0 → 2 ^ s.cfg.addrW < buf.toNat + length.toNat →
    exec (.write buf length timeout) s = .refused .sourceRangeWraps ∧
    exec (.writeNb buf length) s = .refused .sourceRangeWraps

/-- R213, R214: the two wait phases of a `WRITE` in flight. A turn of a blocked agent changes nothing (log 5). -/
def Obligations.WaitPhasesTakeThePostOrTimeOut : Prop :=
  (∀ (s : State) (r : RingBuffer), s.wr.phase = .waitClear → s.rb = some r →
    prodStep s = .next { s with
      rb := some { r with pending := false }, wr := { s.wr with waitStart := s.now, phase := .waitTake } }) ∧
  (∀ (s : State) (r : RingBuffer), s.wr.phase = .waitTake → s.rb = some r →
    (r.sem = true → ∃ t n, prodStep s = .next t ∧ t.rb = some { r with sem := false } ∧ t.events = s.events ∧
      t.wr = { s.wr with chunk := n, phase := .chunk } ∧ n.toNat = min s.wr.remaining.toNat (free r) ∧
      { t with rb := s.rb, wr := s.wr } = s) ∧
    (r.sem = false → (s.wr.timeout : Int) ≤ ((s.now : Int) - s.wr.waitStart) % 2 ^ s.cfg.tickW →
      ∃ t, prodStep s = .next t ∧ t.events = s.events ++ [.resp 0x10 0 s.wr.written 1 0] ∧
        t.wr = { s.wr with phase := .none } ∧ { t with events := s.events, wr := s.wr } = s) ∧
    (r.sem = false → ((s.now : Int) - s.wr.waitStart) % 2 ^ s.cfg.tickW < (s.wr.timeout : Int) → prodStep s = .next s))

/-- R215: one step of phase `CHUNK` appends one scaled source byte to the queue and moves the sequencer by one; an
exhausted chunk goes to `CHECK`. After the byte at the last address `wr.buf` is 0 (log 33). -/
def Obligations.ChunkStepQueuesOneScaledByte : Prop :=
  ∀ s : State, s.wr.phase = .chunk →
    (s.wr.chunk = 0 → prodStep s = .next { s with wr := { s.wr with phase := .check } }) ∧
    (∀ r p, s.wr.chunk ≠ 0 → s.rb = some r → s.params = some p → r.Ok → 0 < free r →
      ∃ t r', prodStep s = .next t ∧ t.rb = some r' ∧ t.events = s.events ∧
        r'.contents = r.contents ++ [scale s.cfg (memRead s s.wr.buf) p.volume] ∧
        { r' with head := r.head, mem := r.mem } = r ∧ (∀ j, j ≠ r.head.toNat → r'.cell j = r.cell j) ∧
        t.wr = { s.wr with
          buf := (s.wr.buf + 1) % 2 ^ s.cfg.addrW, remaining := s.wr.remaining - 1, written := s.wr.written + 1,
          chunk := s.wr.chunk - 1 } ∧
        { t with rb := s.rb, wr := s.wr } = s)

/-- R216: phase `CHECK`. -/
def Obligations.CheckEndsTheWriteOrWaitsAgain : Prop :=
  ∀ s : State, s.wr.phase = .check →
    (s.wr.remaining = 0 → ∃ t, prodStep s = .next t ∧ t.events = s.events ++ [.resp 0x10 0 s.wr.written 0 0] ∧
      t.wr = { s.wr with phase := .none } ∧ { t with events := s.events, wr := s.wr } = s) ∧
    (s.wr.remaining ≠ 0 → (s.wr.timeout : Int) < ((s.now : Int) - s.wr.start) % 2 ^ s.cfg.tickW →
      ∃ t, prodStep s = .next t ∧ t.events = s.events ++ [.resp 0x10 0 s.wr.written 1 0] ∧
        t.wr = { s.wr with phase := .none } ∧ { t with events := s.events, wr := s.wr } = s) ∧
    (s.wr.remaining ≠ 0 → ((s.now : Int) - s.wr.start) % 2 ^ s.cfg.tickW ≤ (s.wr.timeout : Int) →
      prodStep s = .next { s with wr := { s.wr with phase := .waitClear } })

/-- R212, X5: the scaled byte is the formula's; at the 0 dB reference it is the sample, at the minimum it is 0, and up to
0 dB it is monotonic in the volume and does not wrap. The wrap above it is the spec's D26 (log 25). -/
def Obligations.VolumeScalingIsLinearUpToZeroDecibel : Prop :=
  ∀ (k : Config) (b : Byte) (vol vol' : Word), k.Legal →
    (scale k b vol).toNat = b.toNat * vol.toNat / k.fsv % 256 ∧
    scale k b (toWord k.fsv) = b ∧ scale k b 0 = 0 ∧
    (vol.toNat ≤ vol'.toNat → vol'.toNat ≤ k.fsv →
      (scale k b vol).toNat ≤ (scale k b vol').toNat ∧ (scale k b vol).toNat = b.toNat * vol.toNat / k.fsv)

/-- R218: `WRITE_NB` appends the first `min(length, free)` source bytes, scaled, to the queue and answers how many; it
changes no flag of the ring, no clock, no sequencer and no other cell of the ring. A null buffer or a zero length is answered
`InvalidArgument`. What the rule says of scaling and result is the spec's decision D28 (log 31). -/
def Obligations.WriteNbQueuesWhatFits : Prop :=
  (∀ (s : State) (buf length : Word), writeInFlight s = false → s.status ≠ .uninitialized → buf = 0 ∨ length = 0 →
    ∃ t, Answers (.writeNb buf length) s t 4 0 0 0 ∧ OnlyEvents s t) ∧
  ∀ (s : State) (r : RingBuffer) (p : Params) (buf length : Word), writeInFlight s = false →
    s.status ≠ .uninitialized → buf ≠ 0 → length ≠ 0 → buf.toNat + length.toNat ≤ 2 ^ s.cfg.addrW →
    s.rb = some r → s.params = some p → r.Ok →
    ∃ t r', Answers (.writeNb buf length) s t 0 (toWord (min length.toNat (free r))) 0 0 ∧ OnlyRing s t ∧
      t.rb = some r' ∧ { r' with head := r.head, mem := r.mem } = r ∧
      r'.contents = r.contents ++ scaledSource s p.volume buf.toNat (min length.toNat (free r)) ∧
      ∀ j, (∀ k, k < min length.toNat (free r) → j ≠ (r.head.toNat + k) % r.size.toNat) → r'.cell j = r.cell j

/-- R223, R222: a `WRITE` that nothing posts ends after exactly its timeout, however empty the ring is: nothing was written,
and the response says so. It is stated of one schedule on the model's agenda (log 4): the entry, one turn of `PROD`, as many
ticks as the timeout, one turn of `PROD`. -/
def Obligations.WriteThatNothingPostsTimesOut : Prop :=
  ∀ (s : State) (r : RingBuffer) (buf length : Word) (n : Nat) (d : Draws) (b : SourceBuffer) (rest : List Input),
    s.cfg.Legal → s.status ≠ .uninitialized → dataPortBusy s = false → s.rb = some r → r.sem = false →
    buf ≠ 0 → length ≠ 0 → buf.toNat + length.toNat ≤ 2 ^ s.cfg.addrW → n < 2 ^ 32 → n < 2 ^ s.cfg.tickW →
    s.now < 2 ^ s.cfg.tickW →
    s.agenda = .command .data ⟨0x10, buf, length, toWord n⟩ d b :: .turn .prod ::
      (List.replicate n (.turn .tick) ++ .turn .prod :: rest) →
    ∃ t, steps (n + 3) s = .next t ∧ t.events = s.events ++ [.resp 0x10 0 0 1 0] ∧
      t.now = (s.now + n) % 2 ^ s.cfg.tickW ∧
      t.wr.phase = .none ∧ t.rb = some { r with pending := false } ∧ t.source = b ∧
      { t with
        events := s.events, agenda := s.agenda, env := s.env, now := s.now, wr := s.wr, rb := s.rb, source := s.source } = s

/-- R221: in a state that meets the invariant no step meets `Full` inside a chunk or inside `WRITE_NB`. -/
def Obligations.NoChunkEverMeetsAFullRing : Prop :=
  ∀ s : State, s.Inv → step s ≠ .fault .fullInChunk

/-! ## Lifecycle -/

/-- R240, R332: a successful `INIT`; a channel without a GPIO has its power-on registers (log 22). The carrier is that of R38
where it fits its 32 bits (log 3). -/
def Obligations.InitBuildsTheIdleState : Prop :=
  ∀ (s : State) (len : Word) (res sel gl gr : Byte), s.status = .uninitialized → s.rb = none →
    8 ≤ res.toNat → res.toNat ≤ 10 → 1024 ≤ len.toNat → len.toNat ≤ s.cfg.capMax →
    s.env.allocOk = true → s.env.hwOk = true →
    gl ≠ s.cfg.gpioNone ∨ gr ≠ s.cfg.gpioNone →
    ∃ t r p, Answers (.init len res sel gl gr) s t 0 0 0 0 ∧ t.status = .idle ∧ t.handle = true ∧
      t.rb = some r ∧ r.size = len ∧ r.head = 0 ∧ r.tail = 0 ∧ r.pending = false ∧ r.sem = false ∧ r.mem = [] ∧
      t.params = some p ∧ p.rate = 16000 ∧ p.bits = 8 ∧ p.channels = 2 ∧ p.volume = toWord s.cfg.fsv ∧
      p.resolution.toNat = res.toNat ∧ p.timerSel = sel ∧ p.gpio = { left := gl, right := gr } ∧
      (s.cfg.pwmBaseClock / 2 ^ res.toNat - s.cfg.pwmBaseClock / 2 ^ res.toNat % 1000 < 2 ^ 32 →
        p.carrierHz.toNat = s.cfg.pwmBaseClock / 2 ^ res.toNat - s.cfg.pwmBaseClock / 2 ^ res.toNat % 1000) ∧
      t.timer.claimed = true ∧ t.timer.alarm = alarmOf s.cfg 16000 ∧ t.timer.cnt = 0 ∧ t.timer.run = false ∧
      t.timer.inten = false ∧
      (∀ c, ((t.channel c).mask = true ↔ PerChannel.get p.gpio c ≠ s.cfg.gpioNone) ∧
        ((t.channel c).mask = true → (t.channel c).pin = .output ∧ (t.channel c).outEn = true ∧
          (t.channel c).dutyReg = 0 ∧ (t.channel c).dutyAct = 0 ∧ (t.channel c).upd = false) ∧
        ((t.channel c).mask = false → t.channel c = ChannelRegs.reset)) ∧
      { t with
        events := s.events, status := s.status, handle := s.handle, params := s.params, rb := s.rb, timer := s.timer,
        chan := s.chan, draws := s.draws } = s

/-- R240, R241, R295: every failing `INIT` answers the first error that applies and leaves every register as it was. The order
of the errors is the spec's decision D25 and the rollback after the last two its D29 (log 31); `CAP_MAX` is log 2. An `INIT`
while a ring exists is in `HazardsAreFaults`. -/
def Obligations.FailedInitChangesNothing : Prop :=
  ∀ (s : State) (len : Word) (res sel gl gr : Byte),
    (s.status ≠ .uninitialized → ∃ t, Answers (.init len res sel gl gr) s t 2 0 0 0 ∧ OnlyEvents s t) ∧
    (s.status = .uninitialized → (res.toNat < 8 ∨ 10 < res.toNat) →
      ∃ t, Answers (.init len res sel gl gr) s t 4 0 0 0 ∧ OnlyEvents s t) ∧
    (s.status = .uninitialized → s.rb = none → 8 ≤ res.toNat → res.toNat ≤ 10 →
      (len.toNat < 1024 ∨ s.cfg.capMax < len.toNat ∨ s.env.allocOk = false →
        ∃ t, Answers (.init len res sel gl gr) s t 5 0 0 0 ∧ OnlyEvents s t) ∧
      (1024 ≤ len.toNat → len.toNat ≤ s.cfg.capMax → s.env.allocOk = true →
        (gl = s.cfg.gpioNone → gr = s.cfg.gpioNone →
          ∃ t, Answers (.init len res sel gl gr) s t 4 0 0 0 ∧ OnlyEvents s t) ∧
        (gl ≠ s.cfg.gpioNone ∨ gr ≠ s.cfg.gpioNone → s.env.hwOk = false →
          ∃ t, Answers (.init len res sel gl gr) s t 6 0 0 0 ∧ OnlyEvents s t)))

/-- R242, R196, R330 (logs 8, 22): `DEINIT` with no `WRITE` in flight: a no-op when nothing exists; else every register but
`now` and the history is as at power-on. The model's own fields and the environment's data stay, a directly driven `RB_WAIT`
among them (log 32). -/
def Obligations.DeinitReturnsToPowerOn : Prop :=
  ∀ s : State, writeInFlight s = false →
    (s.status = .uninitialized → ∃ t, Answers .deinit s t 0 0 0 0 ∧ OnlyEvents s t) ∧
    (s.status ≠ .uninitialized → ∃ t, Answers .deinit s t 0 0 0 0 ∧
      t.status = .uninitialized ∧ t.handle = false ∧ t.params = none ∧ t.rb = none ∧ t.timer = Timer.reset ∧
      t.wr = WriteSeq.reset ∧ (∀ c, t.channel c = ChannelRegs.reset) ∧
      { t with
        events := s.events, status := s.status, handle := s.handle, params := s.params, rb := s.rb, timer := s.timer,
        chan := s.chan, wr := s.wr } = s)

/-- R243, R295: `SET_PARAM` in every status. -/
def Obligations.SetParamOnlyWhileIdle : Prop :=
  ∀ (s : State) (rate bits channels : Word),
    (s.status = .uninitialized → ∃ t, Answers (.setParam rate bits channels) s t 1 0 0 0 ∧ OnlyEvents s t) ∧
    (s.status = .busy → ∃ t, Answers (.setParam rate bits channels) s t 3 0 0 0 ∧ OnlyEvents s t) ∧
    (s.status = .idle →
      (rate.toNat < 8000 ∨ 48000 < rate.toNat ∨ (bits ≠ 8 ∧ bits ≠ 16 ∧ bits ≠ 32) ∨ (channels ≠ 1 ∧ channels ≠ 2) →
        ∃ t, Answers (.setParam rate bits channels) s t 4 0 0 0 ∧ OnlyEvents s t) ∧
      (∀ p, s.params = some p → 8000 ≤ rate.toNat → rate.toNat ≤ 48000 → (bits = 8 ∨ bits = 16 ∨ bits = 32) →
        (channels = 1 ∨ channels = 2) →
        ∃ t, Answers (.setParam rate bits channels) s t 0 0 0 0 ∧
          t.params = some { p with rate := rate, bits := bits, channels := channels } ∧
          { t.timer with countdown := s.timer.countdown } = { s.timer with alarm := alarmOf s.cfg rate } ∧
          { t with events := s.events, params := s.params, timer := s.timer } = s))

/-- R244, R166: `SET_RATE` needs no idle status and writes the rate and the alarm value. That the stored rate follows is the
spec's decision D30 (log 31). -/
def Obligations.SetRateReprogramsOnlyTheAlarm : Prop :=
  ∀ (s : State) (rate : Word),
    (s.status = .uninitialized → ∃ t, Answers (.setRate rate) s t 1 0 0 0 ∧ OnlyEvents s t) ∧
    (s.status ≠ .uninitialized → (rate.toNat < 8000 ∨ 48000 < rate.toNat) →
      ∃ t, Answers (.setRate rate) s t 4 0 0 0 ∧ OnlyEvents s t) ∧
    (∀ p, s.status ≠ .uninitialized → s.params = some p → 8000 ≤ rate.toNat → rate.toNat ≤ 48000 →
      ∃ t, Answers (.setRate rate) s t 0 0 0 0 ∧ t.params = some { p with rate := rate } ∧
        { t.timer with countdown := s.timer.countdown } = { s.timer with alarm := alarmOf s.cfg rate } ∧
        { t with events := s.events, params := s.params, timer := s.timer } = s)

/-- R105, R245, R246: an accepted `SET_VOL v` stores `v + FSV`, and `GET_VOL` then answers `v`. -/
def Obligations.VolumeReadsBackAsItWasSet : Prop :=
  ∀ (s : State) (p : Params) (v : Word), s.cfg.Legal → s.status ≠ .uninitialized → s.params = some p →
    -(s.cfg.fsv : Int) ≤ v.toInt → v.toInt ≤ (s.cfg.fsv : Int) →
    ∃ t u q, Answers (.setVol v) s t 0 0 0 0 ∧ t.params = some q ∧ { q with volume := p.volume } = p ∧
      (q.volume.toNat : Int) = v.toInt + (s.cfg.fsv : Int) ∧ { t with events := s.events, params := s.params } = s ∧
      Answers .getVol t u 0 v 0 0 ∧ OnlyEvents t u

/-- R245: a volume out of range is answered `InvalidArgument`, and nothing is stored. -/
def Obligations.VolumeOutOfRangeIsAnError : Prop :=
  ∀ (s : State) (v : Word), s.status ≠ .uninitialized → (v.toInt < -(s.cfg.fsv : Int) ∨ (s.cfg.fsv : Int) < v.toInt) →
    ∃ t, Answers (.setVol v) s t 4 0 0 0 ∧ OnlyEvents s t

/-- R247: `START` in every status. -/
def Obligations.StartEnablesTheTimerFromIdle : Prop :=
  ∀ s : State,
    (s.status = .uninitialized → ∃ t, Answers .start s t 1 0 0 0 ∧ OnlyEvents s t) ∧
    (s.status = .busy → ∃ t, Answers .start s t 3 0 0 0 ∧ OnlyEvents s t) ∧
    (s.status = .idle → ∃ t, Answers .start s t 0 0 0 0 ∧ t.status = .busy ∧
      t.timer = { s.timer with run := true, inten := true } ∧
      { t with events := s.events, status := s.status, timer := s.timer } = s)

/-- R248, R352: `STOP` in every status, with no `WRITE` in flight (log 15): the timer is paused, both cursors are 0, the semaphore, the
flag, every byte, the count and the duty registers stay. -/
def Obligations.StopPausesTheTimerAndFlushes : Prop :=
  ∀ s : State, writeInFlight s = false →
    (s.status = .uninitialized → ∃ t, Answers .stop s t 1 0 0 0 ∧ OnlyEvents s t) ∧
    (s.status = .idle → ∃ t, Answers .stop s t 3 0 0 0 ∧ OnlyEvents s t) ∧
    (∀ r, s.status = .busy → s.rb = some r → ∃ t, Answers .stop s t 0 0 0 0 ∧ t.status = .idle ∧
      t.timer = { s.timer with run := false, inten := false } ∧ t.rb = some { r with head := 0, tail := 0 } ∧
      { t with events := s.events, status := s.status, timer := s.timer, rb := s.rb } = s)

/-- R249, R250, R246, R107: the three queries on an initialised block; the volume answer is `(volume - FSV) mod 2^32`. -/
def Obligations.QueriesAnswerStatusParametersAndVolume : Prop :=
  ∀ s : State,
    (s.status ≠ .uninitialized → ∃ t, Answers .getStatus s t 0 (if s.status = .busy then 2 else 1) 0 0 ∧ OnlyEvents s t) ∧
    (∀ p, s.status ≠ .uninitialized → s.params = some p →
      ∃ t u, Answers .getParam s t 0 p.rate p.bits p.channels ∧ OnlyEvents s t ∧
        Answers .getVol s u 0 (p.volume - toWord s.cfg.fsv) 0 0 ∧ OnlyEvents s u)

/-- R292, R251: before `INIT` the commands that need the subsystem answer `NotInitialized` and change nothing. -/
def Obligations.UninitializedCommandsAnswerNotInitialized : Prop :=
  ∀ (s : State) (i : Instr), s.status = .uninitialized → writeInFlight s = false →
    i.op ∈ ([0x03, 0x04, 0x05, 0x06, 0x07, 0x08, 0x09, 0x0A, 0x10, 0x11] : List Byte) →
    ∃ t, Answers i s t 1 0 0 0 ∧ OnlyEvents s t

/-- R251: whatever a step is, a command or a turn of an agent, it changes `status` only as an `INIT`, a `START`, a `STOP` or a
`DEINIT` that arrives on the control port, along the arrows of the state machine. -/
def Obligations.OnlyLifecycleCommandsChangeStatus : Prop :=
  ∀ s t : State, step s = .next t → t.status ≠ s.status →
    ∃ k d b rest i, s.agenda = .command .control k d b :: rest ∧ decode k = .ok i ∧
    ((i.op = 0x01 ∧ s.status = .uninitialized ∧ t.status = .idle) ∨
    (i.op = 0x07 ∧ s.status = .idle ∧ t.status = .busy) ∨
    (i.op = 0x08 ∧ s.status = .busy ∧ t.status = .idle) ∨
    (i.op = 0x02 ∧ t.status = .uninitialized))

/-- R291: an operation that answers an error has written no register. -/
def Obligations.ErrorResponsesWriteNoRegister : Prop :=
  ∀ (i : Instr) (s t : State) (es : List Event) (r0 r1 r2 r3 : Word), exec i s = .next t →
    t.events = s.events ++ es → .resp i.op r0 r1 r2 r3 ∈ es → r0 ≠ 0 →
    OnlyEvents s t ∧ r1 = 0 ∧ r2 = 0 ∧ r3 = 0

/-- U1, U2, U3, U5 (logs 9, 15 to 18): where the hazards stop the machine. That `RB_DESTROY` is among them where there is no
ring is the model's choice (log 35). -/
def Obligations.HazardsAreFaults : Prop :=
  ∀ s : State,
    (s.rb = none → s.timer.run = false → writeInFlight s = false → ∀ i : Instr,
      i.op ∈ ([0x22, 0x23, 0x24, 0x25, 0x26, 0x27, 0x28] : List Byte) → exec i s = .fault .absentRing) ∧
    (∀ capacity, consumerActive s = false → s.rb ≠ none → exec (.rbCreate capacity) s = .fault .ringExists) ∧
    (∀ len res sel gl gr, s.status = .uninitialized → s.rb ≠ none → 8 ≤ res.toNat → res.toNat ≤ 10 →
      exec (.init len res sel gl gr) s = .fault .ringExists) ∧
    (consumerActive s = true → ∀ i : Instr, i.op ∈ ([0x20, 0x21, 0x26] : List Byte) → exec i s = .fault .cursorRace) ∧
    (writeInFlight s = true → ∀ i : Instr, i.op ∈ ([0x02, 0x08, 0x21, 0x26] : List Byte) → exec i s = .fault .cursorRace) ∧
    (writeInFlight s = true → ∀ i : Instr, i.op ∈ ([0x10, 0x11, 0x25] : List Byte) → exec i s = .fault .secondProducer) ∧
    (s.timer.run = true → exec .rbRead s = .fault .secondConsumer)

/-! ## The whole machine -/

/-- R330: the registers the spec gives a power-on value, and the units that hold none. -/
def Obligations.ResetIsThePowerOnState : Prop :=
  State.reset.status = .uninitialized ∧ State.reset.handle = false ∧ State.reset.rb = none ∧ State.reset.params = none ∧
  State.reset.timer.claimed = false ∧ State.reset.timer.run = false ∧ State.reset.timer.inten = false ∧
  State.reset.timer.cnt = 0 ∧ State.reset.timer.alarm = 0 ∧
  (∀ c, (State.reset.channel c).mask = false ∧ (State.reset.channel c).dutyReg = 0 ∧ (State.reset.channel c).upd = false ∧
    (State.reset.channel c).outEn = false ∧ (State.reset.channel c).dutyAct = 0 ∧ (State.reset.channel c).pin = .input) ∧
  State.reset.wr.phase = .none ∧ State.reset.events = []

/-- The power-on state meets the invariant. -/
def Obligations.ResetMeetsTheInvariant : Prop := State.reset.Inv

/-- R28, R31, R41, R166, R167, R221: every step keeps the invariant, from every state that meets it. -/
def Obligations.EveryStepKeepsTheInvariant : Prop :=
  ∀ s t : State, s.Inv → step s = .next t → t.Inv

/-- R58: no rule reads the event history: a longer past changes no answer and no register. -/
def Obligations.EventHistoryIsWriteOnly : Prop :=
  ∀ (s : State) (es : List Event),
    step { s with events := es ++ s.events } = prependEvents es (step s)

/-- R20, R72, R354: no operation and no turn writes the configuration or the producer's memory, and the history only grows. A
step has another source buffer only where a `WRITE` or a `WRITE_NB` arrives and brings it, and never while a `WRITE` is in
flight (D16, log 11). -/
def Obligations.StepsNeverWriteConfigurationOrSource : Prop :=
  (∀ (i : Instr) (s t : State), exec i s = .next t → t.cfg = s.cfg ∧ t.source = s.source) ∧
  ∀ s t : State, step s = .next t →
    t.cfg = s.cfg ∧ (∃ es, t.events = s.events ++ es) ∧
    (writeInFlight s = true → t.source = s.source) ∧
    (t.source = s.source ∨ ∃ p k d rest i, s.agenda = .command p k d t.source :: rest ∧ decode k = .ok i ∧
      i.op ∈ ([0x10, 0x11] : List Byte))

/-- R71: an operation that is not a ring write and makes or releases no ring leaves every byte of the ring as it reads; so
does every turn of the timer, of a PWM channel and of the tick. -/
def Obligations.OtherOperationsLeaveEveryRingByte : Prop :=
  (∀ (i : Instr) (s t : State), touchesRingBytes i = false → exec i s = .next t →
    ∀ a, ringByte t a = ringByte s a ∧ t.source = s.source) ∧
  (∀ (g : Agent) (s t : State), g ≠ .prod → turnOf g s = .next t →
    ∀ a, ringByte t a = ringByte s a ∧ t.source = s.source)

/-- R89, R140, R136: from every state that meets the invariant, a step leaves the queue of waiting bytes as it is; or appends
bytes at its end, and then it is a step of the producer; or takes the oldest byte out, and then it is an alarm or a direct
`RB_READ`; or leaves it empty, and then it is a `DEINIT`, `STOP`, `RB_DESTROY` or `RB_FLUSH`. -/
def Obligations.EveryStepKeepsTheQueueInOrder : Prop :=
  ∀ s t : State, s.Inv → step s = .next t →
    t.queue = s.queue ∨
    ((∃ bs, t.queue = s.queue ++ bs) ∧
      (NextCommand s .data [0x11, 0x25] ∨ NextCommand s .interrupt [0x11] ∨ (MayTurn s .prod ∧ s.wr.phase = .chunk))) ∨
    ((∃ b, s.queue = b :: t.queue) ∧
      (NextCommand s .event [0x40] ∨ NextCommand s .interrupt [0x24] ∨ (MayTurn s .timer ∧ s.status = .busy))) ∨
    (t.queue = [] ∧ NextCommand s .control [0x02, 0x08, 0x21, 0x26])
end

