-- ==== Sys2Proof/Laws/Decode.lean ====
section
/-! SUPPORT. The fields of operand words: what packing puts in, and what reading takes out. -/

namespace Sys2Proof

/-- Must-be-zero bits from `n` on: the word is below `2^n`. -/
theorem zeroFrom_iff (n : Nat) (w : Word) : zeroFrom n w = true ↔ w.toNat < 2 ^ n := by
  unfold zeroFrom
  rw [beq_iff_eq, ← BitVec.toNat_inj, BitVec.toNat_ushiftRight, Nat.shiftRight_eq_div_pow]
  have := Nat.two_pow_pos n
  show w.toNat / 2 ^ n = 0 ↔ _
  rw [Nat.div_eq_zero_iff]
  omega

theorem lowByte_toNat (w : Word) : (lowByte w).toNat = w.toNat % 256 := by simp [lowByte]

theorem secondByte_toNat (w : Word) : (secondByte w).toNat = w.toNat / 256 % 256 := by
  simp [secondByte, Nat.shiftRight_eq_div_pow]

theorem packBytes_toNat (high low : Byte) : (packBytes high low).toNat = high.toNat * 256 + low.toNat := by
  have h1 := high.isLt
  have h2 := low.isLt
  unfold packBytes
  rw [BitVec.toNat_setWidth, BitVec.toNat_append, ← Nat.shiftLeft_add_eq_or_of_lt h2, Nat.shiftLeft_eq]
  omega

theorem setWidth_toNat (b : Byte) : (b.setWidth 32 : Word).toNat = b.toNat := by
  have := b.isLt
  rw [BitVec.toNat_setWidth]
  omega

theorem channelWord_toNat (c : Channel) : (channelWord c).toNat = if c = .right then 1 else 0 := by
  cases c <;> rfl

theorem channelOf_eq (w : Word) : channelOf w = if w.toNat % 2 = 1 then .right else .left := by
  have : w.getLsbD 0 = decide (w.toNat % 2 = 1) := by simp [BitVec.getLsbD]
  unfold channelOf
  rw [this]
  by_cases h : w.toNat % 2 = 1 <;> simp [h]

/-- Two bytes fill a word whose upper half is 0, in one way. -/
theorem eq_packBytes_iff (w : Word) (high low : Byte) :
    w = packBytes high low ↔ zeroFrom 16 w = true ∧ secondByte w = high ∧ lowByte w = low := by
  have h1 := high.isLt
  have h2 := low.isLt
  rw [← BitVec.toNat_inj, ← BitVec.toNat_inj, ← BitVec.toNat_inj (x := lowByte w), zeroFrom_iff, packBytes_toNat,
    secondByte_toNat, lowByte_toNat]
  omega

/-- One byte fills a word whose upper bits are 0, in one way. -/
theorem eq_setWidth_iff (w : Word) (b : Byte) : w = b.setWidth 32 ↔ zeroFrom 8 w = true ∧ lowByte w = b := by
  have h := b.isLt
  rw [← BitVec.toNat_inj, ← BitVec.toNat_inj, zeroFrom_iff, setWidth_toNat, lowByte_toNat]
  omega

/-- A channel number fills a word whose upper bits are 0, in one way. -/
theorem eq_channelWord_iff (w : Word) (c : Channel) :
    w = channelWord c ↔ zeroFrom 1 w = true ∧ channelOf w = c := by
  rw [← BitVec.toNat_inj, zeroFrom_iff, channelWord_toNat, channelOf_eq]
  cases c <;> simp <;> omega

/-- `W0` carries the operation number and 0 above it exactly when the decoder finds that number. -/
theorem w0_eq_iff (k : Cmd) (op : Byte) : k.w0 = op.setWidth 32 ↔ zeroFrom 8 k.w0 = true ∧ k.op = op :=
  eq_setWidth_iff k.w0 op

/-- A checked operation is accepted exactly when its must-be-zero bits are 0. -/
theorem checked_eq_ok_iff (z : Bool) (i j : Instr) : checked z i = .ok j ↔ z = true ∧ i = j := by
  cases z <;> simp [checked]

end Sys2Proof
end

