-- ==== Sys2Proof/Laws/State.lean ====
section
/-! SUPPORT. One lemma per field and named update of the state, so that no proof unfolds a record update; the channel pair. -/

namespace Sys2Proof.Machine

/-! ### `setRing` -/

@[simp] theorem setRing_cfg (s : State) (r : RingBuffer) : (s.setRing r).cfg = s.cfg := rfl
@[simp] theorem setRing_status (s : State) (r : RingBuffer) : (s.setRing r).status = s.status := rfl
@[simp] theorem setRing_handle (s : State) (r : RingBuffer) : (s.setRing r).handle = s.handle := rfl
@[simp] theorem setRing_params (s : State) (r : RingBuffer) : (s.setRing r).params = s.params := rfl
@[simp] theorem setRing_rb (s : State) (r : RingBuffer) : (s.setRing r).rb = some r := rfl
@[simp] theorem setRing_timer (s : State) (r : RingBuffer) : (s.setRing r).timer = s.timer := rfl
@[simp] theorem setRing_now (s : State) (r : RingBuffer) : (s.setRing r).now = s.now := rfl
@[simp] theorem setRing_chan (s : State) (r : RingBuffer) : (s.setRing r).chan = s.chan := rfl
@[simp] theorem setRing_wr (s : State) (r : RingBuffer) : (s.setRing r).wr = s.wr := rfl
@[simp] theorem setRing_events (s : State) (r : RingBuffer) : (s.setRing r).events = s.events := rfl
@[simp] theorem setRing_wait (s : State) (r : RingBuffer) : (s.setRing r).wait = s.wait := rfl
@[simp] theorem setRing_source (s : State) (r : RingBuffer) : (s.setRing r).source = s.source := rfl
@[simp] theorem setRing_env (s : State) (r : RingBuffer) : (s.setRing r).env = s.env := rfl
@[simp] theorem setRing_draws (s : State) (r : RingBuffer) : (s.setRing r).draws = s.draws := rfl
@[simp] theorem setRing_agenda (s : State) (r : RingBuffer) : (s.setRing r).agenda = s.agenda := rfl

/-! ### `setParams` -/

@[simp] theorem setParams_cfg (s : State) (p : Params) : (s.setParams p).cfg = s.cfg := rfl
@[simp] theorem setParams_status (s : State) (p : Params) : (s.setParams p).status = s.status := rfl
@[simp] theorem setParams_handle (s : State) (p : Params) : (s.setParams p).handle = s.handle := rfl
@[simp] theorem setParams_params (s : State) (p : Params) : (s.setParams p).params = some p := rfl
@[simp] theorem setParams_rb (s : State) (p : Params) : (s.setParams p).rb = s.rb := rfl
@[simp] theorem setParams_timer (s : State) (p : Params) : (s.setParams p).timer = s.timer := rfl
@[simp] theorem setParams_now (s : State) (p : Params) : (s.setParams p).now = s.now := rfl
@[simp] theorem setParams_chan (s : State) (p : Params) : (s.setParams p).chan = s.chan := rfl
@[simp] theorem setParams_wr (s : State) (p : Params) : (s.setParams p).wr = s.wr := rfl
@[simp] theorem setParams_events (s : State) (p : Params) : (s.setParams p).events = s.events := rfl
@[simp] theorem setParams_wait (s : State) (p : Params) : (s.setParams p).wait = s.wait := rfl
@[simp] theorem setParams_source (s : State) (p : Params) : (s.setParams p).source = s.source := rfl
@[simp] theorem setParams_env (s : State) (p : Params) : (s.setParams p).env = s.env := rfl
@[simp] theorem setParams_draws (s : State) (p : Params) : (s.setParams p).draws = s.draws := rfl
@[simp] theorem setParams_agenda (s : State) (p : Params) : (s.setParams p).agenda = s.agenda := rfl

/-! ### `installRing` -/

@[simp] theorem installRing_cfg (s : State) (r : RingBuffer) : (s.installRing r).cfg = s.cfg := rfl
@[simp] theorem installRing_status (s : State) (r : RingBuffer) : (s.installRing r).status = s.status := rfl
@[simp] theorem installRing_handle (s : State) (r : RingBuffer) : (s.installRing r).handle = s.handle := rfl
@[simp] theorem installRing_params (s : State) (r : RingBuffer) : (s.installRing r).params = s.params := rfl
@[simp] theorem installRing_rb (s : State) (r : RingBuffer) : (s.installRing r).rb = some r := rfl
@[simp] theorem installRing_timer (s : State) (r : RingBuffer) : (s.installRing r).timer = s.timer := rfl
@[simp] theorem installRing_now (s : State) (r : RingBuffer) : (s.installRing r).now = s.now := rfl
@[simp] theorem installRing_chan (s : State) (r : RingBuffer) : (s.installRing r).chan = s.chan := rfl
@[simp] theorem installRing_wr (s : State) (r : RingBuffer) : (s.installRing r).wr = s.wr := rfl
@[simp] theorem installRing_events (s : State) (r : RingBuffer) : (s.installRing r).events = s.events := rfl
@[simp] theorem installRing_wait (s : State) (r : RingBuffer) : (s.installRing r).wait = s.wait := rfl
@[simp] theorem installRing_source (s : State) (r : RingBuffer) : (s.installRing r).source = s.source := rfl
@[simp] theorem installRing_env (s : State) (r : RingBuffer) : (s.installRing r).env = s.env := rfl
@[simp] theorem installRing_draws (s : State) (r : RingBuffer) : (s.installRing r).draws = s.draws + 1 := rfl
@[simp] theorem installRing_agenda (s : State) (r : RingBuffer) : (s.installRing r).agenda = s.agenda := rfl

/-! ### `setChannel` -/

@[simp] theorem setChannel_cfg (s : State) (c : Channel) (r : ChannelRegs) : (s.setChannel c r).cfg = s.cfg := rfl
@[simp] theorem setChannel_status (s : State) (c : Channel) (r : ChannelRegs) : (s.setChannel c r).status = s.status := rfl
@[simp] theorem setChannel_handle (s : State) (c : Channel) (r : ChannelRegs) : (s.setChannel c r).handle = s.handle := rfl
@[simp] theorem setChannel_params (s : State) (c : Channel) (r : ChannelRegs) : (s.setChannel c r).params = s.params := rfl
@[simp] theorem setChannel_rb (s : State) (c : Channel) (r : ChannelRegs) : (s.setChannel c r).rb = s.rb := rfl
@[simp] theorem setChannel_timer (s : State) (c : Channel) (r : ChannelRegs) : (s.setChannel c r).timer = s.timer := rfl
@[simp] theorem setChannel_now (s : State) (c : Channel) (r : ChannelRegs) : (s.setChannel c r).now = s.now := rfl
@[simp] theorem setChannel_chan (s : State) (c : Channel) (r : ChannelRegs) : (s.setChannel c r).chan = PerChannel.set s.chan c r := rfl
@[simp] theorem setChannel_wr (s : State) (c : Channel) (r : ChannelRegs) : (s.setChannel c r).wr = s.wr := rfl
@[simp] theorem setChannel_events (s : State) (c : Channel) (r : ChannelRegs) : (s.setChannel c r).events = s.events := rfl
@[simp] theorem setChannel_wait (s : State) (c : Channel) (r : ChannelRegs) : (s.setChannel c r).wait = s.wait := rfl
@[simp] theorem setChannel_source (s : State) (c : Channel) (r : ChannelRegs) : (s.setChannel c r).source = s.source := rfl
@[simp] theorem setChannel_env (s : State) (c : Channel) (r : ChannelRegs) : (s.setChannel c r).env = s.env := rfl
@[simp] theorem setChannel_draws (s : State) (c : Channel) (r : ChannelRegs) : (s.setChannel c r).draws = s.draws := rfl
@[simp] theorem setChannel_agenda (s : State) (c : Channel) (r : ChannelRegs) : (s.setChannel c r).agenda = s.agenda := rfl

/-! ### `emit` -/

@[simp] theorem emit_cfg (e : Event) (s : State) : (emit e s).cfg = s.cfg := rfl
@[simp] theorem emit_status (e : Event) (s : State) : (emit e s).status = s.status := rfl
@[simp] theorem emit_handle (e : Event) (s : State) : (emit e s).handle = s.handle := rfl
@[simp] theorem emit_params (e : Event) (s : State) : (emit e s).params = s.params := rfl
@[simp] theorem emit_rb (e : Event) (s : State) : (emit e s).rb = s.rb := rfl
@[simp] theorem emit_timer (e : Event) (s : State) : (emit e s).timer = s.timer := rfl
@[simp] theorem emit_now (e : Event) (s : State) : (emit e s).now = s.now := rfl
@[simp] theorem emit_chan (e : Event) (s : State) : (emit e s).chan = s.chan := rfl
@[simp] theorem emit_wr (e : Event) (s : State) : (emit e s).wr = s.wr := rfl
@[simp] theorem emit_events (e : Event) (s : State) : (emit e s).events = s.events ++ [e] := rfl
@[simp] theorem emit_wait (e : Event) (s : State) : (emit e s).wait = s.wait := rfl
@[simp] theorem emit_source (e : Event) (s : State) : (emit e s).source = s.source := rfl
@[simp] theorem emit_env (e : Event) (s : State) : (emit e s).env = s.env := rfl
@[simp] theorem emit_draws (e : Event) (s : State) : (emit e s).draws = s.draws := rfl
@[simp] theorem emit_agenda (e : Event) (s : State) : (emit e s).agenda = s.agenda := rfl

/-! ### `respond` -/

@[simp] theorem respond_cfg (op : Byte) (e : ErrorCode) (r1 r2 r3 : Word) (s : State) : (respond op e r1 r2 r3 s).cfg = s.cfg := rfl
@[simp] theorem respond_status (op : Byte) (e : ErrorCode) (r1 r2 r3 : Word) (s : State) : (respond op e r1 r2 r3 s).status = s.status := rfl
@[simp] theorem respond_handle (op : Byte) (e : ErrorCode) (r1 r2 r3 : Word) (s : State) : (respond op e r1 r2 r3 s).handle = s.handle := rfl
@[simp] theorem respond_params (op : Byte) (e : ErrorCode) (r1 r2 r3 : Word) (s : State) : (respond op e r1 r2 r3 s).params = s.params := rfl
@[simp] theorem respond_rb (op : Byte) (e : ErrorCode) (r1 r2 r3 : Word) (s : State) : (respond op e r1 r2 r3 s).rb = s.rb := rfl
@[simp] theorem respond_timer (op : Byte) (e : ErrorCode) (r1 r2 r3 : Word) (s : State) : (respond op e r1 r2 r3 s).timer = s.timer := rfl
@[simp] theorem respond_now (op : Byte) (e : ErrorCode) (r1 r2 r3 : Word) (s : State) : (respond op e r1 r2 r3 s).now = s.now := rfl
@[simp] theorem respond_chan (op : Byte) (e : ErrorCode) (r1 r2 r3 : Word) (s : State) : (respond op e r1 r2 r3 s).chan = s.chan := rfl
@[simp] theorem respond_wr (op : Byte) (e : ErrorCode) (r1 r2 r3 : Word) (s : State) : (respond op e r1 r2 r3 s).wr = s.wr := rfl
@[simp] theorem respond_events (op : Byte) (e : ErrorCode) (r1 r2 r3 : Word) (s : State) : (respond op e r1 r2 r3 s).events = s.events ++ [.resp op (errorWord e) r1 r2 r3] := rfl
@[simp] theorem respond_wait (op : Byte) (e : ErrorCode) (r1 r2 r3 : Word) (s : State) : (respond op e r1 r2 r3 s).wait = s.wait := rfl
@[simp] theorem respond_source (op : Byte) (e : ErrorCode) (r1 r2 r3 : Word) (s : State) : (respond op e r1 r2 r3 s).source = s.source := rfl
@[simp] theorem respond_env (op : Byte) (e : ErrorCode) (r1 r2 r3 : Word) (s : State) : (respond op e r1 r2 r3 s).env = s.env := rfl
@[simp] theorem respond_draws (op : Byte) (e : ErrorCode) (r1 r2 r3 : Word) (s : State) : (respond op e r1 r2 r3 s).draws = s.draws := rfl
@[simp] theorem respond_agenda (op : Byte) (e : ErrorCode) (r1 r2 r3 : Word) (s : State) : (respond op e r1 r2 r3 s).agenda = s.agenda := rfl

/-! ### `supplySource` -/

theorem supplySource_eq (i : Instr) (b : SourceBuffer) (s : State) :
    ∃ b', supplySource i b s = { s with source := b' } ∧ (b' = s.source ∨
      (b' = b ∧ readsSource i = true ∧ writeInFlight s = false)) := by
  unfold supplySource
  cases h1 : readsSource i <;> cases h2 : writeInFlight s
  · exact ⟨s.source, rfl, .inl rfl⟩
  · exact ⟨s.source, rfl, .inl rfl⟩
  · exact ⟨b, rfl, .inr ⟨rfl, rfl, rfl⟩⟩
  · exact ⟨s.source, rfl, .inl rfl⟩

/-- The source buffer that already stands there changes nothing. -/
@[simp] theorem supplySource_same (i : Instr) (s : State) : supplySource i s.source s = s := by
  unfold supplySource
  split <;> rfl

/-- An operation that reads no source buffer takes none. -/
theorem supplySource_unread {i : Instr} (h : readsSource i = false) (b : SourceBuffer) (s : State) :
    supplySource i b s = s := by simp [supplySource, h]

/-! ### The channel pair -/

@[simp] theorem perChannel_get_left {α : Type} (p : PerChannel α) : PerChannel.get p .left = p.left := rfl
@[simp] theorem perChannel_get_right {α : Type} (p : PerChannel α) : PerChannel.get p .right = p.right := rfl
@[simp] theorem perChannel_set_left {α : Type} (p : PerChannel α) (v : α) :
    PerChannel.set p .left v = { left := v, right := p.right } := rfl
@[simp] theorem perChannel_set_right {α : Type} (p : PerChannel α) (v : α) :
    PerChannel.set p .right v = { left := p.left, right := v } := rfl

@[simp] theorem perChannel_get_set_same {α : Type} (p : PerChannel α) (c : Channel) (v : α) :
    PerChannel.get (PerChannel.set p c v) c = v := by cases c <;> rfl

theorem perChannel_get_set_other {α : Type} (p : PerChannel α) {c c' : Channel} (v : α) (h : c' ≠ c) :
    PerChannel.get (PerChannel.set p c v) c' = PerChannel.get p c' := by
  cases c <;> cases c' <;> first | rfl | exact absurd rfl h

@[simp] theorem channel_setChannel_same (s : State) (c : Channel) (r : ChannelRegs) :
    (s.setChannel c r).channel c = r := perChannel_get_set_same _ _ _

theorem channel_setChannel_other (s : State) {c c' : Channel} (r : ChannelRegs) (h : c' ≠ c) :
    (s.setChannel c r).channel c' = s.channel c' := perChannel_get_set_other _ _ h

theorem channel_left (s : State) : s.channel .left = s.chan.left := rfl
theorem channel_right (s : State) : s.channel .right = s.chan.right := rfl

/-- A channel's registers depend on the pair alone. -/
theorem channel_congr {s t : State} (h : t.chan = s.chan) (c : Channel) : t.channel c = s.channel c := by
  simp [State.channel, h]

@[simp] theorem emit_channel (e : Event) (s : State) (c : Channel) : (emit e s).channel c = s.channel c := rfl
@[simp] theorem respond_channel (op : Byte) (e : ErrorCode) (r1 r2 r3 : Word) (s : State) (c : Channel) :
    (respond op e r1 r2 r3 s).channel c = s.channel c := rfl
@[simp] theorem setRing_channel (s : State) (r : RingBuffer) (c : Channel) : (s.setRing r).channel c = s.channel c := rfl

end Sys2Proof.Machine
end

