-- ==== Sys2Proof/Laws/Ring.lean ====
section
/-! SUPPORT. What the ring primitives do to cursors, counts, cells and the queue (rules R28, R132 to R137). -/

namespace Sys2Proof.Machine

/-! ### The constraints of the parameters -/

/-- The constraints of R6, spelled out. -/
theorem legal_iff (k : Config) : k.Legal ↔
    k.watermark ≤ 1022 ∧ 1 ≤ k.fsv ∧ k.fsv ≤ 2 ^ 31 - 1 ∧ 0 < k.timerBaseClock ∧ 0 < k.timerDivider ∧
      1 ≤ k.timerBaseClock / k.timerDivider / 48000 ∧ 0 < k.pwmBaseClock ∧ k.dutyFracBits ≤ 24 := by
  unfold Config.Legal Config.legal
  rw [decide_eq_true_iff]
  rfl

/-! ### Counts -/

theorem RingBuffer.Ok.size_pos {r : RingBuffer} (h : r.Ok) : 1024 ≤ r.size.toNat := h.capacity

/-- `(x + 1) mod size` as the two cases of R139. -/
theorem succ_mod {x n : Nat} (h : x < n) : (x + 1) % n = if x + 1 = n then 0 else x + 1 := by
  split
  · rename_i e; rw [e, Nat.mod_self]
  · exact Nat.mod_eq_of_lt (by omega)

theorem nextIndex_toNat {r : RingBuffer} (h : r.Ok) (x : Word) :
    (nextIndex r x).toNat = (x.toNat + 1) % r.size.toNat := by
  have hs := h.size_pos
  have h1 : (x.toNat + 1) % r.size.toNat < r.size.toNat := Nat.mod_lt _ (by omega)
  have h2 := r.size.isLt
  simp only [nextIndex, toWord, BitVec.toNat_ofNat]
  exact Nat.mod_eq_of_lt (by omega)

theorem occupied_lt {r : RingBuffer} (h : r.Ok) : occupied r < r.size.toNat := by
  have := h.head; have := h.tail
  unfold occupied
  split <;> omega

/-- The count is `head - tail` modulo `size` (R28). -/
theorem occupied_eq_mod {r : RingBuffer} (h : r.Ok) :
    occupied r = (r.head.toNat + r.size.toNat - r.tail.toNat) % r.size.toNat := by
  have h1 := h.head; have h2 := h.tail
  unfold occupied
  split
  · rw [show r.head.toNat + r.size.toNat - r.tail.toNat = (r.head.toNat - r.tail.toNat) + r.size.toNat by omega,
      Nat.add_mod_right, Nat.mod_eq_of_lt (by omega)]
  · rw [Nat.mod_eq_of_lt (by omega)]

/-- `occupied + free = size - 1` (R28). -/
theorem occupied_add_free {r : RingBuffer} (h : r.Ok) : occupied r + free r = r.size.toNat - 1 := by
  have := occupied_lt h
  unfold free
  omega

theorem occupied_eq_zero_iff {r : RingBuffer} (h : r.Ok) : occupied r = 0 ↔ r.head = r.tail := by
  have h1 := h.head; have h2 := h.tail
  rw [← BitVec.toNat_inj]
  unfold occupied
  split <;> omega

/-- `head` stands `occupied` slots after `tail`. -/
theorem slot_occupied {r : RingBuffer} (h : r.Ok) : r.slot (occupied r) = r.head.toNat := by
  have h1 := h.head; have h2 := h.tail
  unfold RingBuffer.slot occupied
  split
  · rw [Nat.mod_eq_of_lt (by omega)]; omega
  · rw [show r.tail.toNat + (r.head.toNat + r.size.toNat - r.tail.toNat) = r.head.toNat + r.size.toNat by omega,
      Nat.add_mod_right, Nat.mod_eq_of_lt h1]

/-- Two slots less than a size apart are different cells. -/
theorem slot_injective {r : RingBuffer} (h : r.Ok) {j k : Nat} (hj : j < r.size.toNat) (hk : k < r.size.toNat)
    (e : r.slot j = r.slot k) : j = k := by
  have h2 := h.tail
  have h3 := h.size_pos
  unfold RingBuffer.slot at e
  have : ∀ i, i < r.size.toNat → (r.tail.toNat + i) % r.size.toNat =
      if r.tail.toNat + i < r.size.toNat then r.tail.toNat + i else r.tail.toNat + i - r.size.toNat := by
    intro i hi
    split
    · exact Nat.mod_eq_of_lt (by assumption)
    · rw [Nat.mod_eq_sub_mod (by omega), Nat.mod_eq_of_lt (by omega)]
  rw [this j hj, this k hk] at e
  split at e <;> split at e <;> omega

@[simp] theorem contents_length (r : RingBuffer) : r.contents.length = occupied r := by
  simp [RingBuffer.contents]

/-! ### `read_byte` -/

/-- Everything `ringPop` can do (R134). -/
theorem ringPop_cases (r : RingBuffer) :
    (r.head = r.tail ∧ ringPop r = none) ∨
    (r.head ≠ r.tail ∧ ringPop r = some (r.cell r.tail.toNat, { r with tail := nextIndex r r.tail })) := by
  unfold ringPop
  split
  · exact .inl ⟨by assumption, rfl⟩
  · exact .inr ⟨by assumption, rfl⟩

theorem ringPop_some {r r' : RingBuffer} {b : Byte} (h : ringPop r = some (b, r')) :
    r.head ≠ r.tail ∧ b = r.cell r.tail.toNat ∧ r' = { r with tail := nextIndex r r.tail } := by
  rcases ringPop_cases r with ⟨_, e⟩ | ⟨hne, e⟩
  · simp [e] at h
  · rw [e] at h
    simp only [Option.some.injEq, Prod.mk.injEq] at h
    exact ⟨hne, h.1.symm, h.2.symm⟩

/-- A pop keeps the ring invariant. -/
theorem ringPop_ok {r r' : RingBuffer} {b : Byte} (h : r.Ok) (e : ringPop r = some (b, r')) : r'.Ok := by
  obtain ⟨_, _, rfl⟩ := ringPop_some e
  have := h.size_pos
  exact ⟨h.capacity, h.head, by rw [nextIndex_toNat h]; exact Nat.mod_lt _ (by show 0 < r.size.toNat; omega),
    h.canonical, h.inside⟩

/-- A pop takes one byte out. -/
theorem ringPop_occupied {r r' : RingBuffer} {b : Byte} (h : r.Ok) (e : ringPop r = some (b, r')) :
    occupied r' + 1 = occupied r := by
  obtain ⟨hne, _, rfl⟩ := ringPop_some e
  have h1 := h.head; have h2 := h.tail
  have hne' : r.head.toNat ≠ r.tail.toNat := fun x => hne (BitVec.toNat_inj.mp x)
  have h3 := nextIndex_toNat h r.tail
  rw [succ_mod h2] at h3
  simp only [occupied, h3]
  split_ifs <;> omega

/-- A pop frees one byte. -/
theorem ringPop_free {r r' : RingBuffer} {b : Byte} (h : r.Ok) (e : ringPop r = some (b, r')) :
    free r' = free r + 1 := by
  have h1 := ringPop_occupied h e
  have h2 := occupied_add_free h
  have h3 := occupied_add_free (ringPop_ok h e)
  obtain ⟨_, _, rfl⟩ := ringPop_some e
  simp only at h3
  omega

/-- A pop changes no cell. -/
theorem ringPop_cell {r r' : RingBuffer} {b : Byte} (e : ringPop r = some (b, r')) (j : Nat) :
    r'.cell j = r.cell j := by
  obtain ⟨_, _, rfl⟩ := ringPop_some e
  rfl

/-- The popped byte is the oldest of the queue, and the rest stays in order (R89). -/
theorem ringPop_contents {r r' : RingBuffer} {b : Byte} (h : r.Ok) (e : ringPop r = some (b, r')) :
    r.contents = b :: r'.contents := by
  have hocc := ringPop_occupied h e
  have h2 := h.tail
  obtain ⟨_, rfl, rfl⟩ := ringPop_some e
  unfold RingBuffer.contents
  rw [← hocc, List.range_succ_eq_map, List.map_cons, List.map_map]
  congr 1
  · simp [RingBuffer.slot, Nat.mod_eq_of_lt h2]
  · refine List.map_congr_left fun k _ => ?_
    have h3 := nextIndex_toNat h r.tail
    show r.cell _ = r.cell _
    congr 1
    unfold RingBuffer.slot
    show (r.tail.toNat + (k + 1)) % r.size.toNat = ((nextIndex r r.tail).toNat + k) % r.size.toNat
    rw [h3, Nat.mod_add_mod]
    congr 1
    omega

/-! ### `write_byte` -/

/-- Everything `ringPush` can do (R135). -/
theorem ringPush_cases (r : RingBuffer) (b : Byte) :
    (nextIndex r r.head = r.tail ∧ ringPush r b = none) ∨
    (nextIndex r r.head ≠ r.tail ∧
      ringPush r b = some { r with mem := r.mem.write r.head.toNat b, head := nextIndex r r.head }) := by
  unfold ringPush
  split
  · exact .inl ⟨by assumption, rfl⟩
  · exact .inr ⟨by assumption, rfl⟩

theorem ringPush_some {r r' : RingBuffer} {b : Byte} (h : ringPush r b = some r') :
    nextIndex r r.head ≠ r.tail ∧ r' = { r with mem := r.mem.write r.head.toNat b, head := nextIndex r r.head } := by
  rcases ringPush_cases r b with ⟨_, e⟩ | ⟨hne, e⟩
  · simp [e] at h
  · rw [e] at h
    exact ⟨hne, (Option.some.inj h).symm⟩

/-- A push is refused exactly when nothing is free. -/
theorem ringPush_eq_none_iff {r : RingBuffer} (h : r.Ok) (b : Byte) : ringPush r b = none ↔ free r = 0 := by
  have h1 := h.head; have h2 := h.tail
  have h3 := nextIndex_toNat h r.head
  rw [succ_mod h1] at h3
  have hiff : nextIndex r r.head = r.tail ↔ free r = 0 := by
    rw [← BitVec.toNat_inj, h3]
    unfold free occupied
    split_ifs <;> omega
  rcases ringPush_cases r b with ⟨a, e⟩ | ⟨a, e⟩ <;> simp [e, ← hiff, a]

/-- A push keeps the ring invariant. -/
theorem ringPush_ok {r r' : RingBuffer} {b : Byte} (h : r.Ok) (e : ringPush r b = some r') : r'.Ok := by
  obtain ⟨_, rfl⟩ := ringPush_some e
  have := h.size_pos
  refine ⟨h.capacity, ?_, h.tail, write_wf h.canonical _ _, fun c hc => ?_⟩
  · show (nextIndex r r.head).toNat < _
    rw [nextIndex_toNat h]
    exact Nat.mod_lt _ (by omega)
  · rcases mem_write hc with e | hc
    · subst e; exact h.head
    · exact h.inside c hc

/-- A push puts one byte in. -/
theorem ringPush_occupied {r r' : RingBuffer} {b : Byte} (h : r.Ok) (e : ringPush r b = some r') :
    occupied r' = occupied r + 1 := by
  obtain ⟨hne, rfl⟩ := ringPush_some e
  have h1 := h.head; have h2 := h.tail
  have hne' : (nextIndex r r.head).toNat ≠ r.tail.toNat := fun x => hne (BitVec.toNat_inj.mp x)
  have h3 := nextIndex_toNat h r.head
  rw [succ_mod h1] at h3
  rw [h3] at hne'
  simp only [occupied, h3]
  split_ifs at * <;> omega

/-- A push uses one free byte. -/
theorem ringPush_free {r r' : RingBuffer} {b : Byte} (h : r.Ok) (e : ringPush r b = some r') :
    free r' + 1 = free r := by
  have h1 := ringPush_occupied h e
  have h2 := occupied_add_free h
  have h3 := occupied_add_free (ringPush_ok h e)
  have h4 := occupied_lt (ringPush_ok h e)
  obtain ⟨_, rfl⟩ := ringPush_some e
  simp only at h3 h4
  omega

/-- A push stores at `head` ... -/
theorem ringPush_cell_head {r r' : RingBuffer} {b : Byte} (e : ringPush r b = some r') :
    r'.cell r.head.toNat = b := by
  obtain ⟨_, rfl⟩ := ringPush_some e
  simp [RingBuffer.cell]

/-- ... and at no other cell (R71). -/
theorem ringPush_cell_other {r r' : RingBuffer} {b : Byte} (e : ringPush r b = some r') {j : Nat}
    (hj : j ≠ r.head.toNat) : r'.cell j = r.cell j := by
  obtain ⟨_, rfl⟩ := ringPush_some e
  simp [RingBuffer.cell, read_write_other _ _ hj]

/-- The pushed byte comes last in the queue (R89). -/
theorem ringPush_contents {r r' : RingBuffer} {b : Byte} (h : r.Ok) (e : ringPush r b = some r') :
    r'.contents = r.contents ++ [b] := by
  have hocc := ringPush_occupied h e
  have hlt := occupied_lt h
  have hslot : ∀ k, r'.slot k = r.slot k := by
    obtain ⟨_, rfl⟩ := ringPush_some e
    exact fun k => rfl
  unfold RingBuffer.contents
  rw [hocc, List.range_succ, List.map_append]
  congr 1
  · refine List.map_congr_left fun k hk => ?_
    have hk' := List.mem_range.mp hk
    rw [hslot]
    refine ringPush_cell_other e fun x => ?_
    rw [← slot_occupied h] at x
    have := slot_injective h (by omega) hlt x
    omega
  · simp [hslot, slot_occupied h, ringPush_cell_head e]

/-! ### Flush and creation -/

theorem ringFlush_ok {r : RingBuffer} (h : r.Ok) : (ringFlush r).Ok := by
  have := h.size_pos
  exact ⟨h.capacity, by show 0 < r.size.toNat; omega, by show 0 < r.size.toNat; omega, h.canonical, h.inside⟩

@[simp] theorem ringFlush_occupied (r : RingBuffer) : occupied (ringFlush r) = 0 := by
  simp [occupied, ringFlush]

theorem freshRing_ok {capacity : Word} {fill : Nat} (h : Config.minCapacity ≤ capacity.toNat) :
    (freshRing capacity fill).Ok := by
  have h' : 1024 ≤ capacity.toNat := h
  exact ⟨h, by show 0 < capacity.toNat; omega, by show 0 < capacity.toNat; omega, List.Pairwise.nil, by simp [freshRing]⟩

/-- Everything `createRing` can do (R130). -/
theorem createRing_cases (capacity : Word) (s : State) :
    ((capacity.toNat < Config.minCapacity ∨ s.cfg.capMax < capacity.toNat ∨ s.env.allocOk = false) ∧
      createRing capacity s = none) ∨
    (Config.minCapacity ≤ capacity.toNat ∧ capacity.toNat ≤ s.cfg.capMax ∧ s.env.allocOk = true ∧
      createRing capacity s = some (freshRing capacity s.draws)) := by
  unfold createRing
  split
  · exact .inl ⟨.inl (by assumption), rfl⟩
  · split
    · exact .inl ⟨.inr (.inl (by assumption)), rfl⟩
    · split
      · rename_i h; exact .inl ⟨.inr (.inr (by simpa using h)), rfl⟩
      · rename_i h1 h2 h3; exact .inr ⟨by omega, by omega, by simpa using h3, rfl⟩

/-! ### Flags: the counts and cells do not depend on them -/

@[simp] theorem occupied_clearPending (r : RingBuffer) : occupied (clearPending r) = occupied r := rfl
@[simp] theorem occupied_postSem (r : RingBuffer) : occupied (postSem r) = occupied r := rfl
@[simp] theorem occupied_takeSem (r : RingBuffer) : occupied (takeSem r) = occupied r := rfl
@[simp] theorem free_clearPending (r : RingBuffer) : free (clearPending r) = free r := rfl
@[simp] theorem free_postSem (r : RingBuffer) : free (postSem r) = free r := rfl
@[simp] theorem free_takeSem (r : RingBuffer) : free (takeSem r) = free r := rfl
@[simp] theorem cell_clearPending (r : RingBuffer) (i : Nat) : (clearPending r).cell i = r.cell i := rfl
@[simp] theorem cell_postSem (r : RingBuffer) (i : Nat) : (postSem r).cell i = r.cell i := rfl
@[simp] theorem cell_takeSem (r : RingBuffer) (i : Nat) : (takeSem r).cell i = r.cell i := rfl
@[simp] theorem cell_ringFlush (r : RingBuffer) (i : Nat) : (ringFlush r).cell i = r.cell i := rfl

@[simp] theorem contents_clearPending (r : RingBuffer) : (clearPending r).contents = r.contents := rfl
@[simp] theorem contents_postSem (r : RingBuffer) : (postSem r).contents = r.contents := rfl
@[simp] theorem contents_takeSem (r : RingBuffer) : (takeSem r).contents = r.contents := rfl
@[simp] theorem contents_ringFlush (r : RingBuffer) : (ringFlush r).contents = [] := by simp [RingBuffer.contents]
@[simp] theorem contents_freshRing (capacity : Word) (fill : Nat) : (freshRing capacity fill).contents = [] := by
  simp [RingBuffer.contents, freshRing, occupied]

theorem queue_of_some {s : State} {r : RingBuffer} (h : s.rb = some r) : s.queue = r.contents := by
  simp [State.queue, h]
theorem queue_of_none {s : State} (h : s.rb = none) : s.queue = [] := by simp [State.queue, h]
theorem ringPop_size {r r' : RingBuffer} {b : Byte} (h : ringPop r = some (b, r')) : r'.size = r.size := by
  obtain ⟨_, _, rfl⟩ := ringPop_some h; rfl
theorem ringPush_size {r r' : RingBuffer} {b : Byte} (h : ringPush r b = some r') : r'.size = r.size := by
  obtain ⟨_, rfl⟩ := ringPush_some h; rfl

theorem clearPending_ok {r : RingBuffer} (h : r.Ok) : (clearPending r).Ok :=
  ⟨h.capacity, h.head, h.tail, h.canonical, h.inside⟩
theorem postSem_ok {r : RingBuffer} (h : r.Ok) : (postSem r).Ok := ⟨h.capacity, h.head, h.tail, h.canonical, h.inside⟩
theorem takeSem_ok {r : RingBuffer} (h : r.Ok) : (takeSem r).Ok := ⟨h.capacity, h.head, h.tail, h.canonical, h.inside⟩

end Sys2Proof.Machine
end

