-- ==== Sys2Proof/Laws/Operands.lean ====
section
/-! SUPPORT. What the operand tests accept and what the operand computations give, in numbers (rules R38, R161, R190, R210 to R212, R240 to R246). -/

namespace Sys2Proof.Machine

/-! ### Tests -/

theorem rateInRange_iff (rate : Word) : rateInRange rate = true ↔ 8000 ≤ rate.toNat ∧ rate.toNat ≤ 48000 := by
  unfold rateInRange
  rw [decide_eq_true_iff]
  rfl

theorem resolutionInRange_iff (res : Byte) : resolutionInRange res = true ↔ 8 ≤ res.toNat ∧ res.toNat ≤ 10 := by
  unfold resolutionInRange
  rw [decide_eq_true_iff]
  rfl

theorem bitsLegal_iff (bits : Word) : bitsLegal bits = true ↔ bits = 8 ∨ bits = 16 ∨ bits = 32 := by
  unfold bitsLegal
  rw [decide_eq_true_iff]

theorem channelsLegal_iff (channels : Word) : channelsLegal channels = true ↔ channels = 1 ∨ channels = 2 := by
  unfold channelsLegal
  rw [decide_eq_true_iff]

theorem volumeInRange_iff (k : Config) (v : Word) :
    volumeInRange k v = true ↔ -(k.fsv : Int) ≤ v.toInt ∧ v.toInt ≤ (k.fsv : Int) := by
  unfold volumeInRange
  rw [decide_eq_true_iff]

theorem gpioAssigned_iff (k : Config) (g : Byte) : gpioAssigned k g = true ↔ g ≠ k.gpioNone := by
  unfold gpioAssigned
  rw [decide_eq_true_iff]

theorem sourceArgsBad_iff (buf length : Word) : sourceArgsBad buf length = true ↔ buf = 0 ∨ length = 0 := by
  unfold sourceArgsBad
  rw [decide_eq_true_iff]

theorem sourceRangeFits_iff (k : Config) (buf length : Word) :
    sourceRangeFits k buf length = true ↔ buf.toNat + length.toNat ≤ 2 ^ k.addrW := by
  unfold sourceRangeFits
  rw [decide_eq_true_iff]

/-- The ticks since a reading are the non-negative remainder of the difference (R224 (6)). -/
theorem elapsed_eq (k : Config) (now since : Nat) :
    (elapsed k now since : Int) = ((now : Int) - since) % 2 ^ k.tickW := by
  have h : (0 : Int) < ((2 ^ k.tickW : Nat) : Int) := by exact_mod_cast Nat.two_pow_pos k.tickW
  unfold elapsed
  rw [Int.toNat_of_nonneg (Int.emod_nonneg _ (by omega))]
  push_cast
  rfl

theorem elapsed_lt (k : Config) (now since : Nat) : elapsed k now since < 2 ^ k.tickW := by
  have h : (0 : Int) < 2 ^ k.tickW := by positivity
  have h1 := Int.emod_lt_of_pos ((now : Int) - since) h
  rw [← elapsed_eq] at h1
  exact_mod_cast h1

theorem waitExpired_iff (k : Config) (now since timeout : Nat) :
    waitExpired k now since timeout = true ↔ (timeout : Int) ≤ ((now : Int) - since) % 2 ^ k.tickW := by
  unfold waitExpired
  rw [decide_eq_true_iff, ← elapsed_eq]
  exact Int.ofNat_le.symm

theorem deadlineExceeded_iff (k : Config) (now start timeout : Nat) :
    deadlineExceeded k now start timeout = true ↔ (timeout : Int) < ((now : Int) - start) % 2 ^ k.tickW := by
  unfold deadlineExceeded
  rw [decide_eq_true_iff, ← elapsed_eq]
  exact Int.ofNat_lt.symm

/-! ### Computations -/

/-- A value that fits its register is stored as it is. -/
theorem fitTo_of_lt {w x : Nat} (h : x < 2 ^ w) : fitTo w x = x := if_pos h

/-- Whatever is stored fits. -/
theorem fitTo_lt (w x : Nat) : fitTo w x < 2 ^ w := by
  unfold fitTo
  split
  · assumption
  · exact Nat.mod_lt _ (Nat.two_pow_pos w)

theorem timeoutOf_lt (k : Config) (t : Word) : timeoutOf k t < 2 ^ k.tickW := fitTo_lt _ _

theorem alarmOf_lt (k : Config) (rate : Word) : alarmOf k rate < 2 ^ k.tcntW := fitTo_lt _ _

/-- The carrier frequency, where it fits its 32 bits (R38). -/
theorem carrierOf_toNat {k : Config} {res : Byte}
    (h : k.pwmBaseClock / 2 ^ res.toNat - k.pwmBaseClock / 2 ^ res.toNat % 1000 < 2 ^ 32) :
    (carrierOf k res).toNat = k.pwmBaseClock / 2 ^ res.toNat - k.pwmBaseClock / 2 ^ res.toNat % 1000 := by
  simp only [carrierOf, toWord, BitVec.toNat_ofNat, fitTo_of_lt h]
  exact Nat.mod_eq_of_lt h

/-- The duty value of a sample does not overflow the register (R190). -/
theorem dutyOf_toNat {k : Config} (h : k.Legal) (v : Byte) : (dutyOf k v).toNat = v.toNat * 2 ^ k.dutyFracBits := by
  obtain ⟨_, _, _, _, _, _, _, hf⟩ := (legal_iff k).mp h
  simp only [dutyOf, toWord, BitVec.toNat_ofNat]
  apply Nat.mod_eq_of_lt
  have hv := v.isLt
  calc v.toNat * 2 ^ k.dutyFracBits ≤ v.toNat * 2 ^ 24 :=
        Nat.mul_le_mul_left _ (Nat.pow_le_pow_right (by norm_num) hf)
    _ < 2 ^ 32 := by omega

/-- The scaled byte is the quotient modulo 256 (rules R211, R212). -/
theorem scale_toNat (k : Config) (b : Byte) (volume : Word) :
    (scale k b volume).toNat = b.toNat * volume.toNat / k.fsv % 256 := by
  simp [scale]

/-- The alarm value of a rate, where it fits its register (R161). -/
theorem alarmOf_eq {k : Config} {rate : Word} (h : k.timerBaseClock / k.timerDivider / rate.toNat < 2 ^ k.tcntW) :
    alarmOf k rate = k.timerBaseClock / k.timerDivider / rate.toNat := fitTo_of_lt h

/-- An accepted volume setting is stored as `v + FSV`, which fits the register (rules R35, R245). -/
theorem storedVolume_toNat {k : Config} (h : k.Legal) {v : Word} (hv : volumeInRange k v = true) :
    ((storedVolume k v).toNat : Int) = v.toInt + (k.fsv : Int) := by
  obtain ⟨_, h1, h2, _⟩ := (legal_iff k).mp h
  obtain ⟨h3, h4⟩ := (volumeInRange_iff k v).mp hv
  simp only [storedVolume, BitVec.toNat_ofInt]
  rw [Int.toNat_of_nonneg (Int.emod_nonneg _ (by decide))]
  exact Int.emod_eq_of_lt (by omega) (by omega)

/-- The signed offset is the stored volume less `FSV`, modulo `2^32` (R246). -/
theorem volumeSetting_eq (k : Config) (volume : Word) : volumeSetting k volume = volume - toWord k.fsv := by
  apply BitVec.eq_of_toNat_eq
  simp only [volumeSetting, toWord, BitVec.toNat_ofInt, BitVec.toNat_sub, BitVec.toNat_ofNat]
  have := volume.isLt
  omega

end Sys2Proof.Machine
end

