-- ==== Sys2Proof/Laws/Ops.lean ====
section
/-! SUPPORT. Everything the shared operations can do, said once each: provers cite these and do not unfold the operations. -/

namespace Sys2Proof.Machine

/-! ### Answers -/

theorem done_eq (op : Byte) (r1 r2 r3 : Word) (s : State) : done op r1 r2 r3 s = .next (respond op .ok r1 r2 r3 s) := rfl

theorem raise_eq (op : Byte) (e : ErrorCode) (s : State) : raise op e s = .next (respond op e 0 0 0 s) := rfl

theorem done_next {op : Byte} {r1 r2 r3 : Word} {s t : State} (h : done op r1 r2 r3 s = .next t) :
    t = respond op .ok r1 r2 r3 s := by
  injection h with h; exact h.symm

theorem raise_next {op : Byte} {e : ErrorCode} {s t : State} (h : raise op e s = .next t) :
    t = respond op e 0 0 0 s := by
  injection h with h; exact h.symm

/-- An operation that is `done` answers `OK` and its results; its only event is the response. -/
theorem answers_done {i : Instr} {s u : State} {r1 r2 r3 : Word} (h : exec i s = done i.op r1 r2 r3 u)
    (he : u.events = s.events) : Answers i s (respond i.op .ok r1 r2 r3 u) 0 r1 r2 r3 :=
  ⟨h, by simp [respond, emit, errorWord, he]⟩

/-- An operation that raises `e` answers its code, the results 0, and writes nothing else. -/
theorem answers_raise {i : Instr} {s : State} {e : ErrorCode} (h : exec i s = raise i.op e s) :
    Answers i s (respond i.op e 0 0 0 s) (errorWord e) 0 0 0 ∧ OnlyEvents s (respond i.op e 0 0 0 s) :=
  ⟨⟨h, rfl⟩, rfl⟩

theorem withRing_some {s : State} {r : RingBuffer} (h : s.rb = some r) (k : RingBuffer → Result) :
    withRing s k = k r := by simp [withRing, h]

theorem withRing_none {s : State} (h : s.rb = none) (k : RingBuffer → Result) :
    withRing s k = .fault .absentRing := by simp [withRing, h]

/-- A next state out of `withRing` comes from the ring that exists. -/
theorem withRing_next {s t : State} {k : RingBuffer → Result} (h : withRing s k = .next t) :
    ∃ r, s.rb = some r ∧ k r = .next t := by
  cases e : s.rb with
  | none => simp [withRing, e] at h
  | some r => exact ⟨r, rfl, by simpa [withRing, e] using h⟩

theorem withParams_some {s : State} {p : Params} (h : s.params = some p) (k : Params → Result) :
    withParams s k = k p := by simp [withParams, h]

/-- A next state out of `withParams` comes from the parameter registers that exist. -/
theorem withParams_next {s t : State} {k : Params → Result} (h : withParams s k = .next t) :
    ∃ p, s.params = some p ∧ k p = .next t := by
  cases e : s.params with
  | none => simp [withParams, e] at h
  | some p => exact ⟨p, rfl, by simpa [withParams, e] using h⟩

/-! ### `signal_space_available` -/

/-- Everything `signalSpace` can do (R137). -/
theorem signalSpace_cases (s : State) (r : RingBuffer) :
    (s.cfg.watermark < free r ∧ r.pending = false ∧
      signalSpace s r = emit (.post (switchRequest s r)) (s.setRing (postSem r))) ∨
    ((free r ≤ s.cfg.watermark ∨ r.pending = true) ∧ signalSpace s r = s.setRing r) := by
  unfold signalSpace postDue
  by_cases h : s.cfg.watermark < free r
  · cases hp : r.pending
    · exact .inl ⟨h, rfl, by simp [h]⟩
    · exact .inr ⟨.inr rfl, by simp⟩
  · exact .inr ⟨.inl (by omega), by simp [h]⟩

/-- `signalSpace` writes two flags of the ring and the event history, and nothing else. -/
theorem signalSpace_frame (s : State) (r : RingBuffer) :
    ∃ r' es, signalSpace s r = { s with rb := some r', events := s.events ++ es } ∧
      { r' with pending := r.pending, sem := r.sem } = r ∧ (∀ e ∈ es, ∃ y, e = .post y) := by
  rcases signalSpace_cases s r with ⟨_, _, e⟩ | ⟨_, e⟩
  · exact ⟨postSem r, [.post (switchRequest s r)], e, rfl, by simp⟩
  · exact ⟨r, [], by simp [e, State.setRing], rfl, by simp⟩

/-- The context-switch request, spelled out (rules R49, R137). -/
theorem switchRequest_iff (s : State) (r : RingBuffer) :
    switchRequest s r = true ↔ r.sem = false ∧ (s.wr.phase = .waitTake ∨ ∃ w, s.wait = some w ∧ w.atTake = true) := by
  unfold switchRequest atTake
  cases hw : s.wait <;> cases hs : r.sem <;> simp

/-! ### The duty driver -/

/-- `applyDuty` writes one channel's registers and one event (R190). -/
theorem applyDuty_eq (c : Channel) (v : Byte) (s : State) :
    applyDuty c v s = { s with
      chan := PerChannel.set s.chan c { s.channel c with dutyReg := dutyOf s.cfg v, upd := true, outEn := true }
      events := s.events ++ [.duty c (dutyOf s.cfg v)] } := rfl

/-- Everything a latch step can do (R193). -/
theorem execLatch_cases (c : Channel) (s : State) :
    ((s.channel c).mask = true ∧ (s.channel c).upd = true ∧
      execLatch c s = .next { s with
        chan := PerChannel.set s.chan c { s.channel c with dutyAct := (s.channel c).dutyReg, upd := false }
        events := s.events ++ [.latch c (s.channel c).dutyReg] }) ∨
    (((s.channel c).mask = false ∨ (s.channel c).upd = false) ∧ execLatch c s = .next s) := by
  unfold execLatch
  cases hm : (s.channel c).mask <;> cases hu : (s.channel c).upd <;>
    simp [emit, State.setChannel, latchRegs]

/-! ### The alarm handler -/

/-- Everything `takeAlarm` can do when it answers a next state (rules R163, R164). -/
theorem takeAlarm_next {s t : State} (h : takeAlarm s = .next t) :
    (s.handle = false ∧ t = emit (.alarm .noHandle) s) ∨
    (s.handle = true ∧ ∃ r, s.rb = some r ∧
      ((ringPop r = none ∧ t = signalSpace (emit (.alarm .underrun) s) r) ∨
        ∃ b r', ringPop r = some (b, r') ∧
          t = signalSpace (emit (.alarm (.byte b)) (applyDuty s.cfg.primaryCh b s)) r')) := by
  unfold takeAlarm at h
  cases hh : s.handle
  · exact .inl ⟨rfl, by simp [hh] at h; exact h.symm⟩
  · simp only [hh, if_true] at h
    obtain ⟨r, hr, e⟩ := withRing_next h
    injection e with e
    refine .inr ⟨rfl, r, hr, ?_⟩
    unfold serveAlarm at e
    split at e
    · exact .inl ⟨by assumption, e.symm⟩
    · exact .inr ⟨_, _, by assumption, e.symm⟩

/-- Everything the count step can do when it answers a next state (rules R162, R166). -/
theorem countStep_next {s t : State} (h : countStep s = .next t) :
    (timerCounts s.timer = false ∧ t = s) ∨
    (timerCounts s.timer = true ∧ s.timer.countdown = none ∧ s.timer.cnt < s.timer.alarm ∧
      t = { s with timer := { s.timer with cnt := countUp s.cfg s.timer.cnt } }) ∨
    (timerCounts s.timer = true ∧ timerFires s = .next t) ∨
    (timerCounts s.timer = true ∧ s.timer.countdown = none ∧ timerFires { s with draws := s.draws + 1 } = .next t) ∨
    (∃ k, timerCounts s.timer = true ∧ 1 < k ∧
      ((s.timer.countdown = some k ∧
          t = { s with timer := { s.timer with cnt := countUp s.cfg s.timer.cnt, countdown := some (k - 1) } }) ∨
        (s.timer.countdown = none ∧ k = drawnCounts s.cfg s.draws ∧
          t = { s with
            draws := s.draws + 1
            timer := { s.timer with cnt := countUp s.cfg s.timer.cnt, countdown := some (k - 1) } }))) := by
  unfold countStep at h
  cases hc : timerCounts s.timer
  · simp only [hc, Bool.false_eq_true, if_false] at h
    injection h with h
    exact .inl ⟨rfl, h.symm⟩
  · simp only [hc, if_true] at h
    cases hd : s.timer.countdown with
    | some k =>
      simp only [hd, countDown] at h
      split at h
      · exact .inr (.inr (.inl ⟨rfl, h⟩))
      · injection h with h
        exact .inr (.inr (.inr (.inr ⟨k, rfl, by omega, .inl ⟨rfl, h.symm⟩⟩)))
    | none =>
      simp only [hd] at h
      split at h
      · split at h
        · exact .inr (.inr (.inl ⟨rfl, h⟩))
        · injection h with h
          exact .inr (.inl ⟨rfl, rfl, by assumption, by simp [← h, hd]⟩)
      · simp only [countDown] at h
        split at h
        · exact .inr (.inr (.inr (.inl ⟨rfl, rfl, h⟩)))
        · injection h with h
          exact .inr (.inr (.inr (.inr ⟨_, rfl, by omega, .inr ⟨rfl, rfl, h.symm⟩⟩)))

/-- A reached alarm reloads the counter, then takes the interrupt if it is enabled (rules R162, R297). -/
theorem timerFires_next {s t : State} (h : timerFires s = .next t) :
    (s.timer.inten = true ∧ takeAlarm { s with timer := { s.timer with cnt := 0, countdown := none } } = .next t) ∨
    (s.timer.inten = false ∧ t = { s with timer := { s.timer with cnt := 0, countdown := none } }) := by
  unfold timerFires at h
  by_cases hi : s.timer.inten = true
  · exact .inl ⟨hi, by rwa [if_pos hi] at h⟩
  · rw [if_neg hi] at h
    injection h with h
    exact .inr ⟨by simpa using hi, h.symm⟩

theorem countUp_lt (k : Config) (cnt : Nat) : countUp k cnt < 2 ^ k.tcntW := Nat.mod_lt _ (Nat.two_pow_pos _)

/-- Below an alarm value that fits the register the count does not wrap. -/
theorem countUp_below {k : Config} {cnt alarm : Nat} (h1 : cnt < alarm) (h2 : alarm < 2 ^ k.tcntW) :
    countUp k cnt = cnt + 1 := Nat.mod_eq_of_lt (by omega)

/-- Below the alarm value a count counts, and the one that reaches it fires (R162). -/
theorem countStep_below {s : State} (h1 : timerCounts s.timer = true) (h2 : s.timer.countdown = none)
    (h3 : s.timer.cnt < s.timer.alarm) (h4 : s.timer.alarm < 2 ^ s.cfg.tcntW) :
    (s.timer.cnt + 1 = s.timer.alarm → countStep s = timerFires s) ∧
    (s.timer.cnt + 1 ≠ s.timer.alarm →
      countStep s = .next { s with timer := { s.timer with cnt := s.timer.cnt + 1 } }) := by
  unfold countStep
  rw [if_pos h1, h2]
  simp only [h3, if_true, countUp_below h3 h4]
  exact ⟨fun e => if_pos e, fun e => if_neg e⟩

/-- A reached alarm, as the statements spell it. -/
theorem timerFires_eq (s : State) : timerFires s = reloadAndServe s := rfl

/-- A drawn count lies in `1 .. 2^TCNT_W` (U8). -/
theorem drawnCounts_bounds (k : Config) (d : Nat) : 1 ≤ drawnCounts k d ∧ drawnCounts k d ≤ 2 ^ k.tcntW := by
  have := Nat.mod_lt (Config.freeAlarmCount d) (Nat.two_pow_pos k.tcntW)
  unfold drawnCounts
  omega

/-! ### The source loop of `WRITE_NB` -/

/-- With room for all of them, the bytes of the source come to stand at the end of the queue, in order and scaled; the
tail, the flags and every cell outside the `n` from `head` on are not touched (R218). -/
theorem pushSource_spec (s : State) (volume : Word) :
    ∀ (n : Nat) (addr : Nat) (r : RingBuffer), r.Ok → n ≤ free r →
      ∃ r', pushSource s volume n addr r = some r' ∧ r'.Ok ∧ free r' + n = free r ∧
        { r' with head := r.head, mem := r.mem } = r ∧ r'.contents = r.contents ++ scaledSource s volume addr n ∧
        r'.head.toNat = (r.head.toNat + n) % r.size.toNat ∧
        ∀ j, (∀ k, k < n → j ≠ (r.head.toNat + k) % r.size.toNat) → r'.cell j = r.cell j
  | 0, _, r, hr, _ => ⟨r, rfl, hr, rfl, rfl, by simp [scaledSource], (Nat.mod_eq_of_lt hr.head).symm, fun _ _ => rfl⟩
  | n + 1, addr, r, hr, hn => by
    cases e : ringPush r (scale s.cfg (memRead s addr) volume) with
    | none => have := (ringPush_eq_none_iff hr _).mp e; omega
    | some r1 =>
      have hf := ringPush_free hr e
      obtain ⟨r', h1, h2, h3, h4, h5, h6, h7⟩ :=
        pushSource_spec s volume n (addr + 1) r1 (ringPush_ok hr e) (by omega)
      have hsz : r1.size = r.size := by obtain ⟨_, rfl⟩ := ringPush_some e; rfl
      have hhd : r1.head.toNat = (r.head.toNat + 1) % r.size.toNat := by
        obtain ⟨_, rfl⟩ := ringPush_some e
        exact nextIndex_toNat hr _
      have hadd : ∀ k, ((r.head.toNat + 1) % r.size.toNat + k) % r.size.toNat = (r.head.toNat + (k + 1)) % r.size.toNat := by
        intro k
        rw [Nat.mod_add_mod]
        congr 1
        omega
      refine ⟨r', by simp only [pushSource, e]; exact h1, h2, by omega, ?_, ?_, ?_, ?_⟩
      · obtain ⟨_, rfl⟩ := ringPush_some e
        cases r'; cases r
        simp_all
      · rw [h5, ringPush_contents hr e, List.append_assoc]
        congr 1
        simp only [scaledSource, List.range_succ_eq_map, List.map_cons, List.map_map, List.singleton_append]
        congr 1
        refine List.map_congr_left fun k _ => ?_
        simp only [Function.comp]
        rw [Nat.add_assoc, Nat.add_comm 1 k]
      · rw [h6, hhd, hsz, hadd]
      · intro j hj
        rw [h7 j fun k hk x => hj (k + 1) (by omega) (by rw [x, hhd, hsz, hadd])]
        refine ringPush_cell_other e fun x => hj 0 (by omega) ?_
        rw [x, Nat.add_zero, Nat.mod_eq_of_lt hr.head]

/-! ### The step -/

/-- Everything a step can be: the configuration is legal, and it is the free turn or the head of the agenda. -/
theorem step_next {s t : State} (h : step s = .next t) :
    s.cfg.Legal ∧ ((s.agenda = [] ∧ freeTurn s = .next t) ∨
      ∃ x rest, s.agenda = x :: rest ∧ serve x { s with agenda := rest } = .next t) := by
  unfold step at h
  split at h
  · rename_i hl
    refine ⟨hl, ?_⟩
    cases ha : s.agenda with
    | nil => simp only [ha] at h; exact .inl ⟨rfl, h⟩
    | cons x rest => simp only [ha] at h; exact .inr ⟨x, rest, rfl, h⟩
  · cases h

/-- Everything an arriving command can do when it answers a next state (rules R100, R109). -/
theorem issue_next {p : Port} {k : Cmd} {b : SourceBuffer} {s t : State} (h : issue p k b s = .next t) :
    (badCommand k s = .next t ∧ ∀ i, decode k = .ok i → portAllows p i = false) ∨
    ∃ i, decode k = .ok i ∧ portAllows p i = true ∧ (p = .data → dataPortBusy s = false) ∧
      exec i (supplySource i b s) = .next t := by
  unfold issue at h
  cases hd : decode k with
  | error e => simp only [hd] at h; exact .inl ⟨h, by simp⟩
  | ok i =>
    simp only [hd] at h
    cases hp : portAllows p i
    · simp only [hp, Bool.not_false, if_true] at h
      exact .inl ⟨h, by rintro j ⟨⟩; exact hp⟩
    · simp only [hp, Bool.not_true, Bool.false_eq_true, if_false] at h
      split at h
      · cases h
      · rename_i hb
        refine .inr ⟨i, rfl, hp, fun e => ?_, h⟩
        by_contra hc
        exact hb ⟨e, by simpa using hc⟩

end Sys2Proof.Machine
end

