-- ==== Sys2Proof/Laws/Exec.lean ====
section
/-! SUPPORT. For each meaning, everything it can do when it answers a next state. -/

namespace Sys2Proof.Machine

/-- The operation was answered with an error and nothing was written (R291). -/
def Rejected (i : Instr) (s t : State) : Prop := ∃ e, e ≠ .ok ∧ t = respond i.op e 0 0 0 s

/-- The operation completed with the results `r1 r2 r3`; `u` is the state before its response. -/
def Completed (i : Instr) (u t : State) (r1 r2 r3 : Word) : Prop := t = respond i.op .ok r1 r2 r3 u

theorem rejected_of {i : Instr} {s t : State} {e : ErrorCode} (he : e ≠ .ok) (h : raise i.op e s = .next t) :
    Rejected i s t := ⟨e, he, raise_next h⟩

/-! ### Ring buffer -/

theorem execRbCreate_next {capacity : Word} {s t : State} (h : execRbCreate capacity s = .next t) :
    consumerActive s = false ∧ s.rb = none ∧ (Rejected (.rbCreate capacity) s t ∨
      (Config.minCapacity ≤ capacity.toNat ∧ capacity.toNat ≤ s.cfg.capMax ∧ s.env.allocOk = true ∧
        Completed (.rbCreate capacity) (s.installRing (freshRing capacity s.draws)) t 0 0 0)) := by
  unfold execRbCreate at h
  split at h
  · cases h
  · rename_i h1
    split at h
    · cases h
    · rename_i h2
      refine ⟨by simpa using h1, by simpa using h2, ?_⟩
      rcases createRing_cases capacity s with ⟨_, e⟩ | ⟨a, b, c, e⟩ <;> rw [e] at h
      · exact .inl (rejected_of (by decide) h)
      · exact .inr ⟨a, b, c, done_next h⟩

theorem execRbDestroy_next {s t : State} (h : execRbDestroy s = .next t) :
    consumerActive s = false ∧ writeInFlight s = false ∧ Completed .rbDestroy { s with rb := none } t 0 0 0 := by
  unfold execRbDestroy at h
  split at h
  · cases h
  · rename_i h1
    have h2 : consumerActive s = false ∧ writeInFlight s = false := by simpa using h1
    exact ⟨h2.1, h2.2, done_next h⟩

theorem execRbOccupied_next {s t : State} (h : execRbOccupied s = .next t) :
    ∃ r, s.rb = some r ∧ Completed .rbOccupied s t (toWord (occupied r)) 0 0 := by
  obtain ⟨r, hr, h⟩ := withRing_next h
  exact ⟨r, hr, done_next h⟩

theorem execRbFree_next {s t : State} (h : execRbFree s = .next t) :
    ∃ r, s.rb = some r ∧ Completed .rbFree s t (toWord (free r)) 0 0 := by
  obtain ⟨r, hr, h⟩ := withRing_next h
  exact ⟨r, hr, done_next h⟩

theorem execRbRead_next {s t : State} (h : execRbRead s = .next t) :
    s.timer.run = false ∧ ∃ r, s.rb = some r ∧ (Rejected .rbRead s t ∨
      ∃ b r', ringPop r = some (b, r') ∧ Completed .rbRead (s.setRing r') t (b.setWidth 32) 0 0) := by
  unfold execRbRead at h
  split at h
  · cases h
  · rename_i h1
    obtain ⟨r, hr, h⟩ := withRing_next h
    refine ⟨by simpa using h1, r, hr, ?_⟩
    split at h
    · exact .inl (rejected_of (by decide) h)
    · exact .inr ⟨_, _, by assumption, done_next h⟩

theorem execRbWrite_next {b : Byte} {s t : State} (h : execRbWrite b s = .next t) :
    writeInFlight s = false ∧ ∃ r, s.rb = some r ∧ (Rejected (.rbWrite b) s t ∨
      ∃ r', ringPush r b = some r' ∧ Completed (.rbWrite b) (s.setRing r') t 0 0 0) := by
  unfold execRbWrite at h
  split at h
  · cases h
  · rename_i h1
    obtain ⟨r, hr, h⟩ := withRing_next h
    refine ⟨by simpa using h1, r, hr, ?_⟩
    split at h
    · exact .inl (rejected_of (by decide) h)
    · exact .inr ⟨_, by assumption, done_next h⟩

theorem execRbFlush_next {s t : State} (h : execRbFlush s = .next t) :
    consumerActive s = false ∧ writeInFlight s = false ∧
      ∃ r, s.rb = some r ∧ Completed .rbFlush (s.setRing (ringFlush r)) t 0 0 0 := by
  unfold execRbFlush at h
  split at h
  · cases h
  · rename_i h1
    have h2 : consumerActive s = false ∧ writeInFlight s = false := by simpa using h1
    obtain ⟨r, hr, h⟩ := withRing_next h
    exact ⟨h2.1, h2.2, r, hr, done_next h⟩

theorem execRbSignal_next {s t : State} (h : execRbSignal s = .next t) :
    ∃ r, s.rb = some r ∧ Completed .rbSignal (signalSpace s r) t (boolWord (postDue s.cfg r)) 0 0 := by
  obtain ⟨r, hr, h⟩ := withRing_next h
  exact ⟨r, hr, done_next h⟩

theorem execRbWait_next {timeout : Word} {s t : State} (h : execRbWait timeout s = .next t) :
    ∃ r, s.rb = some r ∧ t = { s with
      rb := some (clearPending r)
      wait := some { timeout := timeout, start := s.now, atTake := false } } := by
  obtain ⟨r, hr, h⟩ := withRing_next h
  injection h with h
  exact ⟨r, hr, h.symm⟩

theorem directTake_next {w : DirectWait} {s t : State} (h : directTake w s = .next t) :
    ∃ r, s.rb = some r ∧
      ((r.sem = true ∧ Completed (.rbWait 0) { s with rb := some (takeSem r), wait := none } t 0 0 0) ∨
        (r.sem = false ∧ Rejected (.rbWait 0) { s with wait := none } t) ∨
        (r.sem = false ∧ t = { s with wait := some { w with atTake := true } })) := by
  obtain ⟨r, hr, h⟩ := withRing_next h
  refine ⟨r, hr, ?_⟩
  split at h
  · rename_i h1; exact .inl ⟨h1, done_next h⟩
  · rename_i h1
    have h1' : r.sem = false := by simpa using h1
    split at h
    · exact .inr (.inl ⟨h1', rejected_of (by decide) h⟩)
    · injection h with h; exact .inr (.inr ⟨h1', h.symm⟩)

/-! ### Producer write path -/

theorem execWrite_next {buf length timeout : Word} {s t : State} (h : execWrite buf length timeout s = .next t) :
    writeInFlight s = false ∧ (Rejected (.write buf length timeout) s t ∨
      (s.status ≠ .uninitialized ∧ buf ≠ 0 ∧ length ≠ 0 ∧ buf.toNat + length.toNat ≤ 2 ^ s.cfg.addrW ∧
        t = { s with wr := enterWrite buf length timeout s })) := by
  unfold execWrite at h
  split at h
  · cases h
  · rename_i h0
    refine ⟨by simpa using h0, ?_⟩
    split at h
    · exact .inl (rejected_of (by decide) h)
    · split at h
      · exact .inl (rejected_of (by decide) h)
      · rename_i h1 h2
        split at h
        · cases h
        · rename_i h3
          have h2' := mt (sourceArgsBad_iff buf length).mpr h2
          have h3' : (Instr.write buf length timeout).wf s.cfg = true := by simpa using h3
          injection h with h
          exact .inr ⟨h1, fun x => h2' (.inl x), fun x => h2' (.inr x), (sourceRangeFits_iff _ _ _).mp h3', h.symm⟩

theorem execWriteNb_next {buf length : Word} {s t : State} (h : execWriteNb buf length s = .next t) :
    writeInFlight s = false ∧ (Rejected (.writeNb buf length) s t ∨
      (s.status ≠ .uninitialized ∧ ∃ r p r', s.rb = some r ∧ s.params = some p ∧
        pushSource s p.volume (min length.toNat (free r)) buf.toNat r = some r' ∧
        Completed (.writeNb buf length) (s.setRing r') t (toWord (min length.toNat (free r))) 0 0)) := by
  unfold execWriteNb at h
  split at h
  · cases h
  · rename_i h0
    refine ⟨by simpa using h0, ?_⟩
    split at h
    · exact .inl (rejected_of (by decide) h)
    · split at h
      · exact .inl (rejected_of (by decide) h)
      · rename_i h1 _
        split at h
        · cases h
        · obtain ⟨r, hr, h⟩ := withRing_next h
          obtain ⟨p, hp, h⟩ := withParams_next h
          simp only at h
          split at h
          · cases h
          · exact .inr ⟨h1, r, p, _, hr, hp, by assumption, done_next h⟩

theorem finishWrite_next {b : Bool} {s t : State} (h : finishWrite b s = .next t) :
    t = respond writeOp .ok s.wr.written (boolWord b) 0 { s with wr := { s.wr with phase := .none } } := done_next h

/-- Everything a step of `PROD` can be when it answers a next state (rules R138, R213 to R217). -/
theorem prodStep_next {s t : State} (h : prodStep s = .next t) :
    (s.wr.phase = .none ∧ s.wait = none ∧ t = s) ∨
    (s.wr.phase = .none ∧ ∃ w, s.wait = some w ∧ directTake w s = .next t) ∨
    (s.wr.phase = .waitClear ∧ ∃ r, s.rb = some r ∧
      t = { s with rb := some (clearPending r), wr := { s.wr with waitStart := s.now, phase := .waitTake } }) ∨
    (s.wr.phase = .waitTake ∧ ∃ r, s.rb = some r ∧
      ((r.sem = true ∧ t = { s with
          rb := some (takeSem r)
          wr := { s.wr with chunk := toWord (min s.wr.remaining.toNat (free r)), phase := .chunk } }) ∨
        (r.sem = false ∧ finishWrite true s = .next t) ∨ (r.sem = false ∧ t = s))) ∨
    (s.wr.phase = .chunk ∧ s.wr.chunk = 0 ∧ t = { s with wr := { s.wr with phase := .check } }) ∨
    (s.wr.phase = .chunk ∧ s.wr.chunk ≠ 0 ∧ ∃ r p r', s.rb = some r ∧ s.params = some p ∧
      ringPush r (scale s.cfg (memRead s s.wr.buf) p.volume) = some r' ∧
      t = { s with rb := some r', wr := advanceWrite s.cfg s.wr }) ∨
    (s.wr.phase = .check ∧ ((∃ b, finishWrite b s = .next t) ∨
      t = { s with wr := { s.wr with phase := .waitClear } })) := by
  unfold prodStep at h
  cases hp : s.wr.phase <;> simp only [hp] at h
  · cases hw : s.wait with
    | none => simp only [hw] at h; injection h with h; exact .inl ⟨rfl, rfl, h.symm⟩
    | some w => simp only [hw] at h; exact .inr (.inl ⟨rfl, w, rfl, h⟩)
  · obtain ⟨r, hr, h⟩ := withRing_next h
    injection h with h
    exact .inr (.inr (.inl ⟨rfl, r, hr, h.symm⟩))
  · obtain ⟨r, hr, h⟩ := withRing_next h
    refine .inr (.inr (.inr (.inl ⟨rfl, r, hr, ?_⟩)))
    split at h
    · rename_i h1; injection h with h; exact .inl ⟨h1, h.symm⟩
    · rename_i h1
      have h1' : r.sem = false := by simpa using h1
      split at h
      · exact .inr (.inl ⟨h1', h⟩)
      · injection h with h; exact .inr (.inr ⟨h1', h.symm⟩)
  · unfold chunkStep at h
    split at h
    · rename_i h1; injection h with h; exact .inr (.inr (.inr (.inr (.inl ⟨rfl, h1, h.symm⟩))))
    · rename_i h1
      obtain ⟨r, hr, h⟩ := withRing_next h
      obtain ⟨p, hpp, h⟩ := withParams_next h
      split at h
      · cases h
      · injection h with h
        exact .inr (.inr (.inr (.inr (.inr (.inl ⟨rfl, h1, r, p, _, hr, hpp, by assumption, h.symm⟩)))))
  · unfold checkStep at h
    refine .inr (.inr (.inr (.inr (.inr (.inr ⟨rfl, ?_⟩)))))
    split at h
    · exact .inl ⟨_, h⟩
    · split at h
      · exact .inl ⟨_, h⟩
      · injection h with h; exact .inr h.symm

/-! ### Lifecycle -/

theorem execInit_next {len : Word} {res sel gl gr : Byte} {s t : State} (h : execInit len res sel gl gr s = .next t) :
    Rejected (.init len res sel gl gr) s t ∨
    (s.status = .uninitialized ∧ s.rb = none ∧ resolutionInRange res = true ∧ Config.minCapacity ≤ len.toNat ∧
      len.toNat ≤ s.cfg.capMax ∧ (gpioAssigned s.cfg gl || gpioAssigned s.cfg gr) = true ∧
      Completed (.init len res sel gl gr) (initState res sel gl gr (freshRing len s.draws) s) t 0 0 0) := by
  unfold execInit at h
  simp only at h
  split at h
  · exact .inl (rejected_of (by decide) h)
  · rename_i h1
    split at h
    · exact .inl (rejected_of (by decide) h)
    · rename_i h2
      split at h
      · cases h
      · rename_i h3
        rcases createRing_cases len s with ⟨_, e⟩ | ⟨a, b, _, e⟩ <;> rw [e] at h
        · exact .inl (rejected_of (by decide) h)
        · simp only at h
          split at h
          · exact .inl (rejected_of (by decide) h)
          · rename_i h4
            split at h
            · exact .inl (rejected_of (by decide) h)
            · refine .inr ⟨by simpa using h1, by simpa using h3, by simpa using h2, a, b, ?_, done_next h⟩
              cases hl : gpioAssigned s.cfg gl <;> cases hr : gpioAssigned s.cfg gr <;> simp_all

theorem execDeinit_next {s t : State} (h : execDeinit s = .next t) :
    writeInFlight s = false ∧ ((s.status = .uninitialized ∧ Completed .deinit s t 0 0 0) ∨
      (s.status ≠ .uninitialized ∧ Completed .deinit (deinitState s) t 0 0 0)) := by
  unfold execDeinit at h
  split at h
  · cases h
  · rename_i h0
    refine ⟨by simpa using h0, ?_⟩
    split at h
    · rename_i h1; exact .inl ⟨h1, done_next h⟩
    · rename_i h1; exact .inr ⟨h1, done_next h⟩

theorem execSetParam_next {rate bits channels : Word} {s t : State} (h : execSetParam rate bits channels s = .next t) :
    Rejected (.setParam rate bits channels) s t ∨
    (s.status = .idle ∧ rateInRange rate = true ∧ bitsLegal bits = true ∧ channelsLegal channels = true ∧
      ∃ p, s.params = some p ∧ Completed (.setParam rate bits channels) { s with
        params := some { p with rate := rate, bits := bits, channels := channels }
        timer := reprogramAlarm s.cfg rate s.timer } t 0 0 0) := by
  unfold execSetParam at h
  cases hs : s.status <;> simp only [hs] at h
  · exact .inl (rejected_of (by decide) h)
  · split at h
    · exact .inl (rejected_of (by decide) h)
    · rename_i h1
      split at h
      · exact .inl (rejected_of (by decide) h)
      · rename_i h2
        split at h
        · exact .inl (rejected_of (by decide) h)
        · rename_i h3
          obtain ⟨p, hp, h⟩ := withParams_next h
          refine .inr ⟨rfl, by simpa using h1, by simpa using h2, by simpa using h3, p, hp, ?_⟩
          exact done_next h
  · exact .inl (rejected_of (by decide) h)

theorem execSetRate_next {rate : Word} {s t : State} (h : execSetRate rate s = .next t) :
    Rejected (.setRate rate) s t ∨
    (s.status ≠ .uninitialized ∧ rateInRange rate = true ∧ ∃ p, s.params = some p ∧
      Completed (.setRate rate)
        { s with params := some { p with rate := rate }, timer := reprogramAlarm s.cfg rate s.timer } t 0 0 0) := by
  unfold execSetRate at h
  simp only at h
  split at h
  · exact .inl (rejected_of (by decide) h)
  · rename_i h0
    split at h
    · exact .inl (rejected_of (by decide) h)
    · rename_i h1
      obtain ⟨p, hp, h⟩ := withParams_next h
      exact .inr ⟨h0, by simpa using h1, p, hp, done_next h⟩

theorem execSetVol_next {v : Word} {s t : State} (h : execSetVol v s = .next t) :
    Rejected (.setVol v) s t ∨
    (s.status ≠ .uninitialized ∧ volumeInRange s.cfg v = true ∧ ∃ p, s.params = some p ∧
      Completed (.setVol v) (s.setParams { p with volume := storedVolume s.cfg v }) t 0 0 0) := by
  unfold execSetVol at h
  simp only at h
  split at h
  · exact .inl (rejected_of (by decide) h)
  · rename_i h0
    split at h
    · exact .inl (rejected_of (by decide) h)
    · rename_i h1
      obtain ⟨p, hp, h⟩ := withParams_next h
      exact .inr ⟨h0, by simpa using h1, p, hp, done_next h⟩

theorem execGetVol_next {s t : State} (h : execGetVol s = .next t) :
    Rejected .getVol s t ∨ ∃ r1, Completed .getVol s t r1 0 0 := by
  unfold execGetVol at h
  split at h
  · exact .inl (rejected_of (by decide) h)
  · obtain ⟨p, _, h⟩ := withParams_next h
    exact .inr ⟨_, done_next h⟩

theorem execGetParam_next {s t : State} (h : execGetParam s = .next t) :
    Rejected .getParam s t ∨ ∃ r1 r2 r3, Completed .getParam s t r1 r2 r3 := by
  unfold execGetParam at h
  split at h
  · exact .inl (rejected_of (by decide) h)
  · obtain ⟨p, _, h⟩ := withParams_next h
    exact .inr ⟨_, _, _, done_next h⟩

theorem execGetStatus_next {s t : State} (h : execGetStatus s = .next t) :
    Rejected .getStatus s t ∨ ∃ r1, Completed .getStatus s t r1 0 0 := by
  unfold execGetStatus at h
  split at h
  · exact .inl (rejected_of (by decide) h)
  · exact .inr ⟨_, done_next h⟩

theorem execStart_next {s t : State} (h : execStart s = .next t) :
    Rejected .start s t ∨ (s.status = .idle ∧
      Completed .start { s with timer := { s.timer with run := true, inten := true }, status := .busy } t 0 0 0) := by
  unfold execStart at h
  cases hs : s.status <;> simp only [hs] at h
  · exact .inl (rejected_of (by decide) h)
  · exact .inr ⟨rfl, done_next h⟩
  · exact .inl (rejected_of (by decide) h)

theorem execStop_next {s t : State} (h : execStop s = .next t) :
    writeInFlight s = false ∧ (Rejected .stop s t ∨ (s.status = .busy ∧ ∃ r, s.rb = some r ∧
      Completed .stop { s with
        timer := { s.timer with run := false, inten := false }
        rb := some (ringFlush r)
        status := .idle } t 0 0 0)) := by
  unfold execStop at h
  split at h
  · cases h
  · rename_i h0
    refine ⟨by simpa using h0, ?_⟩
    cases hs : s.status <;> simp only [hs] at h
    · exact .inl (rejected_of (by decide) h)
    · exact .inl (rejected_of (by decide) h)
    · obtain ⟨r, hr, h⟩ := withRing_next h
      exact .inr ⟨rfl, r, hr, done_next h⟩

end Sys2Proof.Machine
end

