-- ==== Sys2Proof/Laws/PerInstr.lean ====
section
/-! SUPPORT. Facts about every operation as syntax, one lemma per constructor. Family OpField: the encoder puts the operation number, and nothing else, into `W0`. -/

namespace Sys2Proof.Laws.OpField

/-- The encoding's `W0` has its zero field 0 and carries the operation number (R101). -/
def Statement (i : Instr) : Prop := zeroFrom 8 (encode i).w0 = true ∧ (encode i).op = i.op

theorem of_op (i : Instr) : Statement i := (w0_eq_iff (encode i) i.op).mp rfl

theorem init (ringbufLen : Word) (resolution timerSel gpioLeft gpioRight : Byte) :
    Statement (.init ringbufLen resolution timerSel gpioLeft gpioRight) := of_op _
theorem deinit : Statement .deinit := of_op _
theorem setParam (rate bits channels : Word) : Statement (.setParam rate bits channels) := of_op _
theorem setRate (rate : Word) : Statement (.setRate rate) := of_op _
theorem setVol (v : Word) : Statement (.setVol v) := of_op _
theorem getVol : Statement .getVol := of_op _
theorem start : Statement .start := of_op _
theorem stop : Statement .stop := of_op _
theorem getStatus : Statement .getStatus := of_op _
theorem getParam : Statement .getParam := of_op _
theorem write (buf length timeout : Word) : Statement (.write buf length timeout) := of_op _
theorem writeNb (buf length : Word) : Statement (.writeNb buf length) := of_op _
theorem rbCreate (capacity : Word) : Statement (.rbCreate capacity) := of_op _
theorem rbDestroy : Statement .rbDestroy := of_op _
theorem rbOccupied : Statement .rbOccupied := of_op _
theorem rbFree : Statement .rbFree := of_op _
theorem rbRead : Statement .rbRead := of_op _
theorem rbWrite (b : Byte) : Statement (.rbWrite b) := of_op _
theorem rbFlush : Statement .rbFlush := of_op _
theorem rbSignal : Statement .rbSignal := of_op _
theorem rbWait (timeout : Word) : Statement (.rbWait timeout) := of_op _
theorem setDuty (channel : Channel) (value : Byte) : Statement (.setDuty channel value) := of_op _
theorem alarm : Statement .alarm := of_op _
theorem latch (channel : Channel) : Statement (.latch channel) := of_op _

end Sys2Proof.Laws.OpField
end

