-- ==== Sys2Proof/Tests/Slice0.lean ====
section
/-! SUPPORT. Tests: expected results are those of 95_test_vectors.md; and one witness for the hypotheses of each statement. -/

namespace Sys2Proof.Tests

open Sys2Proof Sys2Proof.Machine

/-! ### Small states -/

/-- A ring of 1024 cells. -/
def ring (head tail : Word) (pending sem : Bool) (mem : Memory) : RingBuffer :=
  { size := 1024, head := head, tail := tail, pending := pending, sem := sem, mem := mem, fill := 0 }

/-- After `INIT 1024, 8, 0, 25, none`, with the ring given. -/
def idle (r : RingBuffer) : State := (initState 8 0 25 0xFF r State.reset).setRing r

/-- The same after `START`. -/
def busy (r : RingBuffer) : State :=
  { idle r with status := .busy, timer := { (idle r).timer with run := true, inten := true } }

/-- `IDLE` with a `WRITE` in flight in phase `phase`: 4 bytes left, 2 of them in the chunk, entered at tick 1000 with
timeout 5. -/
def writing (phase : Phase) (now : Nat) (r : RingBuffer) : State :=
  { idle r with
    now := now
    source := { bytes := [(0x1000, 0x80), (0x1001, 0x81)], fill := 0 }
    wr :=
      { phase := phase, buf := 0x1000, remaining := 4, written := 3, timeout := 5, start := 1000, waitStart := 1000,
        chunk := 2 } }

/-- A source buffer that lists nothing. -/
def noBytes : SourceBuffer := { bytes := [], fill := 0 }

/-- An empty ring, nothing posted. -/
def empty : RingBuffer := ring 0 0 false false []

/-- One byte, `0x80` at 1, waits in the ring. -/
def oneByte : RingBuffer := ring 2 1 false false [(1, 0x80)]

/-- A full ring. -/
def full : RingBuffer := ring 1023 0 false false []

/-- The state an outcome goes on in. -/
def after (o : Result) : Option State :=
  match o with
  | .next t => some t
  | .fault _ => none
  | .refused _ => none

/-- The last event of an outcome's history. -/
def lastEvent (o : Result) : Option Event := (after o).bind fun t => t.events.getLast?

/-- The fault of an outcome. -/
def faultOf (o : Result) : Option Fault :=
  match o with
  | .next _ => none
  | .fault f => some f
  | .refused _ => none

/-- The refusal of an outcome. -/
def refusalOf (o : Result) : Option Refusal :=
  match o with
  | .next _ => none
  | .fault _ => none
  | .refused r => some r

/-- What the decoder gives, as an option. -/
def dec (w0 a b c : Word) : Option Instr := (decode ⟨w0, a, b, c⟩).toOption

/-- How the decoder refuses. -/
def decErr (w0 a b c : Word) : Option DecodeError :=
  match decode ⟨w0, a, b, c⟩ with
  | .ok _ => none
  | .error e => some e

/-! ### WellFormed: the one check refuses an ill-formed term -/

theorem test_wf_refuses_wrapping_write : (Instr.write 0xFFFFFFFE 4 0).wf Config.defaults = false := by decide
theorem test_wf_refuses_wrapping_write_nb : (Instr.writeNb 0xFFFFFFFF 2).wf Config.defaults = false := by decide
theorem test_wf_accepts_up_to_the_top : (Instr.write 0xFFFFFFFE 2 0).wf Config.defaults = true := by decide

/-- With `ADDR_W = 16` the top of the source space is `0xFFFF`. -/
theorem test_wf_follows_addr_w :
    (Instr.writeNb 0xFFFE 3).wf { Config.defaults with addrW := 16 } = false ∧
      (Instr.writeNb 0xFFFE 2).wf { Config.defaults with addrW := 16 } = true := by decide

/-! ### Decoding: the words of 95_test_vectors.md section 2.1, written out from rules R101 to R106 -/

theorem test_decode_init : dec 0x00000001 0x00001000 0x00000008 0x0000FF19 = some (.init 4096 8 0 25 0xFF) := by decide
theorem test_decode_init_two_channels :
    dec 0x00000001 0x00000400 0x0000010A 0x00001A19 = some (.init 1024 10 1 25 26) := by decide
theorem test_decode_deinit : dec 0x00000002 0 0 0 = some .deinit := by decide
theorem test_decode_set_param : dec 0x00000003 0x0000AC44 0x00000010 2 = some (.setParam 44100 16 2) := by decide
theorem test_decode_set_rate : dec 0x00000004 0x0000BB80 0 0 = some (.setRate 48000) := by decide
theorem test_decode_set_vol : dec 0x00000005 0xFFFFFFF0 0 0 = some (.setVol (-16)) := by decide
theorem test_decode_get_vol : dec 0x00000006 0 0 0 = some .getVol := by decide
theorem test_decode_start : dec 0x00000007 0 0 0 = some .start := by decide
theorem test_decode_stop : dec 0x00000008 0 0 0 = some .stop := by decide
theorem test_decode_get_status : dec 0x00000009 0 0 0 = some .getStatus := by decide
theorem test_decode_get_param : dec 0x0000000A 0 0 0 = some .getParam := by decide
theorem test_decode_write : dec 0x00000010 0x1000 0x3E80 0x3E8 = some (.write 0x1000 16000 1000) := by decide
theorem test_decode_write_nb : dec 0x00000011 0x2000 5 0 = some (.writeNb 0x2000 5) := by decide
theorem test_decode_rb_create : dec 0x00000020 0x400 0 0 = some (.rbCreate 1024) := by decide
theorem test_decode_rb_destroy : dec 0x00000021 0 0 0 = some .rbDestroy := by decide
theorem test_decode_rb_occupied : dec 0x00000022 0 0 0 = some .rbOccupied := by decide
theorem test_decode_rb_free : dec 0x00000023 0 0 0 = some .rbFree := by decide
theorem test_decode_rb_read : dec 0x00000024 0 0 0 = some .rbRead := by decide
theorem test_decode_rb_write : dec 0x00000025 0x55 0 0 = some (.rbWrite 0x55) := by decide
theorem test_decode_rb_flush : dec 0x00000026 0 0 0 = some .rbFlush := by decide
theorem test_decode_rb_signal : dec 0x00000027 0 0 0 = some .rbSignal := by decide
theorem test_decode_rb_wait : dec 0x00000028 5 0 0 = some (.rbWait 5) := by decide
theorem test_decode_set_duty : dec 0x00000030 1 0xFF 0 = some (.setDuty .right 0xFF) := by decide
theorem test_decode_alarm : dec 0x00000040 0 0 0 = some .alarm := by decide
theorem test_decode_latch : dec 0x00000041 1 0 0 = some (.latch .right) := by decide

theorem test_decode_refuses_op_zero : decErr 0 0 0 0 = some .reservedOp := by decide
theorem test_decode_refuses_reserved_op : decErr 0x0B 0 0 0 = some .reservedOp := by decide
theorem test_decode_refuses_high_bits_of_w0 : decErr 0x107 0 0 0 = some .zeroField := by decide
theorem test_decode_refuses_set_duty_channel_two : decErr 0x30 2 0x80 0 = some .operandBits := by decide
theorem test_decode_refuses_wide_byte : decErr 0x25 0x155 0 0 = some .operandBits := by decide
theorem test_decode_refuses_init_high_bits : decErr 1 0x1000 0x10008 0xFF19 = some .operandBits := by decide
theorem test_decode_ignores_unused_words : dec 7 1 2 3 = some .start := by decide

/-- `WRITE_NB buf=0x2000, length=5` as a 96-bit table word: `W0` in bits 31:0, `A` in 63:32, `B` in 95:64. -/
theorem test_table_word : decodeTableWord 96 0x000000050000200000000011 = some (.writeNb 0x2000 5) := by decide

/-! ### Ports (R109, R114) -/

/-- `START` on the data port is answered `0xFF 0 0 0`. -/
theorem test_wrong_port : lastEvent (issue .data ⟨7, 0, 0, 0⟩ noBytes (idle empty)) = some (.resp 7 0xFF 0 0 0) := by decide

/-- An event code on a command port is answered `0xFF 0 0 0`. -/
theorem test_event_code_on_command_port :
    lastEvent (issue .control ⟨0x40, 0, 0, 0⟩ noBytes (idle empty)) = some (.resp 0x40 0xFF 0 0 0) := by decide

/-! ### Ring buffer (section 2.2) -/

theorem test_rb_create : (after (exec (.rbCreate 1024) State.reset)).bind (·.rb) = some empty := by decide
theorem test_rb_create_too_small : lastEvent (exec (.rbCreate 1023) State.reset) = some (.resp 0x20 5 0 0 0) := by decide
/-- Rule R22: no ring is larger than `CAP_MAX`. -/
theorem test_rb_create_above_cap_max :
    lastEvent (exec (.rbCreate 2049) { State.reset with cfg := { Config.defaults with capMax := 2048 } }) =
      some (.resp 0x20 5 0 0 0) := by decide
theorem test_rb_destroy_without_ring : lastEvent (exec .rbDestroy State.reset) = some (.resp 0x21 0 0 0 0) := by decide
theorem test_rb_occupied_wrapped :
    lastEvent (exec .rbOccupied (idle (ring 5 1000 false false []))) = some (.resp 0x22 0 29 0 0) := by decide
theorem test_rb_free_wrapped :
    lastEvent (exec .rbFree (idle (ring 5 1000 false false []))) = some (.resp 0x23 0 994 0 0) := by decide
theorem test_rb_free_full : lastEvent (exec .rbFree (idle full)) = some (.resp 0x23 0 0 0 0) := by decide
theorem test_rb_read : lastEvent (exec .rbRead (idle oneByte)) = some (.resp 0x24 0 128 0 0) := by decide
theorem test_rb_read_wraps :
    (after (exec .rbRead (idle (ring 0 1023 false false [(1023, 9)])))).bind (·.rb) =
      some (ring 0 0 false false [(1023, 9)]) := by decide
theorem test_rb_write_wraps :
    (after (exec (.rbWrite 0x55) (idle (ring 1023 1 false false [])))).bind (·.rb) =
      some (ring 0 1 false false [(1023, 0x55)]) := by decide
theorem test_rb_write_full :
    lastEvent (exec (.rbWrite 0x66) (idle (ring 0 1 false false []))) = some (.resp 0x25 8 0 0 0) := by decide
theorem test_rb_flush_keeps_flags :
    (after (exec .rbFlush (idle (ring 700 30 true true [])))).bind (·.rb) = some (ring 0 0 true true []) := by decide
theorem test_rb_signal_at_watermark :
    lastEvent (exec .rbSignal (idle (ring 767 0 false false []))) = some (.resp 0x27 0 0 0 0) := by decide
theorem test_rb_signal_above_watermark :
    (after (exec .rbSignal (idle (ring 767 1 false false [])))).map (·.events) =
      some [.post false, .resp 0x27 0 1 0 0] := by decide

/-- The state of a directly driven `RB_WAIT 5` after its first step at tick 40, seen at tick `now`. -/
def waiting (now : Nat) (r : RingBuffer) : State :=
  { idle r with now := now, wait := some { timeout := 5, start := 40, atTake := false } }

theorem test_rb_wait_clears_pending :
    (after (exec (.rbWait 5) (idle (ring 0 0 true true [])))).bind (·.rb) = some (ring 0 0 false true []) := by decide
/-- Across one wrap of a tick counter of 8 bits: 2 - 254 is 4 modulo 256 (R224 (6)). -/
theorem test_elapsed_wraps : elapsed { Config.defaults with tickW := 8 } 2 254 = 4 := by decide
theorem test_tick_wraps :
    (after (tickStep { State.reset with now := 2 ^ 32 - 1 })).map (·.now) = some 0 := by decide
theorem test_rb_wait_times_out : lastEvent (prodStep (waiting 45 empty)) = some (.resp 0x28 9 0 0 0) := by decide
/-- R138 with a tick counter of 8 bits: the operand 300 is kept whole, and no difference of ticks reaches it. -/
theorem test_rb_wait_keeps_a_wide_timeout :
    (after (exec (.rbWait 300) { idle empty with cfg := { Config.defaults with tickW := 8 } })).bind (·.wait) =
        some { timeout := 300, start := 0, atTake := false } ∧
      waitExpired { Config.defaults with tickW := 8 } 255 0 300 = false := by decide

/-! ### Sample clock (section 2.3) -/

theorem test_alarm_of :
    (alarmOf Config.defaults 8000, alarmOf Config.defaults 16000, alarmOf Config.defaults 48000) = (625, 312, 104) := by
  decide
theorem test_alarm_plays_a_byte :
    (after (exec .alarm (busy oneByte))).map (·.events) =
      some [.duty .left 0x800, .alarm (.byte 0x80), .post false] := by decide
theorem test_alarm_underrun_posts :
    (after (exec .alarm (busy empty))).map (·.events) = some [.alarm .underrun, .post false] := by decide
theorem test_alarm_without_handle : lastEvent (exec .alarm State.reset) = some (.alarm .noHandle) := by decide
theorem test_count_reaches_alarm :
    (after (countStep { busy empty with timer := { (busy empty).timer with cnt := 311 } })).map (·.timer.cnt) =
      some 0 := by decide

/-! ### Duty driver (section 2.4) -/

theorem test_set_duty_right :
    (after (exec (.setDuty .right 0x80) (idle empty))).map (fun t => (t.chan.right.dutyReg, t.chan.left.dutyReg)) =
      some (2048, 0) := by decide
theorem test_latch_applies :
    (after (exec (.latch .left) { idle empty with
      chan := { (idle empty).chan with left := { (idle empty).chan.left with dutyReg := 0x800, upd := true } } })).map
      (fun t => (t.chan.left.dutyAct, t.chan.left.upd, t.events)) = some (0x800, false, [.latch .left 0x800]) := by decide
theorem test_latch_without_request : (after (exec (.latch .left) (idle empty))).map (·.events) = some [] := by decide

/-! ### Producer write path (section 2.5) -/

theorem test_scale_rounds_down : scale Config.defaults 127 8 = 63 := by decide
theorem test_scale_wraps : scale Config.defaults 171 24 = 0 := by decide
theorem test_write_entry_errors :
    (lastEvent (exec (.write 0 4 10) State.reset), lastEvent (exec (.write 0 4 10) (idle empty))) =
      (some (.resp 0x10 1 0 0 0), some (.resp 0x10 4 0 0 0)) := by decide
theorem test_write_refused_past_the_top :
    refusalOf (exec (.write 0xFFFFFFFE 4 0) (idle empty)) = some .sourceRangeWraps := by decide
theorem test_write_take_sizes_the_chunk :
    (after (prodStep (writing .waitTake 1000 (ring 1022 1 false true [])))).map (fun t => (t.wr.chunk, t.wr.phase)) =
      some (2, .chunk) := by decide
theorem test_write_chunk_step :
    (after (prodStep (writing .chunk 1000 empty))).bind (·.rb) = some (ring 1 0 false false [(0, 0x80)]) := by decide
theorem test_write_check_at_the_deadline :
    (after (prodStep (writing .check 1005 empty))).map (·.wr.phase) = some .waitClear := by decide
theorem test_write_check_past_the_deadline :
    lastEvent (prodStep (writing .check 1006 empty)) = some (.resp 0x10 0 3 1 0) := by decide

/-- `free = 3`, `WRITE_NB buf, 5` at 0 dB: three bytes queued (here: the 3 free cells before `tail`, across the wrap). -/
theorem test_write_nb_queues_three :
    (after (exec (.writeNb 0x1000 5) { idle (ring 1022 2 false true []) with
      source := { bytes := [(0x1000, 1), (0x1001, 2), (0x1002, 3)], fill := 0 } })).map (fun t => (t.rb, t.events)) =
      some (some (ring 1 2 false true [(0, 3), (1022, 1), (1023, 2)]), [.resp 0x11 0 3 0 0]) := by decide
/-- A `WRITE_NB` that arrives reads the buffer it brings, not the one before it (R72, D16). -/
theorem test_write_nb_brings_its_buffer :
    (after (step { writing .none 1000 empty with
      agenda := [.command .data ⟨0x11, 0x1000, 1, 0⟩ ⟨true, true⟩ { bytes := [(0x1000, 0x42)], fill := 0 }] })).bind
      (·.rb) = some (ring 1 0 false false [(0, 0x42)]) := by decide

/-- While a `WRITE` is in flight its buffer stays (R354). -/
theorem test_write_in_flight_keeps_its_buffer :
    (supplySource (.writeNb 1 1) noBytes (writing .chunk 1000 empty)).source = (writing .chunk 1000 empty).source := by
  decide
theorem test_write_nb_full : lastEvent (exec (.writeNb 0x1000 5) (idle full)) = some (.resp 0x11 0 0 0 0) := by decide

/-! ### Lifecycle (section 2.6) -/

theorem test_init :
    (after (exec (.init 4096 8 0 25 0xFF) State.reset)).map
      (fun t => (t.status, t.chMask, t.timer.alarm, t.params.map (fun p => (p.volume, p.carrierHz)))) =
      some (.idle, 1, 312, some (16, 312000)) := by decide
theorem test_init_resolution_before_length :
    lastEvent (exec (.init 1023 7 0 25 0xFF) State.reset) = some (.resp 1 4 0 0 0) := by decide
theorem test_deinit_returns_to_power_on :
    (after (exec .deinit (busy empty))).map (fun t => { t with events := [], draws := 0 }) = some State.reset := by decide
/-- Vector 2.6: after `DEINIT` only `now` and the history differ from power-on, also after a finished `WRITE`. -/
theorem test_deinit_after_a_write :
    (after (exec .deinit (writing .none 1000 empty))).map (·.wr) = some State.reset.wr := by decide
theorem test_set_param :
    (after (exec (.setParam 8000 32 2) (idle empty))).map (·.timer.alarm) = some 625 := by decide
theorem test_set_param_state_before_arguments :
    lastEvent (exec (.setParam 1 1 1) (busy empty)) = some (.resp 3 3 0 0 0) := by decide
theorem test_set_rate_while_busy :
    (after (exec (.setRate 8000) (busy empty))).map (fun t => (t.timer.alarm, t.status)) = some (625, .busy) := by decide
theorem test_set_rate_out_of_range :
    lastEvent (exec (.setRate 48001) (idle empty)) = some (.resp 4 4 0 0 0) := by decide
theorem test_set_vol_lowest :
    ((after (exec (.setVol 0xFFFFFFF0) (idle empty))).bind (·.params)).map (·.volume) = some 0 := by decide
theorem test_set_vol_too_low : lastEvent (exec (.setVol 0xFFFFFFEF) (idle empty)) = some (.resp 5 4 0 0 0) := by decide
theorem test_get_vol_after_init : lastEvent (exec .getVol (idle empty)) = some (.resp 6 0 0 0 0) := by decide
theorem test_start_twice : lastEvent (exec .start (busy empty)) = some (.resp 7 3 0 0 0) := by decide
theorem test_stop_keeps_count_and_flags :
    (after (exec .stop { busy (ring 700 30 true true []) with
      timer := { (busy empty).timer with cnt := 100 } })).map (fun t => (t.status, t.timer.cnt, t.timer.run, t.rb)) =
      some (.idle, 100, false, some (ring 0 0 true true [])) := by decide
theorem test_get_status_busy : lastEvent (exec .getStatus (busy empty)) = some (.resp 9 0 2 0 0) := by decide
theorem test_get_param_after_init : lastEvent (exec .getParam (idle empty)) = some (.resp 0xA 0 16000 8 2) := by decide

/-! ### Stops (section 2.8) -/

theorem test_absent_ring : faultOf (exec .rbOccupied State.reset) = some .absentRing := by decide
theorem test_second_ring : faultOf (exec (.rbCreate 1024) (idle empty)) = some .ringExists := by decide
theorem test_flush_while_busy : faultOf (exec .rbFlush (busy empty)) = some .cursorRace := by decide
theorem test_stop_inside_a_write : faultOf (exec .stop (writing .waitTake 1000 empty)) = some .cursorRace := by decide
theorem test_second_producer :
    faultOf (exec (.writeNb 0x1000 1) (writing .chunk 1000 empty)) = some .secondProducer := by decide

/-! ### Placing and running a table word -/

theorem test_placed_word_runs :
    lastEvent (step (State.reset.withFetchWord 32 0x00000009)) = some (.resp 9 1 0 0 0) := by decide

/-! ### Witnesses: states and operands that meet the hypotheses of the statements -/

theorem ring_ok {head tail : Word} (h1 : head.toNat < 1024) (h2 : tail.toNat < 1024) (pending sem : Bool) {mem : Memory}
    (h3 : mem.wf) (h4 : ∀ c ∈ mem, c.1 < 1024) : (ring head tail pending sem mem).Ok :=
  ⟨by show 1024 ≤ (1024 : Word).toNat; decide, h1, h2, h3, h4⟩

theorem empty_ok : empty.Ok := ring_ok (by decide) (by decide) _ _ (by decide) (by decide)
theorem oneByte_ok : oneByte.Ok := ring_ok (by decide) (by decide) _ _ (by decide) (by decide)
theorem full_ok : full.Ok := ring_ok (by decide) (by decide) _ _ (by decide) (by decide)

/-- The default configuration is legal: every hypothesis `Legal` of the statements. -/
theorem witness_legal : Config.defaults.Legal := by decide

/-- An illegal configuration: the alarm value of 48000 Hz would be 0. -/
theorem witness_illegal : ¬ Config.Legal { Config.defaults with timerDivider := 80000000 } := by decide

theorem witness_StepRunsTheArrivingCommand :
    (idle empty).cfg.Legal ∧ decode ⟨0x11, 0x2000, 5, 0⟩ = .ok (.writeNb 0x2000 5) ∧
      portAllows .data (.writeNb 0x2000 5) = true ∧ dataPortBusy (idle empty) = false := by decide

theorem witness_PlacedTableWordRunsNext :
    State.reset.cfg.Legal ∧ decodeTableWord 32 9 = some .getStatus ∧ dataPortBusy State.reset = false := by decide

/-- One command that decodes and stands on the wrong port; a reserved number has no `i` at all. -/
theorem witness_IllegalCommandIsAnsweredBadCommand :
    (∀ i, decode ⟨7, 0, 0, 0⟩ = .ok i → portAllows .data i = false) ∧
      (∀ i, decode ⟨0x0B, 0, 0, 0⟩ = .ok i → portAllows .control i = false) := by
  refine ⟨fun i h => ?_, fun i h => ?_⟩
  · have e : decode ⟨7, 0, 0, 0⟩ = .ok .start := by decide
    rw [e] at h
    injection h with h
    subst h
    decide
  · have e : decode ⟨0x0B, 0, 0, 0⟩ = .error .reservedOp := by decide
    rw [e] at h
    cases h

/-- An agenda for each of the five clauses. -/
theorem witness_AgentsTakeTheirTurns :
    State.reset.cfg.Legal ∧ State.reset.agenda = [] ∧
      ∀ g : Agent, ({ State.reset with agenda := [.turn g] } : State).agenda = .turn g :: [] := ⟨by decide, rfl, fun _ => rfl⟩

/-- Busy with a `WRITE`, and busy with a directly driven `RB_WAIT`. -/
theorem witness_BusyDataPort :
    dataPortBusy (writing .check 1000 empty) = true ∧ dataPortBusy (waiting 40 empty) = true ∧
      decode ⟨0x25, 0x55, 0, 0⟩ = .ok (.rbWrite 0x55) ∧ portAllows .data (.rbWrite 0x55) = true := by decide

/-- Capacities 1023 and 1024 stand on the two sides; the draws give the third clause. -/
theorem witness_RbCreateMakesAnEmptyRingOrFails :
    consumerActive State.reset = false ∧ State.reset.rb = none ∧ (1023 : Word).toNat < 1024 ∧
      State.reset.cfg.capMax = 2 ^ 32 - 1 ∧ (1024 : Word).toNat ≤ State.reset.cfg.capMax ∧
      ({ State.reset with cfg := { Config.defaults with capMax := 2048 } } : State).cfg.capMax < (2049 : Word).toNat ∧
      1024 ≤ (1024 : Word).toNat ∧ State.reset.env.allocOk = true ∧
      ({ State.reset with env := { allocOk := false, hwOk := true } } : State).env.allocOk = false := by decide

theorem witness_RbDestroyLeavesNoRing :
    consumerActive (idle empty) = false ∧ writeInFlight (idle empty) = false := by decide

theorem witness_OccupancyQueries : (idle full).rb = some full ∧ full.Ok := ⟨rfl, full_ok⟩

/-- `head = tail` and `head ≠ tail`, the byte at the last cell. -/
theorem witness_RbReadPopsTheByteAtTailOrAnswersEmpty :
    (idle empty).timer.run = false ∧ (idle empty).rb = some empty ∧ empty.Ok ∧ empty.head = empty.tail ∧
      (idle (ring 0 1023 false false [])).timer.run = false ∧ (ring 0 1023 false false []).Ok ∧
      (ring 0 1023 false false []).head ≠ (ring 0 1023 false false []).tail :=
  ⟨by decide, rfl, empty_ok, by decide, by decide, ring_ok (by decide) (by decide) _ _ (by decide) (by decide), by decide⟩

/-- A full ring, and one with one free cell, `head` at the last cell. -/
theorem witness_RbWriteStoresAtHeadOrAnswersFull :
    writeInFlight (idle full) = false ∧ full.Ok ∧ (full.head.toNat + 1) % full.size.toNat = full.tail.toNat ∧
      (ring 1023 1 false false []).Ok ∧
      ((ring 1023 1 false false []).head.toNat + 1) % (ring 1023 1 false false []).size.toNat ≠
        (ring 1023 1 false false []).tail.toNat :=
  ⟨by decide, full_ok, by decide, ring_ok (by decide) (by decide) _ _ (by decide) (by decide), by decide⟩

theorem witness_RbFlushZeroesBothCursors :
    consumerActive (idle oneByte) = false ∧ writeInFlight (idle oneByte) = false ∧ (idle oneByte).rb = some oneByte := by
  decide

/-- Free space 257, 256, and 1023 with a pending signal. -/
theorem witness_RbSignalPostsAboveTheWatermark :
    (Config.defaults.watermark < free (ring 767 1 false false []) ∧ (ring 767 1 false false []).pending = false) ∧
      free (ring 767 0 false false []) ≤ Config.defaults.watermark ∧ (ring 0 0 true false []).pending = true ∧
      (idle (ring 767 1 false false [])).rb = some (ring 767 1 false false []) := by decide

/-- Posted; expired at 45; not yet at 44. -/
theorem witness_RbWaitClearsThenTakesOrTimesOut :
    (waiting 45 empty).wr.phase = .none ∧ (waiting 45 empty).rb = some empty ∧ (ring 0 0 false true []).sem = true ∧
      empty.sem = false ∧ (5 : Int) ≤ ((45 : Nat) - (40 : Nat) : Int) % 2 ^ Config.defaults.tickW ∧
      ((44 : Nat) - (40 : Nat) : Int) % 2 ^ Config.defaults.tickW < 5 := by decide

/-- A `RB_WRITE` that is answered `OK`, and a queue with a byte in it. -/
theorem witness_RingIsAFirstInFirstOutQueue :
    (∃ t, Answers (.rbWrite 0x55) (idle empty) t 0 0 0 0) ∧ oneByte.contents = [0x80] ∧ oneByte.Ok ∧
      (idle oneByte).timer.run = false ∧ writeInFlight (idle empty) = false :=
  ⟨⟨_, rfl, rfl⟩, by decide, oneByte_ok, by decide, by decide⟩

theorem witness_RingHoldsAtMostSizeMinusOneBytes :
    writeInFlight (idle full) = false ∧ (idle full).rb = some full ∧ full.Ok ∧ occupied full = 1023 :=
  ⟨by decide, rfl, full_ok, by decide⟩

/-- With a byte and a post, with a byte and no post (free space 255 before), and an underrun of each kind. -/
theorem witness_AlarmServesExactlyOneByte :
    State.reset.handle = false ∧ (busy oneByte).handle = true ∧ oneByte.Ok ∧ oneByte.head ≠ oneByte.tail ∧
      Config.defaults.watermark < free oneByte + 1 ∧ oneByte.pending = false ∧
      (ring 1023 255 false false []).Ok ∧ free (ring 1023 255 false false []) + 1 ≤ Config.defaults.watermark ∧
      empty.head = empty.tail ∧ Config.defaults.watermark < free empty ∧ empty.pending = false ∧
      (ring 0 0 true false []).pending = true :=
  ⟨by decide, by decide, oneByte_ok, by decide, by decide, by decide,
    ring_ok (by decide) (by decide) _ _ (by decide) (by decide), by decide, by decide, by decide, by decide, by decide⟩

theorem witness_UnderrunHoldsTheLastDuty :
    (busy empty).handle = true ∧ (busy empty).rb = some empty ∧ empty.head = empty.tail := by decide

theorem witness_AlarmNeverTouchesTheOtherChannel :
    Channel.right ≠ (busy oneByte).cfg.primaryCh ∧ (after (exec .alarm (busy oneByte))).isSome = true := by decide

/-- 311 counts from 0 stay below 312; one count from 311 reaches it, with the interrupt enabled; paused, and not claimed. -/
theorem witness_AlarmComesAfterExactlyItsCount :
    (busy empty).cfg.Legal ∧ timerCounts (busy empty).timer = true ∧ (busy empty).timer.countdown = none ∧
      (busy empty).timer.cnt + 311 < (busy empty).timer.alarm ∧ (busy empty).timer.inten = true ∧
      311 + 1 = (busy empty).timer.alarm ∧ (busy empty).timer.alarm < 2 ^ (busy empty).cfg.tcntW ∧
      (idle empty).timer.run = false ∧ State.reset.timer.claimed = false := by decide

/-- `SET_RATE 48000` at the count 200: the alarm value 104 is below the count; and 3 counts left of a drawn number. -/
theorem witness_CountPastTheAlarmIsADraw :
    (busy empty).cfg.Legal ∧ timerCounts (busy empty).timer = true ∧ (busy empty).timer.countdown = none ∧
      alarmOf Config.defaults 48000 ≤ 200 ∧
      timerCounts { (busy empty).timer with countdown := some 3 } = true := by decide

theorem witness_AlarmValueThatFitsIsTheFormulas :
    Config.defaults.Legal ∧ 8000 ≤ (8000 : Word).toNat ∧ (48000 : Word).toNat ≤ 48000 ∧
      Config.defaults.timerBaseClock / Config.defaults.timerDivider / (8000 : Word).toNat < 2 ^ Config.defaults.tcntW := by
  decide

theorem witness_SetDutyWritesTheShiftedSample : (idle empty).cfg.Legal ∧ Channel.right ≠ Channel.left := by decide

/-- The left channel is configured and waits after `SET_DUTY`; the right one is not configured. -/
theorem witness_LatchAppliesAWaitingDuty :
    ((applyDuty .left 0x80 (idle empty)).channel .left).mask = true ∧
      ((applyDuty .left 0x80 (idle empty)).channel .left).upd = true ∧
      ((idle empty).channel .right).mask = false ∧ ((idle empty).channel .left).upd = false := by decide

theorem witness_LatchedSampleDrivesThePin :
    (idle empty).cfg.Legal ∧ (idle empty).params.isSome = true ∧ ((idle empty).channel .left).mask = true ∧
      ((idle empty).channel .left).pin = .output ∧ (after (exec (.setDuty .left 0x80) (idle empty))).isSome = true ∧
      (after (exec (.latch .left) (applyDuty .left 0x80 (idle empty)))).isSome = true := by decide

/-- Before `INIT`; a null buffer and a zero length; the last range that fits. -/
theorem witness_WriteEntryTestsThenStartsTheSequencer :
    writeInFlight State.reset = false ∧ State.reset.status = .uninitialized ∧ writeInFlight (idle empty) = false ∧
      (idle empty).status ≠ .uninitialized ∧ (0xFFFFFFFE : Word) ≠ 0 ∧ (2 : Word) ≠ 0 ∧
      (0xFFFFFFFE : Word).toNat + (2 : Word).toNat ≤ 2 ^ (idle empty).cfg.addrW ∧
      (0xFFFFFFFF : Word).toNat < 2 ^ (idle empty).cfg.tickW := by decide

theorem witness_WrappingSourceRangeIsRefused :
    writeInFlight (idle empty) = false ∧ (idle empty).status ≠ .uninitialized ∧ (0xFFFFFFFE : Word) ≠ 0 ∧
      (3 : Word) ≠ 0 ∧ 2 ^ (idle empty).cfg.addrW < (0xFFFFFFFE : Word).toNat + (3 : Word).toNat := by decide

/-- Both phases; posted, expired at 1005, not yet at 1004. -/
theorem witness_WaitPhasesTakeThePostOrTimeOut :
    (writing .waitClear 1000 empty).wr.phase = .waitClear ∧ (writing .waitTake 1005 empty).wr.phase = .waitTake ∧
      (writing .waitTake 1005 empty).rb = some empty ∧ empty.sem = false ∧ (ring 0 0 false true []).sem = true ∧
      (5 : Int) ≤ ((1005 : Nat) - (1000 : Nat) : Int) % 2 ^ Config.defaults.tickW ∧
      ((1004 : Nat) - (1000 : Nat) : Int) % 2 ^ Config.defaults.tickW < 5 := by decide

theorem witness_ChunkStepQueuesOneScaledByte :
    (writing .chunk 1000 empty).wr.phase = .chunk ∧ (writing .chunk 1000 empty).wr.chunk ≠ 0 ∧
      (writing .chunk 1000 empty).params.isSome = true ∧ empty.Ok ∧ 0 < free empty :=
  ⟨by decide, by decide, by decide, empty_ok, by decide⟩

/-- Past the deadline at 1006, not at 1005; four bytes remain. -/
theorem witness_CheckEndsTheWriteOrWaitsAgain :
    (writing .check 1006 empty).wr.phase = .check ∧ (writing .check 1006 empty).wr.remaining ≠ 0 ∧
      (5 : Int) < ((1006 : Nat) - (1000 : Nat) : Int) % 2 ^ Config.defaults.tickW ∧
      ((1005 : Nat) - (1000 : Nat) : Int) % 2 ^ Config.defaults.tickW ≤ 5 := by decide

theorem witness_VolumeScalingIsLinearUpToZeroDecibel :
    Config.defaults.Legal ∧ (8 : Word).toNat ≤ (16 : Word).toNat ∧ (16 : Word).toNat ≤ Config.defaults.fsv := by decide

theorem witness_WriteNbQueuesWhatFits :
    writeInFlight (idle oneByte) = false ∧ (idle oneByte).status ≠ .uninitialized ∧ (0x2000 : Word) ≠ 0 ∧
      (5 : Word) ≠ 0 ∧ (0x2000 : Word).toNat + (5 : Word).toNat ≤ 2 ^ (idle oneByte).cfg.addrW ∧ (idle oneByte).rb = some oneByte ∧
      (idle oneByte).params.isSome = true ∧ oneByte.Ok :=
  ⟨by decide, by decide, by decide, by decide, by decide, rfl, by decide, oneByte_ok⟩

theorem witness_WriteThatNothingPostsTimesOut :
    (idle empty).cfg.Legal ∧ (idle empty).status ≠ .uninitialized ∧ dataPortBusy (idle empty) = false ∧
      (idle empty).rb = some empty ∧ empty.sem = false ∧ (0x1000 : Word) ≠ 0 ∧ (8 : Word) ≠ 0 ∧
      (0x1000 : Word).toNat + (8 : Word).toNat ≤ 2 ^ (idle empty).cfg.addrW ∧ 5 < 2 ^ (idle empty).cfg.tickW ∧
      (idle empty).now < 2 ^ (idle empty).cfg.tickW := by decide

/-- The channel registers of `idle` are those of a configured left and an unconfigured right channel. -/
theorem idle_channels_ok (r : RingBuffer) (c : Channel) : ((idle r).channel c).Ok (idle r).cfg := by
  have zero : (0 : Word) = dutyOf Config.defaults 0 := by decide
  cases c
  · exact ⟨⟨0, zero⟩, ⟨0, zero⟩, ⟨fun _ => rfl, fun _ => rfl⟩⟩
  · exact ⟨⟨0, zero⟩, ⟨0, zero⟩, ⟨fun h => (by cases h), fun h => (by cases h)⟩⟩

theorem idle_params_ok (r : RingBuffer) (p : Params) (h : (idle r).params = some p) : p.Ok (idle r).cfg := by
  obtain rfl : initParams Config.defaults 8 0 25 0xFF = p := Option.some.inj h
  show Params.Ok Config.defaults (initParams Config.defaults 8 0 25 0xFF)
  exact ⟨by decide, by decide, by decide, by decide, by decide, ⟨8, by decide, by decide⟩⟩

/-- A `WRITE` inside a chunk meets the invariant: the hypothesis of `NoChunkEverMeetsAFullRing`,
`EveryStepKeepsTheInvariant`, `EveryStepKeepsTheQueueInOrder`. -/
theorem witness_Inv : (writing .chunk 1000 empty).Inv where
  legal := by decide
  ring := by
    intro r h
    obtain rfl : empty = r := Option.some.inj h
    exact empty_ok
  capacity := by
    intro r h
    obtain rfl : empty = r := Option.some.inj h
    decide
  fits := ⟨by decide, by decide, by decide, by decide, by decide, by decide, by decide, fun w h => by cases h⟩
  handle := by decide
  params := by decide
  paramsOk := idle_params_ok empty
  claimed := by decide
  run := by decide
  inten := by decide
  alarm := by
    intro p h
    obtain rfl : initParams Config.defaults 8 0 25 0xFF = p := Option.some.inj h
    decide
  countdown := fun k h => by cases h
  channels := idle_channels_ok empty
  mask := by decide
  write := fun _ => by decide
  chunk := fun _ => ⟨empty, rfl, by decide, by decide⟩
  source := by decide
  agenda := fun _ _ _ _ h => by cases h

theorem witness_EveryStepKeepsTheInvariant :
    (after (step { writing .chunk 1000 empty with agenda := [.turn .prod] })).isSome = true := by decide

/-- The least and the greatest resolution, the least length, one channel assigned. -/
theorem witness_InitBuildsTheIdleState :
    State.reset.status = .uninitialized ∧ State.reset.rb = none ∧ 8 ≤ (8 : Byte).toNat ∧ (10 : Byte).toNat ≤ 10 ∧
      1024 ≤ (1024 : Word).toNat ∧ (1024 : Word).toNat ≤ State.reset.cfg.capMax ∧
      State.reset.env.allocOk = true ∧ State.reset.env.hwOk = true ∧
      (25 : Byte) ≠ State.reset.cfg.gpioNone ∧
      Config.defaults.pwmBaseClock / 2 ^ (8 : Byte).toNat - Config.defaults.pwmBaseClock / 2 ^ (8 : Byte).toNat % 1000 <
        2 ^ 32 := by decide

/-- Initialised; resolutions 7 and 11; length 1023; no channel assigned; `hw_ok = 0`. -/
theorem witness_FailedInitChangesNothing :
    (idle empty).status ≠ .uninitialized ∧ (7 : Byte).toNat < 8 ∧ 10 < (11 : Byte).toNat ∧ (1023 : Word).toNat < 1024 ∧
      (0xFF : Byte) = State.reset.cfg.gpioNone ∧
      ({ State.reset with env := { allocOk := true, hwOk := false } } : State).env.hwOk = false := by decide

/-- Nothing exists; `BUSY` with the left channel configured and the right one not. -/
theorem witness_DeinitReturnsToPowerOn :
    writeInFlight State.reset = false ∧ State.reset.status = .uninitialized ∧ writeInFlight (busy empty) = false ∧
      (busy empty).status ≠ .uninitialized ∧ ((busy empty).channel .left).mask = true ∧
      ((busy empty).channel .right).mask = false := by decide

/-- The three states and the ends of the accepted ranges. -/
theorem witness_SetParamOnlyWhileIdle :
    State.reset.status = .uninitialized ∧ (busy empty).status = .busy ∧ (idle empty).status = .idle ∧
      (7999 : Word).toNat < 8000 ∧ 48000 < (48001 : Word).toNat ∧ 8000 ≤ (8000 : Word).toNat ∧
      (48000 : Word).toNat ≤ 48000 ∧ ((24 : Word) ≠ 8 ∧ (24 : Word) ≠ 16 ∧ (24 : Word) ≠ 32) ∧
      ((3 : Word) ≠ 1 ∧ (3 : Word) ≠ 2) ∧ (idle empty).params.isSome = true := by decide

theorem witness_SetRateReprogramsOnlyTheAlarm :
    State.reset.status = .uninitialized ∧ (busy empty).status ≠ .uninitialized ∧ (busy empty).params.isSome = true ∧
      (7999 : Word).toNat < 8000 ∧ 48000 < (48001 : Word).toNat ∧ 8000 ≤ (8000 : Word).toNat := by decide

/-- Both ends of the range. -/
theorem witness_VolumeReadsBackAsItWasSet :
    (idle empty).cfg.Legal ∧ (idle empty).status ≠ .uninitialized ∧ (idle empty).params.isSome = true ∧
      -((idle empty).cfg.fsv : Int) ≤ (0xFFFFFFF0 : Word).toInt ∧
      (0xFFFFFFF0 : Word).toInt ≤ ((idle empty).cfg.fsv : Int) ∧
      (16 : Word).toInt ≤ ((idle empty).cfg.fsv : Int) := by decide

/-- One past each end. -/
theorem witness_VolumeOutOfRangeIsAnError :
    (idle empty).status ≠ .uninitialized ∧ (0xFFFFFFEF : Word).toInt < -((idle empty).cfg.fsv : Int) ∧
      ((idle empty).cfg.fsv : Int) < (17 : Word).toInt := by decide

theorem witness_StartEnablesTheTimerFromIdle :
    State.reset.status = .uninitialized ∧ (busy empty).status = .busy ∧ (idle empty).status = .idle := by decide

theorem witness_StopPausesTheTimerAndFlushes :
    writeInFlight State.reset = false ∧ State.reset.status = .uninitialized ∧ writeInFlight (idle empty) = false ∧
      (idle empty).status = .idle ∧ writeInFlight (busy full) = false ∧ (busy full).status = .busy ∧
      (busy full).rb = some full := by decide

theorem witness_QueriesAnswerStatusParametersAndVolume :
    (idle empty).status ≠ .uninitialized ∧ (busy empty).status ≠ .uninitialized ∧
      (idle empty).params.isSome = true := by decide

theorem witness_UninitializedCommandsAnswerNotInitialized :
    State.reset.status = .uninitialized ∧ writeInFlight State.reset = false ∧
      Instr.getVol.op ∈ ([0x03, 0x04, 0x05, 0x06, 0x07, 0x08, 0x09, 0x0A, 0x10, 0x11] : List Byte) := by decide

theorem witness_OnlyLifecycleCommandsChangeStatus :
    (after (step { idle empty with agenda := [.command .control ⟨7, 0, 0, 0⟩ ⟨true, true⟩ noBytes] })).map (·.status) =
      some .busy ∧ (idle empty).status = .idle := by decide

/-- A command that answers an error. -/
theorem witness_ErrorResponsesWriteNoRegister :
    ∃ t, exec .start State.reset = .next t ∧ t.events = State.reset.events ++ [.resp Instr.start.op 1 0 0 0] ∧
      (1 : Word) ≠ 0 := ⟨_, rfl, rfl, by decide⟩

theorem witness_HazardsAreFaults :
    State.reset.rb = none ∧ State.reset.timer.run = false ∧ writeInFlight State.reset = false ∧
      consumerActive (idle empty) = false ∧ (idle empty).rb ≠ none ∧
      ({ State.reset with rb := some empty } : State).status = .uninitialized ∧ consumerActive (busy empty) = true ∧
      writeInFlight (writing .check 1000 empty) = true ∧ (busy empty).timer.run = true := by decide

theorem witness_StepsNeverWriteConfigurationOrSource :
    (after (step { State.reset with agenda := [.turn .tick] })).isSome = true := by decide

/-- Each of the four cases: kept, appended, taken, emptied. -/
theorem witness_EveryStepKeepsTheQueueInOrder :
    (after (step { busy oneByte with agenda := [.turn .tick] })).map (·.queue) = some [0x80] ∧
      (after (step { busy oneByte with agenda := [.command .data ⟨0x25, 0x55, 0, 0⟩ ⟨true, true⟩ noBytes] })).map
        (·.queue) = some [0x80, 0x55] ∧
      (after (step { busy oneByte with agenda := [.command .event ⟨0x40, 0, 0, 0⟩ ⟨true, true⟩ noBytes] })).map
        (·.queue) = some [] ∧
      (after (step { busy oneByte with agenda := [.command .control ⟨8, 0, 0, 0⟩ ⟨true, true⟩ noBytes] })).map
        (·.queue) = some [] := by decide

theorem witness_OtherOperationsLeaveEveryRingByte :
    touchesRingBytes .rbFlush = false ∧ (after (exec .rbFlush (idle oneByte))).isSome = true ∧
      (after (turnOf .timer (busy oneByte))).isSome = true := by decide

end Sys2Proof.Tests
end

section
/-! PROOFS. What each turn of an agent is (O8). -/

namespace Sys2Proof.Machine

/-- With a turn at the head of the agenda the step is that agent's (R10, log 4). -/
theorem step_turn {s : State} {a : Agent} {rest : List Input} (hl : s.cfg.Legal) (ha : s.agenda = .turn a :: rest) :
    step s = turnOf a { s with agenda := rest } := by
  rw [step, if_pos hl, ha]
  rfl

/-- With an empty agenda the step is the free turn (R10, log 5). -/
theorem step_idle {s : State} (hl : s.cfg.Legal) (ha : s.agenda = []) : step s = freeTurn s := by
  rw [step, if_pos hl, ha]

end Sys2Proof.Machine

open Sys2Proof.Machine

/-- Settles O8: each clause is the step of the agent whose turn it is. -/
theorem agentsTakeTheirTurns : Obligations.AgentsTakeTheirTurns := fun _ hl =>
  ⟨fun _ ha => step_turn hl ha, fun _ ha => step_turn hl ha, fun _ ha => step_turn hl ha, fun _ _ ha => step_turn hl ha,
    fun ha => ⟨_, step_idle hl ha⟩⟩
end

section
/-! PROOFS. The invariant of the block is kept by every update of a group of registers; each lemma names the fields of the
invariant the group enters, and leaves the others to the hypothesis. -/

namespace Sys2Proof.Machine

variable {s t : State}

/-! ### Registers outside the ring, the sequencer and the lifecycle -/

/-- The history, the draws granted and the draw counter enter no clause of the invariant. -/
theorem inv_bookkeeping (h : s.Inv) (events : List Event) (env : Draws) (draws : Nat) :
    State.Inv { s with events := events, env := env, draws := draws } :=
  { h with fits := { h.fits with } }

theorem inv_emit (h : s.Inv) (e : Event) : (emit e s).Inv := inv_bookkeeping h _ _ _

theorem inv_respond (h : s.Inv) (op : Byte) (e : ErrorCode) (r1 r2 r3 : Word) : (respond op e r1 r2 r3 s).Inv :=
  inv_emit h _

theorem Rejected.inv {i : Instr} (e : Rejected i s t) (h : s.Inv) : t.Inv := by
  obtain ⟨_, _, rfl⟩ := e
  exact inv_respond h _ _ _ _ _

theorem Completed.inv {i : Instr} {u : State} {r1 r2 r3 : Word} (e : Completed i u t r1 r2 r3) (h : u.Inv) : t.Inv := by
  subst e
  exact inv_respond h _ _ _ _ _

theorem inv_agenda (h : s.Inv) {rest : List Input} (hsub : rest ⊆ s.agenda) : State.Inv { s with agenda := rest } :=
  { h with fits := { h.fits with }, agenda := fun p k d b hb => h.agenda p k d b (hsub hb) }

theorem inv_source (h : s.Inv) {b : SourceBuffer} (hb : b.bytes.wf) : State.Inv { s with source := b } :=
  { h with fits := { h.fits with }, source := hb }

theorem inv_now (h : s.Inv) {n : Nat} (hn : n < 2 ^ s.cfg.tickW) : State.Inv { s with now := n } :=
  { h with fits := { h.fits with now := hn } }

theorem inv_wait (h : s.Inv) {w : Option DirectWait} (hw : ∀ w', w = some w' → w'.start < 2 ^ s.cfg.tickW) :
    State.Inv { s with wait := w } :=
  { h with fits := { h.fits with wait := hw } }

theorem inv_no_wait (h : s.Inv) : State.Inv { s with wait := none } := inv_wait h (fun _ e => nomatch e)

/-- A count of the timer: the count fits its register, a drawn countdown its range (R39, U8). -/
theorem inv_count (h : s.Inv) {n : Nat} {c : Option Nat} (hn : n < 2 ^ s.cfg.tcntW)
    (hc : ∀ k, c = some k → 1 ≤ k ∧ k ≤ 2 ^ s.cfg.tcntW) :
    State.Inv { s with timer := { s.timer with cnt := n, countdown := c } } :=
  { h with fits := { h.fits with cnt := hn }, countdown := hc }

/-- A channel whose mask stays may have its other registers replaced by legal ones (R37, R41, R43). -/
theorem inv_setChannel (h : s.Inv) {c : Channel} {r : ChannelRegs} (hr : r.Ok s.cfg) (hm : r.mask = (s.channel c).mask) :
    (s.setChannel c r).Inv :=
  { h with
    fits := { h.fits with }
    channels := fun c' => by
      by_cases e : c' = c
      · subst e; rw [channel_setChannel_same]; exact hr
      · rw [channel_setChannel_other s r e]; exact h.channels c'
    mask := by
      have hmask := h.mask
      cases c
      · rw [channel_left] at hm; simpa [hm] using hmask
      · rw [channel_right] at hm; simpa [hm] using hmask }

/-! ### Parameters and status -/

/-- The handle stands exactly outside `UNINITIALIZED` (R31). -/
theorem State.Inv.handle_of_status (h : s.Inv) (hs : s.status ≠ .uninitialized) : s.handle = true := by
  rw [h.handle, decide_eq_true hs]

/-- While no `WRITE` is in flight the sequencer stands in no phase (R45). -/
theorem phase_of_not_inFlight (hw : writeInFlight s = false) : s.wr.phase = .none := by
  simpa [writeInFlight] using hw

/-- A `WRITE` in flight excludes `UNINITIALIZED` (R210), so there is none before `INIT`. -/
theorem State.Inv.not_inFlight (h : s.Inv) (hs : s.status = .uninitialized) : writeInFlight s = false := by
  by_contra hw
  exact h.write (by simpa using hw) hs

/-- New parameters with the rate they had leave the alarm value right (R161). -/
theorem inv_setParams (h : s.Inv) {p p' : Params} (hp : s.params = some p) (hok : p'.Ok s.cfg) (hrate : p'.rate = p.rate) :
    (s.setParams p').Inv :=
  { h with
    fits := { h.fits with }
    params := by simpa [hp] using h.params
    paramsOk := by rintro _ ⟨⟩; exact hok
    alarm := by rintro _ ⟨⟩; rw [hrate]; exact h.alarm p hp }

/-- New parameters with the alarm reprogrammed to their rate (R166). -/
theorem inv_reprogram (h : s.Inv) {p p' : Params} (hp : s.params = some p) (hok : p'.Ok s.cfg) :
    State.Inv { s with params := some p', timer := reprogramAlarm s.cfg p'.rate s.timer } :=
  { h with
    fits := { h.fits with alarm := alarmOf_lt _ _ }
    params := by simpa [hp] using h.params
    paramsOk := by rintro _ ⟨⟩; exact hok
    alarm := by rintro _ ⟨⟩; rfl
    countdown := fun _ e => nomatch e }

/-- The counter, its interrupt and `BUSY` go on and off together (rules R39, R167). -/
theorem inv_running (h : s.Inv) (hs : s.status ≠ .uninitialized) {st : Status} {b : Bool} (hst : st ≠ .uninitialized)
    (hb : b = decide (st = .busy)) :
    State.Inv { s with timer := { s.timer with run := b, inten := b }, status := st } :=
  { h with
    fits := { h.fits with }
    handle := (h.handle_of_status hs).trans (decide_eq_true hst).symm
    run := hb
    inten := rfl
    write := fun _ => hst }

/-! ### The ring and the write sequencer -/

/-- The registers of the write sequencer hold values of their widths (R45). -/
structure WriteSeq.Fits (k : Config) (w : WriteSeq) : Prop where
  buf : w.buf < 2 ^ k.addrW
  timeout : w.timeout < 2 ^ k.tickW
  start : w.start < 2 ^ k.tickW
  waitStart : w.waitStart < 2 ^ k.tickW

theorem State.Fits.seq (h : s.Fits) : s.wr.Fits s.cfg := ⟨h.buf, h.timeout, h.start, h.waitStart⟩

/-- Of a new ring and a new sequencer only the sequencer has registers of a parameter's width (R45). -/
theorem fits_ring_seq (h : s.Fits) {rb : Option RingBuffer} {w : WriteSeq} (hw : w.Fits s.cfg) :
    State.Fits { s with rb := rb, wr := w } :=
  { h with buf := hw.buf, timeout := hw.timeout, start := hw.start, waitStart := hw.waitStart }

/-- A new sequencer outside a chunk (R45). -/
theorem inv_seq (h : s.Inv) {w : WriteSeq} (hfits : w.Fits s.cfg) (hstatus : w.phase ≠ .none → s.status ≠ .uninitialized)
    (hphase : w.phase ≠ .chunk) : State.Inv { s with wr := w } :=
  { h with
    fits := fits_ring_seq h.fits hfits
    write := fun e => hstatus (of_decide_eq_true e)
    chunk := fun e => absurd e hphase }

/-- The sequencer goes to a phase that is not `CHUNK`, and to one in flight only from one in flight. -/
theorem inv_phase (h : s.Inv) {p : Phase} (hw : p ≠ .none → writeInFlight s = true) (hp : p ≠ .chunk) :
    State.Inv { s with wr := { s.wr with phase := p } } :=
  inv_seq h { h.fits.seq with } (fun e => h.write (hw e)) hp

/-- A new ring and a new sequencer: in a chunk, what is left of it has to fit the ring and the input (R221). -/
theorem inv_ring_seq (h : s.Inv) {r : RingBuffer} {w : WriteSeq} (hok : r.Ok) (hcap : r.size.toNat ≤ s.cfg.capMax)
    (hfits : w.Fits s.cfg) (hstatus : w.phase ≠ .none → s.status ≠ .uninitialized)
    (hchunk : w.phase = .chunk → w.chunk.toNat ≤ free r ∧ w.chunk.toNat ≤ w.remaining.toNat) :
    State.Inv { s with rb := some r, wr := w } :=
  { h with
    ring := by rintro _ ⟨⟩; exact hok
    capacity := by rintro _ ⟨⟩; exact hcap
    fits := fits_ring_seq h.fits hfits
    write := fun e => hstatus (of_decide_eq_true e)
    chunk := fun e => ⟨r, rfl, hchunk e⟩ }

/-- A legal ring in place of one of its size, with no less room while a `WRITE` is in flight (R221). -/
theorem inv_setRing (h : s.Inv) {r r' : RingBuffer} (hr : s.rb = some r) (hok : r'.Ok) (hsize : r'.size = r.size)
    (hroom : writeInFlight s = true → free r ≤ free r') : (s.setRing r').Inv := by
  refine inv_ring_seq h hok (hsize ▸ h.capacity r hr) h.fits.seq (fun e => h.write (decide_eq_true e)) fun e => ?_
  obtain ⟨r₀, hr₀, hfree, hrem⟩ := h.chunk e
  obtain rfl : r = r₀ := Option.some.inj (hr.symm.trans hr₀)
  exact ⟨hfree.trans (hroom (by simp [writeInFlight, e])), hrem⟩

/-- Where no ring was, a `WRITE` in flight is in no chunk, so a legal new ring may come. -/
theorem inv_installRing (h : s.Inv) {r : RingBuffer} (hr : s.rb = none) (hok : r.Ok) (hcap : r.size.toNat ≤ s.cfg.capMax) :
    (s.installRing r).Inv := by
  refine inv_bookkeeping (inv_ring_seq h hok hcap h.fits.seq (fun e => h.write (decide_eq_true e)) fun e => ?_) _ _ _
  obtain ⟨r₀, hr₀, _⟩ := h.chunk e
  exact nomatch hr.symm.trans hr₀

theorem inv_no_ring (h : s.Inv) (hw : writeInFlight s = false) : State.Inv { s with rb := none } :=
  { h with
    ring := fun _ e => nomatch e
    capacity := fun _ e => nomatch e
    fits := { h.fits with }
    chunk := fun e => nomatch (phase_of_not_inFlight hw).symm.trans e }

/-- `signal_space_available` writes two flags of a ring whose replacement keeps the invariant (R137). -/
theorem inv_signalSpace (h : s.Inv) {r r' : RingBuffer} (hr : s.rb = some r) (hok : r'.Ok) (hsize : r'.size = r.size)
    (hroom : writeInFlight s = true → free r ≤ free r') : (signalSpace s r').Inv := by
  rcases signalSpace_cases s r' with ⟨_, _, e⟩ | ⟨_, e⟩ <;> rw [e]
  · exact inv_emit (inv_setRing h hr (postSem_ok hok) hsize hroom) _
  · exact inv_setRing h hr hok hsize hroom

end Sys2Proof.Machine
end

section
/-! PROOFS. Each operation keeps the invariant of the block. -/

namespace Sys2Proof.Machine

variable {s t : State}

/-! ### Ring buffer -/

theorem execRbCreate_inv {capacity : Word} (h : s.Inv) (e : execRbCreate capacity s = .next t) : t.Inv := by
  obtain ⟨_, hnone, e | ⟨hmin, hmax, _, e⟩⟩ := execRbCreate_next e
  · exact e.inv h
  · exact e.inv (inv_installRing h hnone (freshRing_ok hmin) hmax)

theorem execRbDestroy_inv (h : s.Inv) (e : execRbDestroy s = .next t) : t.Inv := by
  obtain ⟨_, hw, e⟩ := execRbDestroy_next e
  exact e.inv (inv_no_ring h hw)

theorem execRbRead_inv (h : s.Inv) (e : execRbRead s = .next t) : t.Inv := by
  obtain ⟨_, r, hr, e | ⟨b, r', hpop, e⟩⟩ := execRbRead_next e
  · exact e.inv h
  · have hok := h.ring r hr
    have hfree := ringPop_free hok hpop
    exact e.inv (inv_setRing h hr (ringPop_ok hok hpop) (ringPop_size hpop) fun _ => by omega)

theorem execRbWrite_inv {b : Byte} (h : s.Inv) (e : execRbWrite b s = .next t) : t.Inv := by
  obtain ⟨hw, r, hr, e | ⟨r', hpush, e⟩⟩ := execRbWrite_next e
  · exact e.inv h
  · exact e.inv (inv_setRing h hr (ringPush_ok (h.ring r hr) hpush) (ringPush_size hpush) (by simp [hw]))

theorem execRbFlush_inv (h : s.Inv) (e : execRbFlush s = .next t) : t.Inv := by
  obtain ⟨_, hw, r, hr, e⟩ := execRbFlush_next e
  exact e.inv (inv_setRing h hr (ringFlush_ok (h.ring r hr)) rfl (by simp [hw]))

theorem execRbSignal_inv (h : s.Inv) (e : execRbSignal s = .next t) : t.Inv := by
  obtain ⟨r, hr, e⟩ := execRbSignal_next e
  exact e.inv (inv_signalSpace h hr (h.ring r hr) rfl fun _ => le_rfl)

theorem inv_clearPending (h : s.Inv) {r : RingBuffer} (hr : s.rb = some r) : (s.setRing (clearPending r)).Inv :=
  inv_setRing h hr (clearPending_ok (h.ring r hr)) rfl fun _ => le_rfl

theorem inv_takeSem (h : s.Inv) {r : RingBuffer} (hr : s.rb = some r) : (s.setRing (takeSem r)).Inv :=
  inv_setRing h hr (takeSem_ok (h.ring r hr)) rfl fun _ => le_rfl

theorem execRbWait_inv {timeout : Word} (h : s.Inv) (e : execRbWait timeout s = .next t) : t.Inv := by
  obtain ⟨r, hr, rfl⟩ := execRbWait_next e
  refine inv_wait (inv_clearPending h hr) ?_
  rintro _ ⟨⟩
  exact h.fits.now

theorem directTake_inv {w : DirectWait} (h : s.Inv) (hw : s.wait = some w) (e : directTake w s = .next t) : t.Inv := by
  obtain ⟨r, hr, ⟨_, e⟩ | ⟨_, e⟩ | ⟨_, rfl⟩⟩ := directTake_next e
  · exact e.inv (inv_no_wait (inv_takeSem h hr))
  · exact e.inv (inv_no_wait h)
  · refine inv_wait h ?_
    rintro _ ⟨⟩
    exact h.fits.wait w hw

/-! ### Duty driver and alarm -/

/-- `SET_DUTY` writes the duty value of a sample (rules R41, R190). -/
theorem writtenDuty_ok {k : Config} {r : ChannelRegs} (h : r.Ok k) (v : Byte) :
    (assertControlBits { r with dutyReg := dutyOf k v }).Ok k := ⟨⟨v, rfl⟩, h.dutyAct, h.pin⟩

theorem latchRegs_ok {k : Config} {r : ChannelRegs} (h : r.Ok k) : (latchRegs r).Ok k := ⟨h.dutyReg, h.dutyReg, h.pin⟩

theorem applyDuty_inv (h : s.Inv) (c : Channel) (v : Byte) : (applyDuty c v s).Inv :=
  inv_emit (inv_setChannel h (writtenDuty_ok (h.channels c) v) rfl) _

theorem execSetDuty_inv {c : Channel} {v : Byte} (h : s.Inv) (e : execSetDuty c v s = .next t) : t.Inv := by
  rw [done_next e]
  exact inv_respond (applyDuty_inv h c v) _ _ _ _ _

theorem execLatch_inv {c : Channel} (h : s.Inv) (e : execLatch c s = .next t) : t.Inv := by
  rcases execLatch_cases c s with ⟨_, _, e'⟩ | ⟨_, e'⟩ <;> obtain rfl := Host.Outcome.next.inj (e.symm.trans e')
  · exact inv_emit (inv_setChannel h (latchRegs_ok (h.channels c)) rfl) (.latch c _)
  · exact h

theorem takeAlarm_inv (h : s.Inv) (e : takeAlarm s = .next t) : t.Inv := by
  rcases takeAlarm_next e with ⟨_, rfl⟩ | ⟨_, r, hr, ⟨_, rfl⟩ | ⟨b, r', hpop, rfl⟩⟩
  · exact inv_emit h _
  · exact inv_signalSpace (inv_emit h _) hr (h.ring r hr) rfl fun _ => le_rfl
  · have hok := h.ring r hr
    have hfree := ringPop_free hok hpop
    exact inv_signalSpace (inv_emit (applyDuty_inv h _ _) _) hr (ringPop_ok hok hpop) (ringPop_size hpop)
      fun _ => by omega

/-! ### Producer write path -/

/-- The source range keeps the address register in its width (rules R45, R79). -/
theorem enterWrite_fits (h : s.Inv) {buf length timeout : Word} (hlen : length ≠ 0)
    (hrange : buf.toNat + length.toNat ≤ 2 ^ s.cfg.addrW) : (enterWrite buf length timeout s).Fits s.cfg where
  buf := by
    have hpos : length.toNat ≠ 0 := fun e => hlen (BitVec.eq_of_toNat_eq e)
    show buf.toNat < _
    omega
  timeout := timeoutOf_lt _ _
  start := h.fits.now
  waitStart := h.fits.waitStart

theorem execWrite_inv {buf length timeout : Word} (h : s.Inv) (e : execWrite buf length timeout s = .next t) : t.Inv := by
  obtain ⟨_, e | ⟨hs, _, hlen, hrange, rfl⟩⟩ := execWrite_next e
  · exact e.inv h
  · exact inv_seq h (enterWrite_fits h hlen hrange) (fun _ => hs) (by simp [enterWrite])

theorem execWriteNb_inv {buf length : Word} (h : s.Inv) (e : execWriteNb buf length s = .next t) : t.Inv := by
  obtain ⟨hw, e | ⟨_, r, p, r', hr, _, hpush, e⟩⟩ := execWriteNb_next e
  · exact e.inv h
  · obtain ⟨r₁, hpush₁, hok, _, hframe, _⟩ :=
      pushSource_spec s p.volume (min length.toNat (free r)) buf.toNat r (h.ring r hr) (min_le_right _ _)
    obtain rfl : r' = r₁ := Option.some.inj (hpush.symm.trans hpush₁)
    have hsize : r'.size = r.size := by rw [← hframe]
    exact e.inv (inv_setRing h hr hok hsize (by simp [hw]))

theorem finishWrite_inv {timedOut : Bool} (h : s.Inv) (e : finishWrite timedOut s = .next t) : t.Inv := by
  rw [finishWrite_next e]
  exact inv_respond (inv_phase h (fun e => absurd rfl e) (by decide)) _ _ _ _ _

/-- The chunk of a take is at most the room and the rest of the input (rules R214, R221). -/
theorem chunkSize_toNat (remaining : Word) (n : Nat) :
    (toWord (min remaining.toNat n)).toNat = min remaining.toNat n := by
  rw [toWord, BitVec.toNat_ofNat, Nat.mod_eq_of_lt (lt_of_le_of_lt (min_le_left _ _) remaining.isLt)]

/-- Taking one from a word that is not 0 does not wrap. -/
theorem toNat_sub_one {w : Word} (h : w.toNat ≠ 0) : (w - 1).toNat = w.toNat - 1 := by
  bv_omega

/-- One byte of a chunk uses one of the room, of the chunk and of the rest of the input (rules R215, R221). -/
theorem advanceWrite_inv (h : s.Inv) {r r' : RingBuffer} {b : Byte} (hphase : s.wr.phase = .chunk) (hchunk : s.wr.chunk ≠ 0)
    (hr : s.rb = some r) (hpush : ringPush r b = some r') :
    State.Inv { s with rb := some r', wr := advanceWrite s.cfg s.wr } := by
  have hok := h.ring r hr
  have hw : writeInFlight s = true := by simp [writeInFlight, hphase]
  refine inv_ring_seq h (ringPush_ok hok hpush) (ringPush_size hpush ▸ h.capacity r hr)
    { h.fits.seq with buf := Nat.mod_lt _ (Nat.two_pow_pos _) } (fun _ => h.write hw) fun _ => ?_
  obtain ⟨r₀, hr₀, hfree, hrem⟩ := h.chunk hphase
  obtain rfl : r = r₀ := Option.some.inj (hr.symm.trans hr₀)
  have hroom := ringPush_free hok hpush
  have hpos : s.wr.chunk.toNat ≠ 0 := fun e => hchunk (BitVec.eq_of_toNat_eq e)
  have hc := toNat_sub_one hpos
  have hm := toNat_sub_one (w := s.wr.remaining) (by omega)
  simp only [advanceWrite, hc, hm]
  omega

/-- A take opens a chunk of at most the room and the rest of the input (rules R214, R221). -/
theorem openChunk_inv (h : s.Inv) {r : RingBuffer} (hr : s.rb = some r) (hw : writeInFlight s = true) :
    State.Inv { s with
      rb := some (takeSem r)
      wr := { s.wr with chunk := toWord (min s.wr.remaining.toNat (free r)), phase := .chunk } } := by
  refine inv_ring_seq h (takeSem_ok (h.ring r hr)) (h.capacity r hr) { h.fits.seq with } (fun _ => h.write hw) fun _ => ?_
  simp only [chunkSize_toNat, free_takeSem]
  exact ⟨min_le_right _ _, min_le_left _ _⟩

theorem prodStep_inv (h : s.Inv) (e : prodStep s = .next t) : t.Inv := by
  have hflight {p : Phase} (hp : s.wr.phase = p) (hne : p ≠ .none) : writeInFlight s = true := by
    simpa [writeInFlight, hp] using hne
  rcases prodStep_next e with ⟨_, _, rfl⟩ | ⟨_, w, hw, e⟩ | ⟨hp, r, hr, rfl⟩ |
    ⟨hp, r, hr, ⟨_, rfl⟩ | ⟨_, e⟩ | ⟨_, rfl⟩⟩ | ⟨hp, _, rfl⟩ | ⟨hp, hc, r, _, r', hr, _, hpush, rfl⟩ |
    ⟨hp, ⟨b, e⟩ | rfl⟩
  · exact h
  · exact directTake_inv h hw e
  · exact inv_seq (inv_clearPending h hr) { h.fits.seq with waitStart := h.fits.now }
      (fun _ => h.write (hflight hp (by decide))) nofun
  · exact openChunk_inv h hr (hflight hp (by decide))
  · exact finishWrite_inv h e
  · exact h
  · exact inv_phase h (fun _ => hflight hp (by decide)) (by decide)
  · exact advanceWrite_inv h hp hc hr hpush
  · exact finishWrite_inv h e
  · exact inv_phase h (fun _ => hflight hp (by decide)) (by decide)

/-! ### Lifecycle -/

/-- The parameters of a successful `INIT` are legal (rules R240, R332). -/
theorem initParams_ok (k : Config) {res : Byte} (sel gl gr : Byte) (hres : resolutionInRange res = true) :
    (initParams k res sel gl gr).Ok k where
  rate := by simp only [initParams]; decide
  bits := by simp only [initParams]; decide
  channels := by simp only [initParams]; decide
  volume := by
    have hmod := Nat.mod_le k.fsv (2 ^ 32)
    simp only [initParams, toWord, BitVec.toNat_ofNat]
    omega
  resolution := by
    simp only [initParams, BitVec.toNat_setWidth_of_le (show 8 ≤ 32 by decide)]
    exact (resolutionInRange_iff res).mp hres
  carrier := ⟨res, rfl, rfl⟩

/-- The duty registers of a channel at power-on hold the value of sample 0 (R41). -/
theorem isDuty_zero (k : Config) : IsDuty k 0 := ⟨0, by simp [dutyOf]⟩

theorem configureChannel_ok (k : Config) (assigned : Bool) (r : ChannelRegs) : (configureChannel assigned r).Ok k := by
  cases assigned <;> exact ⟨isDuty_zero k, isDuty_zero k, by simp [configureChannel, configuredChannel, releaseChannel]⟩

@[simp] theorem configureChannel_mask (assigned : Bool) (r : ChannelRegs) :
    (configureChannel assigned r).mask = assigned := by cases assigned <;> rfl

/-- `INIT` builds the invariant: every clause it enters is set anew (rules R240, R332). -/
theorem initState_inv (h : s.Inv) {res : Byte} (sel : Byte) {gl gr : Byte} {r : RingBuffer}
    (hs : s.status = .uninitialized) (hres : resolutionInRange res = true) (hok : r.Ok) (hcap : r.size.toNat ≤ s.cfg.capMax)
    (hgpio : (gpioAssigned s.cfg gl || gpioAssigned s.cfg gr) = true) : (initState res sel gl gr r s).Inv where
  legal := h.legal
  ring := by rintro _ ⟨⟩; exact hok
  capacity := by rintro _ ⟨⟩; exact hcap
  fits := { h.fits with alarm := alarmOf_lt _ _, cnt := Nat.two_pow_pos _ }
  handle := rfl
  params := rfl
  paramsOk := by rintro _ ⟨⟩; exact initParams_ok _ _ _ _ hres
  claimed := rfl
  run := rfl
  inten := rfl
  alarm := by rintro _ ⟨⟩; rfl
  countdown := fun _ e => nomatch e
  channels
    | .left => configureChannel_ok s.cfg (gpioAssigned s.cfg gl) s.chan.left
    | .right => configureChannel_ok s.cfg (gpioAssigned s.cfg gr) s.chan.right
  mask := by simpa [initState] using hgpio
  write := fun _ => nofun
  chunk := fun e => nomatch (phase_of_not_inFlight (h.not_inFlight hs)).symm.trans e
  source := h.source
  agenda := h.agenda

theorem execInit_inv {len : Word} {res sel gl gr : Byte} (h : s.Inv) (e : execInit len res sel gl gr s = .next t) :
    t.Inv := by
  obtain e | ⟨hs, _, hres, hmin, hmax, hgpio, e⟩ := execInit_next e
  · exact e.inv h
  · exact e.inv (initState_inv h sel hs hres (freshRing_ok hmin) hmax hgpio)

/-- `DEINIT` leaves the power-on values, which meet the invariant (rules R242, R330). -/
theorem deinitState_inv (h : s.Inv) : (deinitState s).Inv where
  legal := h.legal
  ring := fun _ e => nomatch e
  capacity := fun _ e => nomatch e
  fits :=
    have pos (n : Nat) : 0 < 2 ^ n := Nat.two_pow_pos n
    ⟨h.fits.now, pos _, pos _, pos _, pos _, pos _, pos _, h.fits.wait⟩
  handle := rfl
  params := rfl
  paramsOk := fun _ e => nomatch e
  claimed := rfl
  run := rfl
  inten := rfl
  alarm := fun _ e => nomatch e
  countdown := fun _ e => nomatch e
  channels
    | .left => configureChannel_ok s.cfg false s.chan.left
    | .right => configureChannel_ok s.cfg false s.chan.right
  mask := rfl
  write := nofun
  chunk := nofun
  source := h.source
  agenda := h.agenda

theorem execDeinit_inv (h : s.Inv) (e : execDeinit s = .next t) : t.Inv := by
  obtain ⟨_, ⟨_, e⟩ | ⟨_, e⟩⟩ := execDeinit_next e
  · exact e.inv h
  · exact e.inv (deinitState_inv h)

theorem execSetParam_inv {rate bits channels : Word} (h : s.Inv) (e : execSetParam rate bits channels s = .next t) :
    t.Inv := by
  obtain e | ⟨_, hrate, hbits, hchannels, p, hp, e⟩ := execSetParam_next e
  · exact e.inv h
  · exact e.inv (inv_reprogram h hp
      (p' := { p with rate := rate, bits := bits, channels := channels })
      { h.paramsOk p hp with rate := hrate, bits := hbits, channels := hchannels })

theorem execSetRate_inv {rate : Word} (h : s.Inv) (e : execSetRate rate s = .next t) : t.Inv := by
  obtain e | ⟨_, hrate, p, hp, e⟩ := execSetRate_next e
  · exact e.inv h
  · exact e.inv (inv_reprogram h hp (p' := { p with rate := rate }) { h.paramsOk p hp with rate := hrate })

/-- A volume in range is stored at most `2 * FSV` (rules R35, R245). -/
theorem storedVolume_le {k : Config} (hl : k.Legal) {v : Word} (hv : volumeInRange k v = true) :
    (storedVolume k v).toNat ≤ 2 * k.fsv := by
  have hstored := storedVolume_toNat hl hv
  obtain ⟨_, hmax⟩ := (volumeInRange_iff k v).mp hv
  omega

theorem execSetVol_inv {v : Word} (h : s.Inv) (e : execSetVol v s = .next t) : t.Inv := by
  obtain e | ⟨_, hv, p, hp, e⟩ := execSetVol_next e
  · exact e.inv h
  · exact e.inv (inv_setParams h hp { h.paramsOk p hp with volume := storedVolume_le h.legal hv } rfl)

theorem execStart_inv (h : s.Inv) (e : execStart s = .next t) : t.Inv := by
  obtain e | ⟨hs, e⟩ := execStart_next e
  · exact e.inv h
  · exact e.inv (inv_running h (by simp [hs]) (by decide) rfl)

theorem execStop_inv (h : s.Inv) (e : execStop s = .next t) : t.Inv := by
  obtain ⟨hw, e | ⟨hs, r, hr, e⟩⟩ := execStop_next e
  · exact e.inv h
  · have hflush := inv_setRing h hr (ringFlush_ok (h.ring r hr)) rfl (by simp [hw])
    exact e.inv (inv_running hflush (by simp [hs]) (by decide) rfl)

/-! ### Every operation -/

/-- Every operation keeps the invariant of the block. -/
theorem exec_inv {i : Instr} (h : s.Inv) (e : exec i s = .next t) : t.Inv := by
  cases i with
  | init => exact execInit_inv h e
  | deinit => exact execDeinit_inv h e
  | setParam => exact execSetParam_inv h e
  | setRate => exact execSetRate_inv h e
  | setVol => exact execSetVol_inv h e
  | getVol => obtain e | ⟨_, e⟩ := execGetVol_next e <;> exact e.inv h
  | start => exact execStart_inv h e
  | stop => exact execStop_inv h e
  | getStatus => obtain e | ⟨_, e⟩ := execGetStatus_next e <;> exact e.inv h
  | getParam => obtain e | ⟨_, _, _, e⟩ := execGetParam_next e <;> exact e.inv h
  | write => exact execWrite_inv h e
  | writeNb => exact execWriteNb_inv h e
  | rbCreate => exact execRbCreate_inv h e
  | rbDestroy => exact execRbDestroy_inv h e
  | rbOccupied => obtain ⟨_, _, e⟩ := execRbOccupied_next e; exact e.inv h
  | rbFree => obtain ⟨_, _, e⟩ := execRbFree_next e; exact e.inv h
  | rbRead => exact execRbRead_inv h e
  | rbWrite => exact execRbWrite_inv h e
  | rbFlush => exact execRbFlush_inv h e
  | rbSignal => exact execRbSignal_inv h e
  | rbWait => exact execRbWait_inv h e
  | setDuty => exact execSetDuty_inv h e
  | alarm => exact takeAlarm_inv h e
  | latch => exact execLatch_inv h e

end Sys2Proof.Machine
end

section
/-! PROOFS. Every turn and every step keep the invariant of the block (O54). -/

namespace Sys2Proof.Machine

variable {s t : State}

theorem timerFires_inv (h : s.Inv) (e : timerFires s = .next t) : t.Inv := by
  have hreload : State.Inv { s with timer := { s.timer with cnt := 0, countdown := none } } :=
    inv_count h (Nat.two_pow_pos _) (fun _ e => nomatch e)
  obtain ⟨_, e⟩ | ⟨_, rfl⟩ := timerFires_next e
  · exact takeAlarm_inv hreload e
  · exact hreload

/-- A count with `k > 1` counts to the next alarm still to come (R166, U8). -/
theorem inv_countDown (h : s.Inv) {k : Nat} (hk : 1 < k) (hmax : k ≤ 2 ^ s.cfg.tcntW) :
    State.Inv { s with timer := { s.timer with cnt := countUp s.cfg s.timer.cnt, countdown := some (k - 1) } } := by
  refine inv_count h (countUp_lt _ _) ?_
  rintro _ ⟨⟩
  omega

theorem inv_draw (h : s.Inv) : State.Inv { s with draws := s.draws + 1 } := inv_bookkeeping h _ _ _

theorem countStep_inv (h : s.Inv) (e : countStep s = .next t) : t.Inv := by
  rcases countStep_next e with ⟨_, rfl⟩ | ⟨_, _, _, rfl⟩ | ⟨_, e⟩ | ⟨_, _, e⟩ |
    ⟨k, _, hk, ⟨hc, rfl⟩ | ⟨_, rfl, rfl⟩⟩
  · exact h
  · exact inv_count h (countUp_lt _ _) h.countdown
  · exact timerFires_inv h e
  · exact timerFires_inv (inv_draw h) e
  · exact inv_countDown h hk (h.countdown k hc).2
  · exact inv_countDown (inv_draw h) hk (drawnCounts_bounds _ _).2

theorem turnOf_inv {a : Agent} (h : s.Inv) (e : turnOf a s = .next t) : t.Inv := by
  cases a with
  | prod => exact prodStep_inv h e
  | timer => exact countStep_inv h e
  | pwm c => exact execLatch_inv h e
  | tick =>
    obtain rfl := Host.Outcome.next.inj e
    exact inv_now h (Nat.mod_lt _ (Nat.two_pow_pos _))

/-- A command keeps the invariant when the source buffer it brings is canonical (R72). -/
theorem issue_inv {p : Port} {k : Cmd} {b : SourceBuffer} (h : s.Inv) (hb : b.bytes.wf) (e : issue p k b s = .next t) :
    t.Inv := by
  obtain ⟨e, _⟩ | ⟨i, _, _, _, e⟩ := issue_next e
  · rw [raise_next e]
    exact inv_respond h _ _ _ _ _
  · obtain ⟨b', hs, hb'⟩ := supplySource_eq i b s
    rw [hs] at e
    refine exec_inv (inv_source h ?_) e
    obtain rfl | ⟨rfl, _⟩ := hb'
    · exact h.source
    · exact hb

/-- The head of an agenda whose source buffers are canonical keeps the invariant (log 4). -/
theorem serve_inv {x : Input} (h : s.Inv) (hx : ∀ p k d b, x = .command p k d b → b.bytes.wf)
    (e : serve x s = .next t) : t.Inv := by
  cases x with
  | command p k d b => exact issue_inv (inv_bookkeeping h _ d _) (hx p k d b rfl) e
  | turn a => exact turnOf_inv h e

theorem step_inv (h : s.Inv) (e : step s = .next t) : t.Inv := by
  obtain ⟨_, ⟨_, e⟩ | ⟨x, rest, ha, e⟩⟩ := step_next e
  · exact turnOf_inv (inv_draw h) e
  · have htail : rest ⊆ s.agenda := ha ▸ List.subset_cons_self x rest
    exact serve_inv (inv_agenda h htail) (fun p k d b hx => h.agenda p k d b (by simp [ha, hx])) e

end Sys2Proof.Machine

open Sys2Proof.Machine

/-- Settles O54, by cases on the step: each operation and each turn keeps every clause its registers enter. -/
theorem everyStepKeepsTheInvariant : Obligations.EveryStepKeepsTheInvariant :=
  fun _ _ => step_inv
end

section
/-! PROOFS. No meaning, no turn and no step reads the event history (O55). Each lemma says that a longer past of the state is
the longer past of the answer; its proof follows the branches of the meaning. -/

namespace Sys2Proof.Machine

/-- The state with the events `es` before its history (R58). -/
def State.withPast (es : List Event) (s : State) : State := { s with events := es ++ s.events }

/-- The meaning answers a state with a longer past as it answers the state, with the longer past in front (R58). -/
def IgnoresPast (f : State → Result) : Prop := ∀ (es : List Event) (s : State), prependEvents es (f s) = f (s.withPast es)

variable {es : List Event} {s : State}

@[simp] theorem withPast_cfg : (s.withPast es).cfg = s.cfg := rfl
@[simp] theorem withPast_status : (s.withPast es).status = s.status := rfl
@[simp] theorem withPast_params : (s.withPast es).params = s.params := rfl
@[simp] theorem withPast_timer : (s.withPast es).timer = s.timer := rfl
@[simp] theorem withPast_wr : (s.withPast es).wr = s.wr := rfl
@[simp] theorem withPast_wait : (s.withPast es).wait = s.wait := rfl
@[simp] theorem withPast_agenda : (s.withPast es).agenda = s.agenda := rfl
@[simp] theorem createRing_withPast (capacity : Word) : createRing capacity (s.withPast es) = createRing capacity s := rfl
@[simp] theorem memRead_withPast (addr : Nat) : memRead (s.withPast es) addr = memRead s addr := rfl

/-! ### The shapes a meaning is built of -/

theorem withPast_emit (e : Event) (s : State) : (emit e s).withPast es = emit e (s.withPast es) := by
  simp [State.withPast, emit]

theorem withPast_respond (op : Byte) (e : ErrorCode) (r1 r2 r3 : Word) (s : State) :
    (respond op e r1 r2 r3 s).withPast es = respond op e r1 r2 r3 (s.withPast es) := withPast_emit _ s

theorem prependEvents_done (op : Byte) (r1 r2 r3 : Word) (s : State) :
    prependEvents es (done op r1 r2 r3 s) = done op r1 r2 r3 (s.withPast es) :=
  congrArg Host.Outcome.next (withPast_respond op .ok r1 r2 r3 s)

theorem prependEvents_raise (op : Byte) (e : ErrorCode) (s : State) :
    prependEvents es (raise op e s) = raise op e (s.withPast es) :=
  congrArg Host.Outcome.next (withPast_respond op e 0 0 0 s)

theorem prependEvents_ite {c : Prop} [Decidable c] {a b a' b' : Result} (ha : prependEvents es a = a')
    (hb : prependEvents es b = b') : prependEvents es (if c then a else b) = if c then a' else b' := by
  rw [apply_ite (prependEvents es), ha, hb]

theorem prependEvents_withRing {k k' : RingBuffer → Result} (h : ∀ r, prependEvents es (k r) = k' r) :
    prependEvents es (withRing s k) = withRing (s.withPast es) k' := by
  cases hr : s.rb with
  | none => rw [withRing_none hr, withRing_none (s := s.withPast es) hr]; rfl
  | some r => rw [withRing_some hr, withRing_some (s := s.withPast es) hr, h]

theorem prependEvents_withParams {k k' : Params → Result} (h : ∀ p, prependEvents es (k p) = k' p) :
    prependEvents es (withParams s k) = withParams (s.withPast es) k' := by
  unfold withParams
  rw [withPast_params]
  cases s.params with
  | none => rfl
  | some p => exact h p

/-! ### Ring buffer -/

theorem withPast_signalSpace (s : State) (r : RingBuffer) :
    (signalSpace s r).withPast es = signalSpace (s.withPast es) r := by
  unfold signalSpace
  rw [apply_ite (State.withPast es), withPast_emit]
  rfl

theorem execRbCreate_ignoresPast (capacity : Word) : IgnoresPast (execRbCreate capacity) := fun es s => by
  refine prependEvents_ite rfl (prependEvents_ite rfl ?_)
  rw [createRing_withPast]
  cases createRing capacity s with
  | none => exact prependEvents_raise _ _ s
  | some r => exact prependEvents_done _ _ _ _ _

theorem execRbDestroy_ignoresPast : IgnoresPast execRbDestroy := fun _ _ =>
  prependEvents_ite rfl (prependEvents_done _ _ _ _ _)

theorem execRbOccupied_ignoresPast : IgnoresPast execRbOccupied := fun _ _ =>
  prependEvents_withRing fun _ => prependEvents_done _ _ _ _ _

theorem execRbFree_ignoresPast : IgnoresPast execRbFree := fun _ _ =>
  prependEvents_withRing fun _ => prependEvents_done _ _ _ _ _

theorem execRbRead_ignoresPast : IgnoresPast execRbRead := fun _ s =>
  prependEvents_ite rfl <| prependEvents_withRing fun r => by
    cases ringPop r with
    | none => exact prependEvents_raise _ _ s
    | some p => exact prependEvents_done _ _ _ _ _

theorem execRbWrite_ignoresPast (b : Byte) : IgnoresPast (execRbWrite b) := fun _ s =>
  prependEvents_ite rfl <| prependEvents_withRing fun r => by
    cases ringPush r b with
    | none => exact prependEvents_raise _ _ s
    | some r' => exact prependEvents_done _ _ _ _ _

theorem execRbFlush_ignoresPast : IgnoresPast execRbFlush := fun _ _ =>
  prependEvents_ite rfl <| prependEvents_withRing fun _ => prependEvents_done _ _ _ _ _

theorem execRbSignal_ignoresPast : IgnoresPast execRbSignal := fun es s =>
  prependEvents_withRing fun r => by
    rw [prependEvents_done, withPast_signalSpace]
    rfl

theorem execRbWait_ignoresPast (timeout : Word) : IgnoresPast (execRbWait timeout) := fun _ _ =>
  prependEvents_withRing fun _ => rfl

theorem directTake_ignoresPast (w : DirectWait) : IgnoresPast (directTake w) := fun _ _ =>
  prependEvents_withRing fun _ =>
    prependEvents_ite (prependEvents_done _ _ _ _ _) (prependEvents_ite (prependEvents_raise _ _ _) rfl)

/-! ### Lifecycle -/

theorem execInit_ignoresPast (len : Word) (res sel gl gr : Byte) : IgnoresPast (execInit len res sel gl gr) := fun es s => by
  refine prependEvents_ite (prependEvents_raise _ _ s)
    (prependEvents_ite (prependEvents_raise _ _ s) (prependEvents_ite rfl ?_))
  rw [createRing_withPast]
  cases createRing len s with
  | none => exact prependEvents_raise _ _ s
  | some r =>
    exact prependEvents_ite (prependEvents_raise _ _ s)
      (prependEvents_ite (prependEvents_raise _ _ s) (prependEvents_done _ _ _ _ _))

theorem execDeinit_ignoresPast : IgnoresPast execDeinit := fun _ _ =>
  prependEvents_ite rfl (prependEvents_ite (prependEvents_done _ _ _ _ _) (prependEvents_done _ _ _ _ _))

theorem execSetParam_ignoresPast (rate bits channels : Word) : IgnoresPast (execSetParam rate bits channels) := fun es s => by
  unfold execSetParam
  rw [withPast_status]
  cases s.status with
  | uninitialized => exact prependEvents_raise _ _ s
  | busy => exact prependEvents_raise _ _ s
  | idle =>
    exact prependEvents_ite (prependEvents_raise _ _ s) <| prependEvents_ite (prependEvents_raise _ _ s) <|
      prependEvents_ite (prependEvents_raise _ _ s) <| prependEvents_withParams fun _ => prependEvents_done _ _ _ _ _

theorem execSetRate_ignoresPast (rate : Word) : IgnoresPast (execSetRate rate) := fun _ s =>
  prependEvents_ite (prependEvents_raise _ _ s) <| prependEvents_ite (prependEvents_raise _ _ s) <|
    prependEvents_withParams fun _ => prependEvents_done _ _ _ _ _

theorem execSetVol_ignoresPast (v : Word) : IgnoresPast (execSetVol v) := fun _ s =>
  prependEvents_ite (prependEvents_raise _ _ s) <| prependEvents_ite (prependEvents_raise _ _ s) <|
    prependEvents_withParams fun _ => prependEvents_done _ _ _ _ _

theorem execGetVol_ignoresPast : IgnoresPast execGetVol := fun _ s =>
  prependEvents_ite (prependEvents_raise _ _ s) <| prependEvents_withParams fun _ => prependEvents_done _ _ _ _ _

theorem execGetParam_ignoresPast : IgnoresPast execGetParam := fun _ s =>
  prependEvents_ite (prependEvents_raise _ _ s) <| prependEvents_withParams fun _ => prependEvents_done _ _ _ _ _

theorem execGetStatus_ignoresPast : IgnoresPast execGetStatus := fun _ s =>
  prependEvents_ite (prependEvents_raise _ _ s) (prependEvents_done _ _ _ _ _)

theorem execStart_ignoresPast : IgnoresPast execStart := fun es s => by
  unfold execStart
  rw [withPast_status]
  cases s.status with
  | uninitialized => exact prependEvents_raise _ _ s
  | busy => exact prependEvents_raise _ _ s
  | idle => exact prependEvents_done _ _ _ _ _

theorem execStop_ignoresPast : IgnoresPast execStop := fun es s => by
  refine prependEvents_ite rfl ?_
  rw [withPast_status]
  cases s.status with
  | uninitialized => exact prependEvents_raise _ _ s
  | idle => exact prependEvents_raise _ _ s
  | busy => exact prependEvents_withRing fun _ => prependEvents_done _ _ _ _ _

/-! ### Producer write path -/

theorem execWrite_ignoresPast (buf length timeout : Word) : IgnoresPast (execWrite buf length timeout) := fun _ s =>
  prependEvents_ite rfl <| prependEvents_ite (prependEvents_raise _ _ s) <|
    prependEvents_ite (prependEvents_raise _ _ s) (prependEvents_ite rfl rfl)

/-- The source loop reads the configuration and the source buffer only. -/
theorem pushSource_withPast (volume : Word) (n addr : Nat) (r : RingBuffer) :
    pushSource (s.withPast es) volume n addr r = pushSource s volume n addr r := by
  induction n generalizing addr r with
  | zero => rfl
  | succ n ih =>
    unfold pushSource
    simp only [ih]
    rfl

theorem execWriteNb_ignoresPast (buf length : Word) : IgnoresPast (execWriteNb buf length) := fun _ s =>
  prependEvents_ite rfl <| prependEvents_ite (prependEvents_raise _ _ s) <|
    prependEvents_ite (prependEvents_raise _ _ s) <| prependEvents_ite rfl <|
    prependEvents_withRing fun r => prependEvents_withParams fun p => by
      simp only [pushSource_withPast]
      cases pushSource s p.volume (min length.toNat (free r)) buf.toNat r with
      | none => rfl
      | some r' => exact prependEvents_done _ _ _ _ _

theorem finishWrite_ignoresPast (timedOut : Bool) : IgnoresPast (finishWrite timedOut) := fun _ _ =>
  prependEvents_done _ _ _ _ _

theorem waitClearStep_ignoresPast : IgnoresPast waitClearStep := fun _ _ => prependEvents_withRing fun _ => rfl

theorem waitTakeStep_ignoresPast : IgnoresPast waitTakeStep := fun es s =>
  prependEvents_withRing fun _ => prependEvents_ite rfl (prependEvents_ite (finishWrite_ignoresPast true es s) rfl)

theorem chunkStep_ignoresPast : IgnoresPast chunkStep := fun es s =>
  prependEvents_ite rfl <| prependEvents_withRing fun r => prependEvents_withParams fun p => by
    rw [memRead_withPast, withPast_wr, withPast_cfg]
    cases ringPush r (scale s.cfg (memRead s s.wr.buf) p.volume) <;> rfl

theorem checkStep_ignoresPast : IgnoresPast checkStep := fun es s =>
  prependEvents_ite (finishWrite_ignoresPast false es s) (prependEvents_ite (finishWrite_ignoresPast true es s) rfl)

theorem prodStep_ignoresPast : IgnoresPast prodStep := fun es s => by
  unfold prodStep
  rw [withPast_wr, withPast_wait]
  cases s.wr.phase with
  | waitClear => exact waitClearStep_ignoresPast es s
  | waitTake => exact waitTakeStep_ignoresPast es s
  | chunk => exact chunkStep_ignoresPast es s
  | check => exact checkStep_ignoresPast es s
  | none =>
    cases s.wait with
    | none => rfl
    | some w => exact directTake_ignoresPast w es s

/-! ### Duty driver and sample clock -/

theorem withPast_applyDuty (c : Channel) (v : Byte) (s : State) :
    (applyDuty c v s).withPast es = applyDuty c v (s.withPast es) := withPast_emit _ _

theorem execSetDuty_ignoresPast (c : Channel) (v : Byte) : IgnoresPast (execSetDuty c v) := fun es s => by
  unfold execSetDuty
  rw [prependEvents_done, withPast_applyDuty]

theorem execLatch_ignoresPast (c : Channel) : IgnoresPast (execLatch c) := fun _ _ =>
  prependEvents_ite (congrArg Host.Outcome.next (withPast_emit _ _)) rfl

theorem withPast_serveAlarm (s : State) (r : RingBuffer) :
    (serveAlarm s r).withPast es = serveAlarm (s.withPast es) r := by
  unfold serveAlarm
  cases ringPop r with
  | none => rw [withPast_signalSpace, withPast_emit]
  | some p =>
    rw [withPast_signalSpace, withPast_emit, withPast_applyDuty]
    rfl

theorem takeAlarm_ignoresPast : IgnoresPast takeAlarm := fun _ s =>
  prependEvents_ite (prependEvents_withRing fun r => congrArg Host.Outcome.next (withPast_serveAlarm s r))
    (congrArg Host.Outcome.next (withPast_emit _ s))

theorem timerFires_ignoresPast : IgnoresPast timerFires := fun _ _ =>
  prependEvents_ite (takeAlarm_ignoresPast _ _) rfl

theorem countDown_ignoresPast (n : Nat) : IgnoresPast (countDown n) := fun es s =>
  prependEvents_ite (timerFires_ignoresPast es s) rfl

theorem countStep_ignoresPast : IgnoresPast countStep := fun es s => by
  refine prependEvents_ite ?_ rfl
  rw [withPast_timer]
  cases s.timer.countdown with
  | some n => exact countDown_ignoresPast n es s
  | none =>
    exact prependEvents_ite (prependEvents_ite (timerFires_ignoresPast es s) rfl)
      (countDown_ignoresPast _ es { s with draws := s.draws + 1 })

/-! ### Every operation, every turn, every step -/

theorem exec_ignoresPast (i : Instr) : IgnoresPast (exec i) := by
  cases i with
  | init => exact execInit_ignoresPast _ _ _ _ _
  | deinit => exact execDeinit_ignoresPast
  | setParam => exact execSetParam_ignoresPast _ _ _
  | setRate => exact execSetRate_ignoresPast _
  | setVol => exact execSetVol_ignoresPast _
  | getVol => exact execGetVol_ignoresPast
  | start => exact execStart_ignoresPast
  | stop => exact execStop_ignoresPast
  | getStatus => exact execGetStatus_ignoresPast
  | getParam => exact execGetParam_ignoresPast
  | write => exact execWrite_ignoresPast _ _ _
  | writeNb => exact execWriteNb_ignoresPast _ _
  | rbCreate => exact execRbCreate_ignoresPast _
  | rbDestroy => exact execRbDestroy_ignoresPast
  | rbOccupied => exact execRbOccupied_ignoresPast
  | rbFree => exact execRbFree_ignoresPast
  | rbRead => exact execRbRead_ignoresPast
  | rbWrite => exact execRbWrite_ignoresPast _
  | rbFlush => exact execRbFlush_ignoresPast
  | rbSignal => exact execRbSignal_ignoresPast
  | rbWait => exact execRbWait_ignoresPast _
  | setDuty => exact execSetDuty_ignoresPast _ _
  | alarm => exact takeAlarm_ignoresPast
  | latch => exact execLatch_ignoresPast _

theorem withPast_supplySource (i : Instr) (b : SourceBuffer) (s : State) :
    (supplySource i b s).withPast es = supplySource i b (s.withPast es) := by
  unfold supplySource
  rw [apply_ite (State.withPast es)]
  rfl

theorem issue_ignoresPast (p : Port) (k : Cmd) (b : SourceBuffer) : IgnoresPast (issue p k b) := fun es s => by
  unfold issue
  cases decode k with
  | error _ => exact prependEvents_raise _ _ s
  | ok i =>
    refine prependEvents_ite (prependEvents_raise _ _ s) (prependEvents_ite rfl ?_)
    rw [exec_ignoresPast, withPast_supplySource]

theorem turnOf_ignoresPast (a : Agent) : IgnoresPast (turnOf a) := by
  cases a with
  | prod => exact prodStep_ignoresPast
  | timer => exact countStep_ignoresPast
  | pwm c => exact execLatch_ignoresPast c
  | tick => exact fun _ _ => rfl

theorem serve_ignoresPast (x : Input) : IgnoresPast (serve x) := by
  cases x with
  | command p k d b => exact fun es s => issue_ignoresPast p k b es { s with env := d }
  | turn a => exact turnOf_ignoresPast a

theorem freeTurn_ignoresPast : IgnoresPast freeTurn := fun es s =>
  turnOf_ignoresPast _ es { s with draws := s.draws + 1 }

theorem step_ignoresPast : IgnoresPast step := fun es s => by
  refine prependEvents_ite ?_ rfl
  rw [withPast_agenda]
  cases s.agenda with
  | nil => exact freeTurn_ignoresPast es s
  | cons x rest => exact serve_ignoresPast x es { s with agenda := rest }

end Sys2Proof.Machine

open Sys2Proof.Machine

/-- Settles O55: the step is built of branches on registers, answers and reads of units, none of which sees the history. -/
theorem eventHistoryIsWriteOnly : Obligations.EventHistoryIsWriteOnly := fun s es => (step_ignoresPast es s).symm
end

section
/-! PROOFS. What no operation and no step writes: the configuration, the source buffer, the past (O56). -/

namespace Sys2Proof.Machine

variable {s t u : State}

/-- The configuration and the source buffer stand as they were (rules R20, R72, R354). -/
def KeepsConfigAndSource (s t : State) : Prop := t.cfg = s.cfg ∧ t.source = s.source

theorem KeepsConfigAndSource.rfl : KeepsConfigAndSource s s := ⟨Eq.refl _, Eq.refl _⟩

theorem Rejected.keeps {i : Instr} (e : Rejected i s t) : KeepsConfigAndSource s t := by
  obtain ⟨_, _, rfl⟩ := e
  exact .rfl

theorem Completed.keeps {i : Instr} {r1 r2 r3 : Word} (e : Completed i u t r1 r2 r3) (h : KeepsConfigAndSource s u) :
    KeepsConfigAndSource s t := by
  subst e
  exact h

/-! ### The operations -/

theorem signalSpace_keeps (s : State) (r : RingBuffer) : KeepsConfigAndSource s (signalSpace s r) := by
  obtain ⟨_, _, e, _⟩ := signalSpace_frame s r
  rw [e]
  exact .rfl

theorem execLatch_keeps {c : Channel} (e : execLatch c s = .next t) : KeepsConfigAndSource s t := by
  rcases execLatch_cases c s with ⟨_, _, e'⟩ | ⟨_, e'⟩ <;> obtain rfl := Host.Outcome.next.inj (e.symm.trans e') <;>
    exact .rfl

theorem takeAlarm_keeps (e : takeAlarm s = .next t) : KeepsConfigAndSource s t := by
  rcases takeAlarm_next e with ⟨_, rfl⟩ | ⟨_, r, _, ⟨_, rfl⟩ | ⟨b, r', _, rfl⟩⟩
  · exact .rfl
  · exact signalSpace_keeps (emit (.alarm .underrun) s) r
  · exact signalSpace_keeps (emit (.alarm (.byte b)) (applyDuty s.cfg.primaryCh b s)) r'

/-- Every operation leaves the configuration and the source buffer as they were. -/
theorem exec_keeps {i : Instr} (e : exec i s = .next t) : KeepsConfigAndSource s t := by
  cases i with
  | init => obtain e | ⟨_, _, _, _, _, _, e⟩ := execInit_next e; exacts [e.keeps, e.keeps .rfl]
  | deinit => obtain ⟨_, ⟨_, e⟩ | ⟨_, e⟩⟩ := execDeinit_next e <;> exact e.keeps .rfl
  | setParam => obtain e | ⟨_, _, _, _, _, _, e⟩ := execSetParam_next e; exacts [e.keeps, e.keeps .rfl]
  | setRate => obtain e | ⟨_, _, _, _, e⟩ := execSetRate_next e; exacts [e.keeps, e.keeps .rfl]
  | setVol => obtain e | ⟨_, _, _, _, e⟩ := execSetVol_next e; exacts [e.keeps, e.keeps .rfl]
  | getVol => obtain e | ⟨_, e⟩ := execGetVol_next e; exacts [e.keeps, e.keeps .rfl]
  | start => obtain e | ⟨_, e⟩ := execStart_next e; exacts [e.keeps, e.keeps .rfl]
  | stop => obtain ⟨_, e | ⟨_, _, _, e⟩⟩ := execStop_next e; exacts [e.keeps, e.keeps .rfl]
  | getStatus => obtain e | ⟨_, e⟩ := execGetStatus_next e; exacts [e.keeps, e.keeps .rfl]
  | getParam => obtain e | ⟨_, _, _, e⟩ := execGetParam_next e; exacts [e.keeps, e.keeps .rfl]
  | write => obtain ⟨_, e | ⟨_, _, _, _, rfl⟩⟩ := execWrite_next e; exacts [e.keeps, .rfl]
  | writeNb => obtain ⟨_, e | ⟨_, _, _, _, _, _, _, e⟩⟩ := execWriteNb_next e; exacts [e.keeps, e.keeps .rfl]
  | rbCreate => obtain ⟨_, _, e | ⟨_, _, _, e⟩⟩ := execRbCreate_next e; exacts [e.keeps, e.keeps .rfl]
  | rbDestroy => obtain ⟨_, _, e⟩ := execRbDestroy_next e; exact e.keeps .rfl
  | rbOccupied => obtain ⟨_, _, e⟩ := execRbOccupied_next e; exact e.keeps .rfl
  | rbFree => obtain ⟨_, _, e⟩ := execRbFree_next e; exact e.keeps .rfl
  | rbRead => obtain ⟨_, _, _, e | ⟨_, _, _, e⟩⟩ := execRbRead_next e; exacts [e.keeps, e.keeps .rfl]
  | rbWrite => obtain ⟨_, _, _, e | ⟨_, _, e⟩⟩ := execRbWrite_next e; exacts [e.keeps, e.keeps .rfl]
  | rbFlush => obtain ⟨_, _, _, _, e⟩ := execRbFlush_next e; exact e.keeps .rfl
  | rbSignal => obtain ⟨r, _, e⟩ := execRbSignal_next e; exact e.keeps (signalSpace_keeps s r)
  | rbWait => obtain ⟨_, _, rfl⟩ := execRbWait_next e; exact .rfl
  | setDuty c v => rw [done_next e]; exact .rfl
  | alarm => exact takeAlarm_keeps e
  | latch => exact execLatch_keeps e

/-! ### The turns -/

theorem timerFires_keeps (e : timerFires s = .next t) : KeepsConfigAndSource s t := by
  obtain ⟨_, e⟩ | ⟨_, rfl⟩ := timerFires_next e
  · exact takeAlarm_keeps (s := { s with timer := { s.timer with cnt := 0, countdown := none } }) e
  · exact .rfl

theorem countStep_keeps (e : countStep s = .next t) : KeepsConfigAndSource s t := by
  rcases countStep_next e with ⟨_, rfl⟩ | ⟨_, _, _, rfl⟩ | ⟨_, e⟩ | ⟨_, _, e⟩ | ⟨_, _, _, ⟨_, rfl⟩ | ⟨_, _, rfl⟩⟩
  · exact .rfl
  · exact .rfl
  · exact timerFires_keeps e
  · exact timerFires_keeps (s := { s with draws := s.draws + 1 }) e
  · exact .rfl
  · exact .rfl

theorem directTake_keeps {w : DirectWait} (e : directTake w s = .next t) : KeepsConfigAndSource s t := by
  obtain ⟨_, _, ⟨_, e⟩ | ⟨_, e⟩ | ⟨_, rfl⟩⟩ := directTake_next e
  · exact e.keeps .rfl
  · exact e.keeps
  · exact .rfl

theorem finishWrite_keeps {timedOut : Bool} (e : finishWrite timedOut s = .next t) : KeepsConfigAndSource s t := by
  rw [finishWrite_next e]
  exact .rfl

theorem prodStep_keeps (e : prodStep s = .next t) : KeepsConfigAndSource s t := by
  rcases prodStep_next e with ⟨_, _, rfl⟩ | ⟨_, _, _, e⟩ | ⟨_, _, _, rfl⟩ | ⟨_, _, _, ⟨_, rfl⟩ | ⟨_, e⟩ | ⟨_, rfl⟩⟩ |
    ⟨_, _, rfl⟩ | ⟨_, _, _, _, _, _, _, _, rfl⟩ | ⟨_, ⟨_, e⟩ | rfl⟩
  · exact .rfl
  · exact directTake_keeps e
  · exact .rfl
  · exact .rfl
  · exact finishWrite_keeps e
  · exact .rfl
  · exact .rfl
  · exact .rfl
  · exact finishWrite_keeps e
  · exact .rfl

/-- Every turn of an agent leaves the configuration and the source buffer as they were. -/
theorem turnOf_keeps {a : Agent} (e : turnOf a s = .next t) : KeepsConfigAndSource s t := by
  cases a with
  | prod => exact prodStep_keeps e
  | timer => exact countStep_keeps e
  | pwm c => exact execLatch_keeps e
  | tick =>
    obtain rfl := Host.Outcome.next.inj e
    exact .rfl

/-! ### The step -/

/-- The operations that read the source buffer are `WRITE` and `WRITE_NB` (rules R72, R103). -/
theorem op_of_readsSource {i : Instr} (h : readsSource i = true) : i.op ∈ ([0x10, 0x11] : List Byte) := by
  cases i with
  | write => exact List.mem_cons_self
  | writeNb => exact List.mem_cons_of_mem _ List.mem_cons_self
  | _ => cases h

/-- An arriving command leaves the configuration, and leaves the source buffer or brings its own to a `WRITE` or `WRITE_NB`
while none is in flight (rules R72, R354; D16). -/
theorem issue_keeps_or_supplies {p : Port} {k : Cmd} {b : SourceBuffer} (e : issue p k b s = .next t) :
    KeepsConfigAndSource s t ∨ (t.cfg = s.cfg ∧ t.source = b ∧ writeInFlight s = false ∧
      ∃ i, decode k = .ok i ∧ i.op ∈ ([0x10, 0x11] : List Byte)) := by
  obtain ⟨e, _⟩ | ⟨i, hd, _, _, e⟩ := issue_next e
  · rw [raise_next e]
    exact .inl .rfl
  · obtain ⟨hcfg, hsource⟩ := exec_keeps e
    obtain ⟨b', hs, rfl | ⟨rfl, hreads, hw⟩⟩ := supplySource_eq i b s <;> rw [hs] at hcfg hsource
    · exact .inl ⟨hcfg, hsource⟩
    · exact .inr ⟨hcfg, hsource, hw, i, hd, op_of_readsSource hreads⟩

/-- A step leaves the configuration, and leaves the source buffer or is a `WRITE` or `WRITE_NB` that brings one. -/
theorem step_keeps_or_supplies (e : step s = .next t) :
    KeepsConfigAndSource s t ∨ (t.cfg = s.cfg ∧ writeInFlight s = false ∧
      ∃ p k d rest i, s.agenda = .command p k d t.source :: rest ∧ decode k = .ok i ∧
        i.op ∈ ([0x10, 0x11] : List Byte)) := by
  obtain ⟨_, ⟨_, e⟩ | ⟨x, rest, ha, e⟩⟩ := step_next e
  · exact .inl (turnOf_keeps (s := { s with draws := s.draws + 1 }) e)
  · cases x with
    | turn a => exact .inl (turnOf_keeps (s := { s with agenda := rest }) e)
    | command p k d b =>
      obtain h | ⟨hcfg, rfl, hw, i, hd, hop⟩ := issue_keeps_or_supplies (s := { s with agenda := rest, env := d }) e
      · exact .inl h
      · exact .inr ⟨hcfg, hw, p, k, d, rest, i, ha, hd, hop⟩

/-- What ignores the past only appends to it: it answers the state without its past, and the past is put in front (R58). -/
theorem IgnoresPast.appends {f : State → Result} (hf : IgnoresPast f) (e : f s = .next t) :
    ∃ es, t.events = s.events ++ es := by
  have hpast : s = State.withPast s.events { s with events := [] } := by simp [State.withPast]
  rw [hpast, ← hf] at e
  cases h : f { s with events := [] } with
  | next u =>
    rw [h] at e
    obtain rfl := Host.Outcome.next.inj e
    exact ⟨u.events, rfl⟩
  | fault _ => rw [h] at e; cases e
  | refused _ => rw [h] at e; cases e

end Sys2Proof.Machine

open Sys2Proof.Machine

/-- Settles O56: no operation and no turn writes either; only an arriving command can bring a source buffer; and the history
grows because the step ignores it. -/
theorem stepsNeverWriteConfigurationOrSource : Obligations.StepsNeverWriteConfigurationOrSource := by
  refine ⟨fun _ _ _ e => exec_keeps e, fun s t e => ?_⟩
  have hgrows := step_ignoresPast.appends e
  obtain ⟨hcfg, hsource⟩ | ⟨hcfg, hw, hsupply⟩ := step_keeps_or_supplies e
  · exact ⟨hcfg, hgrows, fun _ => hsource, .inl hsource⟩
  · exact ⟨hcfg, hgrows, fun hflight => by simp [hw] at hflight, .inr hsupply⟩
end

section
/-! PROOFS. A ring holds at most one byte less than its size, and `RB_WRITE` is answered `Full` exactly then (O19). -/

namespace Sys2Proof.Machine

/-- An operation gives one answer: two result codes of it are the same. -/
theorem Answers.code_unique {i : Instr} {s t u : State} {a0 a1 a2 a3 b0 b1 b2 b3 : Word} (ha : Answers i s t a0 a1 a2 a3)
    (hb : Answers i s u b0 b1 b2 b3) : a0 = b0 := by
  obtain ⟨hta, hea⟩ := ha
  obtain ⟨htb, heb⟩ := hb
  obtain rfl := Host.Outcome.next.inj (hta.symm.trans htb)
  have hresp := List.append_cancel_left (hea.symm.trans heb)
  simp only [List.cons.injEq, Event.resp.injEq] at hresp
  exact hresp.1.2.1

section
variable {s : State} {r : RingBuffer} (b : Byte) (hw : writeInFlight s = false) (hr : s.rb = some r)
include hw hr

/-- `RB_WRITE` is answered `Full` where nothing is free (R135). -/
theorem rbWrite_answers_full (hok : r.Ok) (hfree : free r = 0) : ∃ t, Answers (.rbWrite b) s t 8 0 0 0 := by
  have hpush : ringPush r b = none := (ringPush_eq_none_iff hok b).mpr hfree
  have e : exec (.rbWrite b) s = raise (Instr.rbWrite b).op .full s := by
    simp [exec, execRbWrite, hw, withRing_some hr, hpush]
  exact ⟨_, (answers_raise e).1⟩

/-- `RB_WRITE` is answered `OK` where a byte is free (R135). -/
theorem rbWrite_answers_ok (hok : r.Ok) (hfree : free r ≠ 0) : ∃ t, Answers (.rbWrite b) s t 0 0 0 0 := by
  obtain ⟨r', hpush⟩ := Option.ne_none_iff_exists'.mp (mt (ringPush_eq_none_iff hok b).mp hfree)
  have e : exec (.rbWrite b) s = done (Instr.rbWrite b).op 0 0 0 (s.setRing r') := by
    simp [exec, execRbWrite, hw, withRing_some hr, hpush]
  exact ⟨_, answers_done e rfl⟩

/-- `RB_WRITE` gives one answer, so it is `Full` only where nothing is free, ... -/
theorem rbWrite_answers_full_iff (hok : r.Ok) : (∃ t, Answers (.rbWrite b) s t 8 0 0 0) ↔ free r = 0 := by
  refine ⟨fun ⟨_, hfull⟩ => ?_, rbWrite_answers_full b hw hr hok⟩
  by_contra hfree
  obtain ⟨_, hdone⟩ := rbWrite_answers_ok b hw hr hok hfree
  exact absurd (hfull.code_unique hdone) (by decide)

/-- ... and `OK` only where a byte is free. -/
theorem rbWrite_answers_ok_iff (hok : r.Ok) : (∃ t, Answers (.rbWrite b) s t 0 0 0 0) ↔ free r ≠ 0 := by
  refine ⟨fun ⟨_, hdone⟩ hfree => ?_, rbWrite_answers_ok b hw hr hok⟩
  obtain ⟨_, hfull⟩ := rbWrite_answers_full b hw hr hok hfree
  exact absurd (hfull.code_unique hdone) (by decide)

end

end Sys2Proof.Machine

open Sys2Proof.Machine

/-- Settles O19: held and free bytes add up to `size - 1` (R28), so nothing is free exactly when that many are held. -/
theorem ringHoldsAtMostSizeMinusOneBytes : Obligations.RingHoldsAtMostSizeMinusOneBytes := by
  intro s r b hw hr hok
  have hsum := occupied_add_free hok
  rw [rbWrite_answers_full_iff b hw hr hok, rbWrite_answers_ok_iff b hw hr hok, contents_length]
  omega
end

section
/-! PROOFS. The state after reset meets the invariant of the block (O53). -/

namespace Sys2Proof.Machine

/-- A channel at power-on holds the duty value of sample 0, and its pin is an input (R330). -/
theorem channelRegs_reset_ok (k : Config) : ChannelRegs.reset.Ok k := ⟨isDuty_zero k, isDuty_zero k, by decide⟩

/-- At power-on every register whose width is a parameter is 0 (R330). -/
theorem reset_fits : State.reset.Fits :=
  have pos (n : Nat) : 0 < 2 ^ n := Nat.two_pow_pos n
  ⟨pos _, pos _, pos _, pos _, pos _, pos _, pos _, fun _ e => nomatch e⟩

theorem reset_inv : State.reset.Inv where
  legal := by decide
  ring := fun _ e => nomatch e
  capacity := fun _ e => nomatch e
  fits := reset_fits
  handle := rfl
  params := rfl
  paramsOk := fun _ e => nomatch e
  claimed := rfl
  run := rfl
  inten := rfl
  alarm := fun _ e => nomatch e
  countdown := fun _ e => nomatch e
  channels
    | .left => channelRegs_reset_ok _
    | .right => channelRegs_reset_ok _
  mask := rfl
  write := nofun
  chunk := nofun
  source := reset_source_wf
  agenda := nofun

end Sys2Proof.Machine

open Sys2Proof.Machine

/-- Settles O53: at power-on no unit exists, nothing runs and every register is 0. -/
theorem resetMeetsTheInvariant : Obligations.ResetMeetsTheInvariant := reset_inv
end

section
/-! PROOFS. Everything an operation or a turn can do to the ring, said once for the queue of waiting bytes (O58) and for the
bytes of its cells (O57). -/

namespace Sys2Proof.Machine

variable {s t u : State} {r : RingBuffer}

/-! ### The ring without its flags -/

/-- The ring with both flags cleared: the size, the cursors and the cells are left (rules R22 to R25). -/
def RingBuffer.unflagged (r : RingBuffer) : RingBuffer := { r with pending := false, sem := false }

/-- The ring of a state without its flags: what the queue and the bytes of the cells depend on. -/
def State.bareRing (s : State) : Option RingBuffer := s.rb.map RingBuffer.unflagged

theorem bareRing_of_some (h : s.rb = some r) : s.bareRing = some r.unflagged := by simp [State.bareRing, h]

theorem bareRing_congr (h : t.rb = s.rb) : t.bareRing = s.bareRing := by simp [State.bareRing, h]

theorem queue_of_bareRing (h : t.bareRing = some r.unflagged) : t.queue = r.contents := by
  obtain ⟨r', hr', he⟩ := Option.map_eq_some_iff.mp h
  calc t.queue = r'.contents := queue_of_some hr'
    _ = r'.unflagged.contents := rfl
    _ = r.unflagged.contents := by rw [he]

theorem queue_congr (h : t.bareRing = s.bareRing) : t.queue = s.queue := by
  cases hs : s.rb with
  | none =>
    have ht : t.rb = none := by simpa [State.bareRing, hs] using h
    rw [queue_of_none ht, queue_of_none hs]
  | some r => rw [queue_of_some hs, queue_of_bareRing (h.trans (bareRing_of_some hs))]

/-- The flags are no part of a cell. -/
theorem ringByte_eq_bareRing (s : State) (a : Nat) : ringByte s a = s.bareRing.map fun r => r.cell a := by
  rw [State.bareRing, Option.map_map]
  rfl

theorem ringByte_congr (h : t.bareRing = s.bareRing) (a : Nat) : ringByte t a = ringByte s a := by
  rw [ringByte_eq_bareRing, ringByte_eq_bareRing, h]

/-! ### What may happen to a ring -/

/-- The oldest byte was taken out of the ring; the flags may differ besides (rules R134, R163). -/
def TakesOldest (s t : State) : Prop :=
  ∃ r b r', s.rb = some r ∧ ringPop r = some (b, r') ∧ t.bareRing = some r'.unflagged

theorem TakesOldest.queue (h : TakesOldest s t) (hok : ∀ r, s.rb = some r → r.Ok) : ∃ b, s.queue = b :: t.queue := by
  obtain ⟨r, b, r', hr, hpop, ht⟩ := h
  exact ⟨b, by rw [queue_of_some hr, queue_of_bareRing ht, ringPop_contents (hok r hr) hpop]⟩

theorem TakesOldest.ringByte (h : TakesOldest s t) (a : Nat) : ringByte t a = ringByte s a := by
  obtain ⟨r, b, r', hr, hpop, ht⟩ := h
  rw [ringByte_eq_bareRing, ringByte_eq_bareRing, ht, bareRing_of_some hr]
  exact congrArg some (ringPop_cell hpop a)

/-- Bytes were put in at the end of the ring's queue (rules R135, R215, R218). -/
def Appends (s t : State) : Prop :=
  ∃ r r', s.rb = some r ∧ t.rb = some r' ∧ (r.Ok → ∃ bs, r'.contents = r.contents ++ bs)

theorem Appends.queue (h : Appends s t) (hok : ∀ r, s.rb = some r → r.Ok) : ∃ bs, t.queue = s.queue ++ bs := by
  obtain ⟨r, r', hr, hr', hbs⟩ := h
  rw [queue_of_some hr, queue_of_some hr']
  exact hbs (hok r hr)

theorem appends_of_push {r' : RingBuffer} {b : Byte} (hr : s.rb = some r) (hpush : ringPush r b = some r')
    (ht : t.rb = some r') : Appends s t :=
  ⟨r, r', hr, ht, fun hok => ⟨[b], ringPush_contents hok hpush⟩⟩

/-- The source loop of `WRITE_NB` puts in what fits, so it only appends (R218). -/
theorem appends_of_pushSource {r' : RingBuffer} {volume : Word} {length addr : Nat} (hr : s.rb = some r)
    (hpush : pushSource s volume (min length (free r)) addr r = some r') (ht : t.rb = some r') : Appends s t := by
  refine ⟨r, r', hr, ht, fun hok => ?_⟩
  obtain ⟨r₁, hpush₁, _, _, _, hcontents, _⟩ :=
    pushSource_spec s volume (min length (free r)) addr r hok (min_le_right _ _)
  obtain rfl : r' = r₁ := Option.some.inj (hpush.symm.trans hpush₁)
  exact ⟨_, hcontents⟩

/-- Everything an operation can do to the ring, with the operations that do it. -/
inductive RingEffect (i : Instr) (s t : State) : Prop
  /-- at most the flags were written. -/
  | kept (h : t.bareRing = s.bareRing)
  | taken (hi : i = .alarm ∨ i = .rbRead) (h : TakesOldest s t)
  | appended (hi : (∃ b, i = .rbWrite b) ∨ ∃ buf length, i = .writeNb buf length) (h : Appends s t)
  | flushed (hi : i = .stop ∨ i = .rbFlush) {r : RingBuffer} (hr : s.rb = some r) (h : t.rb = some (ringFlush r))
  | made (hi : touchesRingBytes i = true) {capacity : Word} {fill : Nat} (hr : s.rb = none)
      (h : t.rb = some (freshRing capacity fill))
  | released (hi : i = .deinit ∨ i = .rbDestroy) (h : t.rb = none)

theorem Completed.rb {i : Instr} {r1 r2 r3 : Word} (e : Completed i u t r1 r2 r3) : t.rb = u.rb := by
  subst e
  rfl

theorem Completed.ringKept {i : Instr} {r1 r2 r3 : Word} (e : Completed i u t r1 r2 r3) (h : u.bareRing = s.bareRing) :
    RingEffect i s t :=
  .kept ((bareRing_congr e.rb).trans h)

theorem Rejected.ringKept {i : Instr} (e : Rejected i s t) : RingEffect i s t := by
  obtain ⟨_, _, rfl⟩ := e
  exact .kept rfl

/-! ### The operations -/

theorem signalSpace_bareRing (s : State) (r : RingBuffer) : (signalSpace s r).bareRing = some r.unflagged := by
  rcases signalSpace_cases s r with ⟨_, _, e⟩ | ⟨_, e⟩ <;> rw [e] <;> rfl

/-- An alarm writes at most the flags, or serves the oldest byte (R163). -/
theorem takeAlarm_ring (e : takeAlarm s = .next t) : t.bareRing = s.bareRing ∨ TakesOldest s t := by
  rcases takeAlarm_next e with ⟨_, rfl⟩ | ⟨_, r, hr, ⟨_, rfl⟩ | ⟨b, r', hpop, rfl⟩⟩
  · exact .inl rfl
  · exact .inl ((signalSpace_bareRing _ r).trans (bareRing_of_some hr).symm)
  · exact .inr ⟨r, b, r', hr, hpop, signalSpace_bareRing _ r'⟩

theorem execLatch_rb {c : Channel} (e : execLatch c s = .next t) : t.rb = s.rb := by
  rcases execLatch_cases c s with ⟨_, _, e'⟩ | ⟨_, e'⟩ <;> obtain rfl := Host.Outcome.next.inj (e.symm.trans e') <;> rfl

theorem exec_ringEffect {i : Instr} (e : exec i s = .next t) : RingEffect i s t := by
  cases i with
  | init =>
    obtain e | ⟨_, hnone, _, _, _, _, e⟩ := execInit_next e
    · exact e.ringKept
    · exact .made rfl hnone e.rb
  | deinit =>
    obtain ⟨_, ⟨_, e⟩ | ⟨_, e⟩⟩ := execDeinit_next e
    · exact e.ringKept rfl
    · exact .released (.inl rfl) e.rb
  | setParam => obtain e | ⟨_, _, _, _, _, _, e⟩ := execSetParam_next e; exacts [e.ringKept, e.ringKept rfl]
  | setRate => obtain e | ⟨_, _, _, _, e⟩ := execSetRate_next e; exacts [e.ringKept, e.ringKept rfl]
  | setVol => obtain e | ⟨_, _, _, _, e⟩ := execSetVol_next e; exacts [e.ringKept, e.ringKept rfl]
  | getVol => obtain e | ⟨_, e⟩ := execGetVol_next e; exacts [e.ringKept, e.ringKept rfl]
  | start => obtain e | ⟨_, e⟩ := execStart_next e; exacts [e.ringKept, e.ringKept rfl]
  | stop =>
    obtain ⟨_, e | ⟨_, r, hr, e⟩⟩ := execStop_next e
    · exact e.ringKept
    · exact .flushed (.inl rfl) hr e.rb
  | getStatus => obtain e | ⟨_, e⟩ := execGetStatus_next e; exacts [e.ringKept, e.ringKept rfl]
  | getParam => obtain e | ⟨_, _, _, e⟩ := execGetParam_next e; exacts [e.ringKept, e.ringKept rfl]
  | write => obtain ⟨_, e | ⟨_, _, _, _, rfl⟩⟩ := execWrite_next e; exacts [e.ringKept, .kept rfl]
  | writeNb =>
    obtain ⟨_, e | ⟨_, r, p, r', hr, _, hpush, e⟩⟩ := execWriteNb_next e
    · exact e.ringKept
    · exact .appended (.inr ⟨_, _, rfl⟩) (appends_of_pushSource hr hpush e.rb)
  | rbCreate =>
    obtain ⟨_, hnone, e | ⟨_, _, _, e⟩⟩ := execRbCreate_next e
    · exact e.ringKept
    · exact .made rfl hnone e.rb
  | rbDestroy =>
    obtain ⟨_, _, e⟩ := execRbDestroy_next e
    exact .released (.inr rfl) e.rb
  | rbOccupied => obtain ⟨_, _, e⟩ := execRbOccupied_next e; exact e.ringKept rfl
  | rbFree => obtain ⟨_, _, e⟩ := execRbFree_next e; exact e.ringKept rfl
  | rbRead =>
    obtain ⟨_, r, hr, e | ⟨b, r', hpop, e⟩⟩ := execRbRead_next e
    · exact e.ringKept
    · exact .taken (.inr rfl) ⟨r, b, r', hr, hpop, bareRing_of_some e.rb⟩
  | rbWrite =>
    obtain ⟨_, r, hr, e | ⟨r', hpush, e⟩⟩ := execRbWrite_next e
    · exact e.ringKept
    · exact .appended (.inl ⟨_, rfl⟩) (appends_of_push hr hpush e.rb)
  | rbFlush =>
    obtain ⟨_, _, r, hr, e⟩ := execRbFlush_next e
    exact .flushed (.inr rfl) hr e.rb
  | rbSignal =>
    obtain ⟨r, hr, e⟩ := execRbSignal_next e
    exact e.ringKept ((signalSpace_bareRing s r).trans (bareRing_of_some hr).symm)
  | rbWait =>
    obtain ⟨r, hr, rfl⟩ := execRbWait_next e
    exact .kept (bareRing_of_some hr).symm
  | setDuty => rw [done_next e]; exact .kept rfl
  | alarm =>
    obtain h | h := takeAlarm_ring e
    · exact .kept h
    · exact .taken (.inl rfl) h
  | latch => exact .kept (bareRing_congr (execLatch_rb e))

/-! ### The turns -/

theorem timerFires_ring (e : timerFires s = .next t) : t.bareRing = s.bareRing ∨ TakesOldest s t := by
  obtain ⟨_, e⟩ | ⟨_, rfl⟩ := timerFires_next e
  · exact takeAlarm_ring (s := { s with timer := { s.timer with cnt := 0, countdown := none } }) e
  · exact .inl rfl

theorem run_of_timerCounts {c : Timer} (h : timerCounts c = true) : c.run = true := by
  simp only [timerCounts, Bool.and_eq_true] at h
  exact h.2

/-- A count leaves the ring, or reaches the alarm of a running timer (rules R162, R163). -/
theorem countStep_ring (e : countStep s = .next t) :
    t.bareRing = s.bareRing ∨ (TakesOldest s t ∧ s.timer.run = true) := by
  rcases countStep_next e with ⟨_, rfl⟩ | ⟨_, _, _, rfl⟩ | ⟨hc, e⟩ | ⟨hc, _, e⟩ | ⟨_, _, _, ⟨_, rfl⟩ | ⟨_, _, rfl⟩⟩
  · exact .inl rfl
  · exact .inl rfl
  · exact (timerFires_ring e).imp_right fun h => ⟨h, run_of_timerCounts hc⟩
  · exact (timerFires_ring (s := { s with draws := s.draws + 1 }) e).imp_right fun h => ⟨h, run_of_timerCounts hc⟩
  · exact .inl rfl
  · exact .inl rfl

theorem directTake_ring {w : DirectWait} (e : directTake w s = .next t) : t.bareRing = s.bareRing := by
  obtain ⟨r, hr, ⟨_, e⟩ | ⟨_, _, _, rfl⟩ | ⟨_, rfl⟩⟩ := directTake_next e
  · exact (bareRing_congr e.rb).trans (bareRing_of_some hr).symm
  · rfl
  · rfl

theorem finishWrite_ring {timedOut : Bool} (e : finishWrite timedOut s = .next t) : t.bareRing = s.bareRing := by
  rw [finishWrite_next e]
  rfl

/-- A step of `PROD` writes at most the flags, or puts in a byte of a chunk (R215). -/
theorem prodStep_ring (e : prodStep s = .next t) :
    t.bareRing = s.bareRing ∨ (Appends s t ∧ s.wr.phase = .chunk) := by
  rcases prodStep_next e with ⟨_, _, rfl⟩ | ⟨_, _, _, e⟩ | ⟨_, r, hr, rfl⟩ | ⟨_, r, hr, ⟨_, rfl⟩ | ⟨_, e⟩ | ⟨_, rfl⟩⟩ |
    ⟨_, _, rfl⟩ | ⟨hp, _, r, _, r', hr, _, hpush, rfl⟩ | ⟨_, ⟨_, e⟩ | rfl⟩
  · exact .inl rfl
  · exact .inl (directTake_ring e)
  · exact .inl (bareRing_of_some hr).symm
  · exact .inl (bareRing_of_some hr).symm
  · exact .inl (finishWrite_ring e)
  · exact .inl rfl
  · exact .inl rfl
  · exact .inr ⟨appends_of_push hr hpush rfl, hp⟩
  · exact .inl (finishWrite_ring e)
  · exact .inl rfl

/-- Only a byte of a chunk and a served alarm change more of the ring than its flags (rules R163, R215). -/
theorem turnOf_ring {a : Agent} (e : turnOf a s = .next t) :
    t.bareRing = s.bareRing ∨ (a = .prod ∧ Appends s t ∧ s.wr.phase = .chunk) ∨
      (a = .timer ∧ TakesOldest s t ∧ s.timer.run = true) := by
  cases a with
  | prod => exact (prodStep_ring e).imp_right fun h => .inl ⟨rfl, h⟩
  | timer => exact (countStep_ring e).imp_right fun h => .inr ⟨rfl, h⟩
  | pwm c => exact .inl (bareRing_congr (execLatch_rb e))
  | tick =>
    obtain rfl := Host.Outcome.next.inj e
    exact .inl rfl

end Sys2Proof.Machine
end

section
/-! PROOFS. Every step keeps the queue of waiting bytes in order (O58). -/

namespace Sys2Proof.Machine

variable {s t u : State}

/-- The queue stands, grows at its end, loses its oldest byte or is emptied, each with its cause (rules R89, R136, R140). -/
def QueueInOrder (s t : State) : Prop :=
  t.queue = s.queue ∨
  ((∃ bs, t.queue = s.queue ++ bs) ∧
    (NextCommand s .data [0x11, 0x25] ∨ NextCommand s .interrupt [0x11] ∨ (MayTurn s .prod ∧ s.wr.phase = .chunk))) ∨
  ((∃ b, s.queue = b :: t.queue) ∧
    (NextCommand s .event [0x40] ∨ NextCommand s .interrupt [0x24] ∨ (MayTurn s .timer ∧ s.status = .busy))) ∨
  (t.queue = [] ∧ NextCommand s .control [0x02, 0x08, 0x21, 0x26])

/-- The timer runs only while `BUSY` (R167). -/
theorem State.Inv.busy_of_run (h : s.Inv) (hrun : s.timer.run = true) : s.status = .busy :=
  of_decide_eq_true (h.run.symm.trans hrun)

/-- The turn of an agent, taken in a state `u` that differs from `s` in bookkeeping only. -/
theorem queueInOrder_of_turn {a : Agent} (hu : u.Inv) (hm : MayTurn s a) (hqueue : u.queue = s.queue) (hwr : u.wr = s.wr)
    (hstatus : u.status = s.status) (e : turnOf a u = .next t) : QueueInOrder s t := by
  rw [QueueInOrder, ← hqueue, ← hwr, ← hstatus]
  obtain h | ⟨rfl, h, hphase⟩ | ⟨rfl, h, hrun⟩ := turnOf_ring e
  · exact .inl (queue_congr h)
  · exact .inr (.inl ⟨h.queue hu.ring, .inr (.inr ⟨hm, hphase⟩)⟩)
  · exact .inr (.inr (.inl ⟨h.queue hu.ring, .inr (.inr ⟨hm, hu.busy_of_run hrun⟩)⟩))

theorem mem_portsOf {p : Port} {i : Instr} (h : portAllows p i = true) : p ∈ portsOf i := List.contains_iff_mem.mp h

/-- The operation of an arriving command, run in a state `u` with the same queue: the ports that may carry it (R114) name
the cause. -/
theorem queueInOrder_of_exec {p : Port} {i : Instr} (h : RingEffect i u t) (hok : ∀ r, u.rb = some r → r.Ok)
    (hqueue : u.queue = s.queue) (hp : portAllows p i = true) (hnext : ∀ ops, i.op ∈ ops → NextCommand s p ops) :
    QueueInOrder s t := by
  have hport := mem_portsOf hp
  rw [QueueInOrder, ← hqueue]
  cases h with
  | kept h => exact .inl (queue_congr h)
  | taken hi h =>
    refine .inr (.inr (.inl ⟨h.queue hok, ?_⟩))
    obtain rfl | rfl := hi
    · obtain rfl := List.mem_singleton.mp hport
      exact .inl (hnext _ (by decide))
    · obtain rfl := List.mem_singleton.mp hport
      exact .inr (.inl (hnext _ (by decide)))
  | appended hi h =>
    refine .inr (.inl ⟨h.queue hok, ?_⟩)
    obtain ⟨b, rfl⟩ | ⟨buf, length, rfl⟩ := hi
    · obtain rfl := List.mem_singleton.mp hport
      exact .inl (hnext _ (by simp [Instr.op]))
    · obtain rfl | rfl := List.mem_pair.mp hport
      · exact .inl (hnext _ (by simp [Instr.op]))
      · exact .inr (.inl (hnext _ (by simp [Instr.op])))
  | flushed hi hr h =>
    refine .inr (.inr (.inr ⟨(queue_of_some h).trans (contents_ringFlush _), ?_⟩))
    obtain rfl | rfl := hi <;> obtain rfl := List.mem_singleton.mp hport <;> exact hnext _ (by decide)
  | made hi hr h => exact .inl ((queue_of_some h).trans ((contents_freshRing _ _).trans (queue_of_none hr).symm))
  | released hi h =>
    refine .inr (.inr (.inr ⟨queue_of_none h, ?_⟩))
    obtain rfl | rfl := hi <;> obtain rfl := List.mem_singleton.mp hport <;> exact hnext _ (by decide)

/-- A command at the head of the agenda: an illegal one writes no register (R109), a legal one runs its operation. -/
theorem queueInOrder_of_command {p : Port} {k : Cmd} {d : Draws} {b : SourceBuffer} {rest : List Input} (h : s.Inv)
    (ha : s.agenda = .command p k d b :: rest) (e : issue p k b { s with agenda := rest, env := d } = .next t) :
    QueueInOrder s t := by
  obtain ⟨e, _⟩ | ⟨i, hd, hp, _, e⟩ := issue_next e
  · rw [raise_next e]
    exact .inl rfl
  · have hnext (ops : List Byte) (hop : i.op ∈ ops) : NextCommand s p ops := ⟨k, d, b, rest, i, ha, hd, hop⟩
    obtain ⟨b', hs, _⟩ := supplySource_eq i b { s with agenda := rest, env := d }
    rw [hs] at e
    exact queueInOrder_of_exec (exec_ringEffect e) h.ring rfl hp hnext

end Sys2Proof.Machine

open Sys2Proof.Machine

/-- Settles O58, by cases on the step: a turn that is free, a turn on the agenda, or a command. -/
theorem everyStepKeepsTheQueueInOrder : Obligations.EveryStepKeepsTheQueueInOrder := by
  intro s t h e
  obtain ⟨_, ⟨ha, e⟩ | ⟨x, rest, ha, e⟩⟩ := step_next e
  · exact queueInOrder_of_turn (inv_draw h) (.inr ha) rfl rfl rfl e
  · cases x with
    | turn a =>
      have hrest : rest ⊆ s.agenda := ha ▸ List.subset_cons_self _ rest
      exact queueInOrder_of_turn (inv_agenda h hrest) (.inl ⟨rest, ha⟩) rfl rfl rfl e
    | command p k d b => exact queueInOrder_of_command h ha e
end

section
/-! PROOFS. The ring is a first-in first-out queue (O18). -/

namespace Sys2Proof.Machine

variable {s t : State} {r : RingBuffer}

theorem errorWord_eq_zero_iff (e : ErrorCode) : errorWord e = 0 ↔ e = .ok := by cases e <;> decide

/-- An operation answered `OK` was not rejected. -/
theorem Answers.not_rejected {i : Instr} {r1 r2 r3 : Word} (h : Answers i s t 0 r1 r2 r3) : ¬ Rejected i s t := by
  rintro ⟨e, he, rfl⟩
  have herror : Answers i s (respond i.op e 0 0 0 s) (errorWord e) 0 0 0 := ⟨h.1, rfl⟩
  exact he ((errorWord_eq_zero_iff e).mp (herror.code_unique h))

/-- An `RB_WRITE` answered `OK` puts its byte at the end of the queue (R135). -/
theorem rbWrite_ok_contents {b : Byte} (hr : s.rb = some r) (hok : r.Ok) (h : Answers (.rbWrite b) s t 0 0 0 0) :
    ∃ r', t.rb = some r' ∧ r'.contents = r.contents ++ [b] := by
  obtain ⟨_, r₀, hr₀, e | ⟨r', hpush, e⟩⟩ := execRbWrite_next h.1
  · exact absurd e h.not_rejected
  · obtain rfl : r = r₀ := Option.some.inj (hr.symm.trans hr₀)
    exact ⟨r', e.rb, ringPush_contents hok hpush⟩

/-- A queue that is not empty gives its oldest byte, and the rest of it is left (R134). -/
theorem ringPop_of_contents {b : Byte} {rest : List Byte} (hok : r.Ok) (hc : r.contents = b :: rest) :
    ∃ r', ringPop r = some (b, r') ∧ r'.contents = rest := by
  rcases ringPop_cases r with ⟨hempty, _⟩ | ⟨_, hpop⟩
  · have hlength := contents_length r
    rw [hc, (occupied_eq_zero_iff hok).mpr hempty] at hlength
    exact nomatch hlength
  · obtain ⟨hb, hrest⟩ := List.cons.inj (hc.symm.trans (ringPop_contents hok hpop))
    exact ⟨_, hb ▸ hpop, hrest.symm⟩

/-- `RB_READ` answers the byte it takes out (R134). -/
theorem rbRead_answers {b : Byte} {r' : RingBuffer} (hrun : s.timer.run = false) (hr : s.rb = some r)
    (hpop : ringPop r = some (b, r')) :
    Answers .rbRead s (respond Instr.rbRead.op .ok (b.setWidth 32) 0 0 (s.setRing r')) 0 (b.setWidth 32) 0 0 := by
  have e : exec .rbRead s = done Instr.rbRead.op (b.setWidth 32) 0 0 (s.setRing r') := by
    simp [exec, execRbRead, hrun, withRing_some hr, hpop]
  exact answers_done e rfl

end Sys2Proof.Machine

open Sys2Proof.Machine

/-- Settles O18: a push appends to the queue, and a pop takes its first byte. -/
theorem ringIsAFirstInFirstOutQueue : Obligations.RingIsAFirstInFirstOutQueue := by
  refine fun s r hr hok => ⟨fun b t _ h => rbWrite_ok_contents hr hok h, fun b rest hrun hc => ?_⟩
  obtain ⟨r', hpop, hrest⟩ := ringPop_of_contents hok hc
  exact ⟨_, r', rbRead_answers hrun hr hpop, rfl, hrest⟩
end

section
/-! PROOFS. Operations that are no ring writes leave the bytes of every cell (O57). -/

namespace Sys2Proof.Machine

variable {s t : State}

/-- Taking a byte out and flushing move cursors only; the other effects are those of ring writes (R71). -/
theorem RingEffect.ringByte {i : Instr} (h : RingEffect i s t) (hi : touchesRingBytes i = false) (a : Nat) :
    ringByte t a = ringByte s a := by
  cases h with
  | kept h => exact ringByte_congr h a
  | taken _ h => exact h.ringByte a
  | appended hwrite => obtain ⟨_, rfl⟩ | ⟨_, _, rfl⟩ := hwrite <;> cases hi
  | flushed _ hr h => simp [Machine.ringByte, hr, h]
  | made htouch => exact nomatch hi.symm.trans htouch
  | released hfree => obtain rfl | rfl := hfree <;> cases hi

theorem turnOf_ringByte {g : Agent} (hg : g ≠ .prod) (e : turnOf g s = .next t) (a : Nat) :
    ringByte t a = ringByte s a := by
  obtain h | ⟨hprod, _⟩ | ⟨_, h, _⟩ := turnOf_ring e
  · exact ringByte_congr h a
  · exact absurd hprod hg
  · exact h.ringByte a

end Sys2Proof.Machine

open Sys2Proof.Machine

/-- Settles O57: the cells by what each operation and each turn can do to the ring, the source buffer because none writes
it. -/
theorem otherOperationsLeaveEveryRingByte : Obligations.OtherOperationsLeaveEveryRingByte :=
  ⟨fun _ _ _ hi e a => ⟨(exec_ringEffect e).ringByte hi a, (exec_keeps e).2⟩,
    fun _ _ _ hg e a => ⟨turnOf_ringByte hg e a, (turnOf_keeps e).2⟩⟩
end

section
/-! PROOFS. A step runs the command at the head of the agenda (O4). -/

namespace Sys2Proof.Machine

variable {s : State}

/-- With a command at the head of the agenda the step is its arrival on its port (R100, log 4). -/
theorem step_command {p : Port} {k : Cmd} {d : Draws} {b : SourceBuffer} {rest : List Input} (hl : s.cfg.Legal)
    (ha : s.agenda = .command p k d b :: rest) : step s = issue p k b { s with agenda := rest, env := d } := by
  rw [step, if_pos hl, ha]
  rfl

/-- A legal command on a port that is not busy runs its operation (rules R100, R114). -/
theorem issue_runs {p : Port} {k : Cmd} {i : Instr} (b : SourceBuffer) (hd : decode k = .ok i)
    (hp : portAllows p i = true) (hb : p = .data → dataPortBusy s = false) :
    issue p k b s = exec i (supplySource i b s) := by
  have hfree : ¬ (p = .data ∧ dataPortBusy s = true) := fun ⟨hdata, hbusy⟩ => by simp [hb hdata] at hbusy
  simp [issue, hd, hp, hfree]

/-- `WRITE` and `WRITE_NB` are the operations that read the source buffer (R72). -/
theorem readsSource_iff (i : Instr) : readsSource i = true ↔ i.op ∈ ([0x10, 0x11] : List Byte) := by
  refine ⟨op_of_readsSource, fun h => ?_⟩
  cases i with
  | write => rfl
  | writeNb => rfl
  | _ => simp [Instr.op] at h

/-- The source buffer a command brings stands in place of the old one where its operation reads one (rules R72, R354). -/
theorem supplySource_eq_ite (i : Instr) (b : SourceBuffer) (s : State) :
    supplySource i b s = { s with
      source := if i.op ∈ ([0x10, 0x11] : List Byte) ∧ writeInFlight s = false then b else s.source } := by
  simp only [supplySource, ← readsSource_iff, Bool.and_eq_true, Bool.not_eq_true']
  split <;> rfl

end Sys2Proof.Machine

open Sys2Proof.Machine

/-- Settles O4: the step is the arrival of the command, which runs its operation with the source buffer in place. -/
theorem stepRunsTheArrivingCommand : Obligations.StepRunsTheArrivingCommand := by
  intro s p k d b rest i hl ha hd hp hb
  rw [step_command hl ha, issue_runs (s := { s with agenda := rest, env := d }) b hd hp hb, supplySource_eq_ite]
  rfl
end

section
/-! PROOFS. `WRITE` and `WRITE_NB` refuse a source range that passes the top of the source space (O30). -/

open Sys2Proof.Machine

/-- Settles O30: the tests before the range test all pass, and the range test fails. -/
theorem wrappingSourceRangeIsRefused : Obligations.WrappingSourceRangeIsRefused := by
  intro s buf length timeout hw hs hbuf hlength hrange
  have hargs : sourceArgsBad buf length = false :=
    Bool.eq_false_iff.mpr (mt (sourceArgsBad_iff buf length).mp (not_or.mpr ⟨hbuf, hlength⟩))
  have hfits : Sys2Proof.sourceRangeFits s.cfg buf length = false :=
    Bool.eq_false_iff.mpr (mt (sourceRangeFits_iff s.cfg buf length).mp (Nat.not_le.mpr hrange))
  constructor
  · simp [exec, execWrite, hw, hs, hargs, Sys2Proof.Instr.wf, hfits]
  · simp [exec, execWriteNb, hw, hs, hargs, Sys2Proof.Instr.wf, hfits]
end

section
/-! PROOFS. Decoder and encoder agree (O1, O2), and the words of the vector file decode (O3). -/

namespace Sys2Proof

/-- The operand words that `i` reads are those of its encoding; the others are free (R101). -/
def Cmd.ReadsOperands (k : Cmd) (i : Instr) : Prop :=
  (1 ≤ Machine.operandWords i → k.a = i.operands.1) ∧
  (2 ≤ Machine.operandWords i → k.b = i.operands.2.1) ∧
  (3 ≤ Machine.operandWords i → k.c = i.operands.2.2)

/-- An operation is only read under its own number (R103). -/
theorem op_of_decodeOp {op : Byte} {k : Cmd} {i : Instr} (h : decodeOp op k = .ok i) : op = i.op := by
  unfold decodeOp at h
  split at h
  case h_1 hop | h_18 hop | h_22 hop | h_24 hop =>
    obtain ⟨-, rfl⟩ := (checked_eq_ok_iff _ _ _).mp h
    exact BitVec.eq_of_toNat_eq hop
  case h_25 => cases h
  all_goals
    next hop =>
    cases h
    exact BitVec.eq_of_toNat_eq hop

/-- Under its own number an operation is read exactly from its own operand words: a plain word fits in one way, a word with
must-be-zero bits by the `_iff` lemma of its packing (rules R103 to R106). -/
theorem decodeOp_own_eq_ok_iff (k : Cmd) (i : Instr) : decodeOp i.op k = .ok i ↔ k.ReadsOperands i := by
  cases i with
  | init | rbWrite | setDuty | latch =>
    simp [decodeOp, Instr.op, Cmd.ReadsOperands, Machine.operandWords, Instr.operands, checked_eq_ok_iff, eq_packBytes_iff,
      eq_setWidth_iff, eq_channelWord_iff, and_assoc, and_comm, and_left_comm]
  | _ => simp [decodeOp, Instr.op, Cmd.ReadsOperands, Machine.operandWords, Instr.operands]

/-- The decoder answers `i` exactly when `W0` is the number of `i` and the operand words fit (rules R101, R109). -/
theorem decode_eq_ok_iff (k : Cmd) (i : Instr) : decode k = .ok i ↔ k.w0 = i.op.setWidth 32 ∧ k.ReadsOperands i := by
  rw [w0_eq_iff, ← decodeOp_own_eq_ok_iff]
  unfold decode
  cases hz : zeroFrom 8 k.w0 with
  | false => simp
  | true =>
    rw [if_pos rfl]
    refine ⟨fun h => ?_, fun ⟨⟨_, hop⟩, h⟩ => hop ▸ h⟩
    have hop := op_of_decodeOp h
    exact ⟨⟨rfl, hop⟩, hop ▸ h⟩

end Sys2Proof

open Sys2Proof

/-- Settles O2: the decoder's number is read back from `W0`, its operands from the words of that number. -/
theorem commandWordsHaveExactlyOneReading : Obligations.CommandWordsHaveExactlyOneReading := decode_eq_ok_iff

/-- Settles O1: the encoding fits itself. -/
theorem decodeOfEncodeIsIdentity : Obligations.DecodeOfEncodeIsIdentity := fun i =>
  (decode_eq_ok_iff (encode i) i).mpr ⟨rfl, fun _ => rfl, fun _ => rfl, fun _ => rfl⟩

/-- Settles O3: the legal words are the encodings of their operations, and the illegal ones run into their three tests. -/
theorem wordsOfTheVectorFileDecode : Obligations.WordsOfTheVectorFileDecode :=
  ⟨decodeOfEncodeIsIdentity (.init 4096 8 0 25 0xFF), decodeOfEncodeIsIdentity (.init 1024 10 1 25 26),
    decodeOfEncodeIsIdentity (.setParam 44100 16 2), decodeOfEncodeIsIdentity (.write 0x1000 16000 1000),
    decodeOfEncodeIsIdentity (.rbWrite 0x55), decodeOfEncodeIsIdentity (.setDuty .right 0xFF),
    decodeOfEncodeIsIdentity (.latch .right), rfl, rfl, rfl⟩
end

section
/-! PROOFS. `SET_VOL` and `GET_VOL` are inverse to each other (O43). -/

namespace Sys2Proof.Machine

/-- What `GET_VOL` computes undoes what `SET_VOL` stores, in words modulo `2^32` (rules R245, R246). -/
theorem volumeSetting_storedVolume (k : Config) (v : Word) : volumeSetting k (storedVolume k v) = v := by
  rw [volumeSetting_eq, storedVolume, BitVec.ofInt_add, BitVec.ofInt_toInt]
  exact BitVec.add_sub_cancel v _

variable {s : State} {p : Params}

/-- `SET_VOL` in range on an initialised block stores the volume (R245). -/
theorem setVol_answers {v : Word} (hs : s.status ≠ .uninitialized) (hp : s.params = some p)
    (hv : volumeInRange s.cfg v = true) :
    Answers (.setVol v) s
      (respond (Instr.setVol v).op .ok 0 0 0 (s.setParams { p with volume := storedVolume s.cfg v })) 0 0 0 0 :=
  answers_done (by simp [exec, execSetVol, hs, hv, withParams_some hp]) rfl

/-- `GET_VOL` on an initialised block answers the setting `v` whose stored volume stands in the register (R246). -/
theorem getVol_answers {v : Word} (hs : s.status ≠ .uninitialized) (hp : s.params = some p)
    (hv : volumeSetting s.cfg p.volume = v) : Answers .getVol s (respond Instr.getVol.op .ok v 0 0 s) 0 v 0 0 :=
  answers_done (by simp [exec, execGetVol, hs, withParams_some hp, hv]) rfl

end Sys2Proof.Machine

open Sys2Proof Sys2Proof.Machine

/-- Settles O43: `GET_VOL` runs on the state `SET_VOL` leaves and undoes its offset. -/
theorem volumeReadsBackAsItWasSet : Obligations.VolumeReadsBackAsItWasSet := by
  intro s p v hl hs hp hlow hhigh
  have hv : volumeInRange s.cfg v = true := (volumeInRange_iff s.cfg v).mpr ⟨hlow, hhigh⟩
  exact ⟨_, _, _, setVol_answers hs hp hv, rfl, rfl, storedVolume_toNat hl hv, rfl,
    getVol_answers hs rfl (volumeSetting_storedVolume s.cfg v), rfl⟩
end

section
/-! PROOFS. What an arriving command meets at its port: which port carries it (O7), placing (O5), illegal commands (O6), the
busy data port and an illegal configuration (O9). -/

namespace Sys2Proof.Machine

variable {s : State} {p : Port} {k : Cmd} {i : Instr}

/-- Every operation may stand on the first of its ports (R114). -/
theorem portAllows_head (i : Instr) : portAllows ((portsOf i).headD .control) i = true := by
  cases i <;> rfl

/-- A command that decodes is placed on a port that may carry it (log 4). -/
theorem portAllows_portOfCmd (hd : decode k = .ok i) : portAllows (portOfCmd k) i = true := by
  have hport : portOfCmd k = (portsOf i).headD .control := by rw [portOfCmd, hd]
  rw [hport]
  exact portAllows_head i

/-- A table word stands for `i` exactly when the decoder reads its four words so. -/
theorem decodeTableWord_eq_some_iff (nbits w : Nat) (i : Instr) :
    decodeTableWord nbits w = some i ↔ decode (tableCmd nbits w) = .ok i := by
  rw [decodeTableWord]
  cases decode (tableCmd nbits w) <;> simp [Except.toOption]

/-- The step after a table word was placed is the arrival of its command, with both draws granted and the source buffer that
stands there (logs 4, 6). -/
theorem step_withFetchWord (hl : s.cfg.Legal) (nbits w : Nat) :
    step (s.withFetchWord nbits w) = issue (portOfCmd (tableCmd nbits w)) (tableCmd nbits w) s.source
      { s with env := { allocOk := true, hwOk := true } } :=
  step_command (s := s.withFetchWord nbits w) hl rfl

/-- A command without an operation, or on a port that may not carry it, is answered `BadCommand` (R109). -/
theorem issue_illegal (b : SourceBuffer) (h : ∀ i, decode k = .ok i → portAllows p i = false) :
    issue p k b s = badCommand k s := by
  unfold issue
  cases hd : decode k with
  | error => rfl
  | ok i => simp [h i hd]

/-- A legal command on the busy data port is a fault (R100, log 19). -/
theorem issue_busy (b : SourceBuffer) (hd : decode k = .ok i) (hp : portAllows .data i = true)
    (hb : dataPortBusy s = true) : issue .data k b s = .fault .dataPortBusy := by
  simp [issue, hd, hp, hb]

end Sys2Proof.Machine

open Sys2Proof.Machine

/-- Settles O7: a port allows an operation when it is one of the operation's ports, read off operation by operation. -/
theorem portsCarryTheOperationsOfTheirContext : Obligations.PortsCarryTheOperationsOfTheirContext := by
  intro i
  simp only [portAllows, List.contains_iff_mem]
  cases i <;> simp [portsOf, Sys2Proof.Instr.op]

/-- Settles O5: the placed command stands at the head of the agenda, on a port that may carry it, with the source buffer that
is there already. -/
theorem placedTableWordRunsNext : Obligations.PlacedTableWordRunsNext := by
  intro s nbits w i hl hw hfree
  have hd := (decodeTableWord_eq_some_iff nbits w i).mp hw
  rw [step_withFetchWord hl]
  calc _ = exec i (supplySource i s.source { s with env := { allocOk := true, hwOk := true } }) :=
        issue_runs s.source hd (portAllows_portOfCmd hd) fun _ => hfree
    _ = _ := congrArg (exec i) (supplySource_same i { s with env := { allocOk := true, hwOk := true } })

/-- Settles O6: the answer to an illegal command is its response, which writes nothing. -/
theorem illegalCommandIsAnsweredBadCommand : Obligations.IllegalCommandIsAnsweredBadCommand := by
  intro s p k d b rest hl ha hillegal
  refine ⟨respond k.op .badCommand 0 0 0 { s with agenda := rest, env := d }, ?_, rfl, rfl⟩
  rw [step_command hl ha, issue_illegal b hillegal]
  exact raise_eq _ _ _

/-- Settles O9: the arriving command meets the busy port; the step refuses the configuration before it looks at the agenda. -/
theorem busyDataPortAndIllegalConfigurationStop : Obligations.BusyDataPortAndIllegalConfigurationStop := by
  constructor
  · intro s k d b rest i hl ha hd hp hb
    rw [step_command hl ha, issue_busy (s := { s with agenda := rest, env := d }) b hd hp hb]
  · intro s hillegal
    rw [step, if_neg hillegal]
end

section
/-! PROOFS. The ring buffer operations, driven directly: `RB_CREATE` (O10), `RB_DESTROY` (O11), the two counts (O12), `RB_READ`
(O13), `RB_WRITE` (O14), `RB_FLUSH` (O15), `RB_SIGNAL` (O16) and `RB_WAIT` (O17). -/

namespace Sys2Proof.Machine

variable {s : State} {r : RingBuffer}

/-! ### The three shapes of an answer -/

/-- An operation that completes on its own state changes nothing but the history. -/
theorem answers_unchanged {i : Instr} {r1 r2 r3 : Word} (h : exec i s = done i.op r1 r2 r3 s) :
    ∃ t, Answers i s t 0 r1 r2 r3 ∧ OnlyEvents s t := ⟨_, answers_done h rfl, rfl⟩

/-- An operation that raises an error changes nothing but the history (R291). -/
theorem answers_error {i : Instr} {e : ErrorCode} (h : exec i s = raise i.op e s) :
    ∃ t, Answers i s t (errorWord e) 0 0 0 ∧ OnlyEvents s t := ⟨_, answers_raise h⟩

/-- An operation that completes with other ring registers changes nothing else but the history. -/
theorem answers_setRing {i : Instr} {r' : RingBuffer} {r1 r2 r3 : Word} (h : exec i s = done i.op r1 r2 r3 (s.setRing r')) :
    ∃ t, Answers i s t 0 r1 r2 r3 ∧ OnlyRing s t ∧ t.rb = some r' := ⟨_, answers_done h rfl, rfl, rfl⟩

/-! ### Creation -/

/-- `create` fails for each of its three reasons (R130, log 2). -/
theorem createRing_fails {capacity : Word}
    (h : capacity.toNat < 1024 ∨ s.cfg.capMax < capacity.toNat ∨ s.env.allocOk = false) : createRing capacity s = none := by
  rcases createRing_cases capacity s with ⟨_, e⟩ | ⟨hmin, hmax, halloc, _⟩
  · exact e
  · have hmin' : 1024 ≤ capacity.toNat := hmin
    rcases h with h | h | h
    · omega
    · omega
    · simp [halloc] at h

/-- `create` makes the ring where none of its reasons to fail holds (R130, log 2). -/
theorem createRing_succeeds {capacity : Word} (hmin : 1024 ≤ capacity.toNat) (hmax : capacity.toNat ≤ s.cfg.capMax)
    (halloc : s.env.allocOk = true) : createRing capacity s = some (freshRing capacity s.draws) := by
  rcases createRing_cases capacity s with ⟨h | h | h, _⟩ | ⟨_, _, _, e⟩
  · have h' : capacity.toNat < 1024 := h
    omega
  · omega
  · simp [halloc] at h
  · exact e

section
variable {capacity : Word} (hc : consumerActive s = false) (hr : s.rb = none)
include hc hr

theorem exec_rbCreate_fails (h : createRing capacity s = none) :
    exec (.rbCreate capacity) s = raise (Instr.rbCreate capacity).op .allocFailed s := by
  simp [exec, execRbCreate, hc, hr, h]

theorem exec_rbCreate_succeeds (h : createRing capacity s = some r) :
    exec (.rbCreate capacity) s = done (Instr.rbCreate capacity).op 0 0 0 (s.installRing r) := by
  simp [exec, execRbCreate, hc, hr, h]

end

/-! ### Reading and writing a byte -/

theorem exec_rbRead_empty (hrun : s.timer.run = false) (hr : s.rb = some r) (hpop : ringPop r = none) :
    exec .rbRead s = raise Instr.rbRead.op .empty s := by
  simp [exec, execRbRead, hrun, withRing_some hr, hpop]

section
variable {b : Byte} (hw : writeInFlight s = false) (hr : s.rb = some r)
include hw hr

theorem exec_rbWrite_full (hpush : ringPush r b = none) :
    exec (.rbWrite b) s = raise (Instr.rbWrite b).op .full s := by
  simp [exec, execRbWrite, hw, withRing_some hr, hpush]

theorem exec_rbWrite_stores {r' : RingBuffer} (hpush : ringPush r b = some r') :
    exec (.rbWrite b) s = done (Instr.rbWrite b).op 0 0 0 (s.setRing r') := by
  simp [exec, execRbWrite, hw, withRing_some hr, hpush]

end

/-! ### Signal and wait -/

/-- The ring that already stands there changes nothing. -/
theorem setRing_same (hr : s.rb = some r) : s.setRing r = s := by
  rw [State.setRing, ← hr]

theorem postDue_iff (k : Config) (r : RingBuffer) : postDue k r = true ↔ k.watermark < free r ∧ r.pending = false := by
  simp [postDue]

/-- A signal that is due posts, and answers so (R137). -/
theorem exec_rbSignal_posts (hr : s.rb = some r) (hfree : s.cfg.watermark < free r) (hpending : r.pending = false) :
    exec .rbSignal s = done Instr.rbSignal.op 1 0 0 (emit (.post (switchRequest s r)) (s.setRing (postSem r))) := by
  have hdue : postDue s.cfg r = true := (postDue_iff s.cfg r).mpr ⟨hfree, hpending⟩
  simp [exec, execRbSignal, withRing_some hr, signalSpace, hdue, boolWord]

/-- A signal that is not due leaves the state alone, and answers so (R137). -/
theorem exec_rbSignal_silent (hr : s.rb = some r) (h : free r ≤ s.cfg.watermark ∨ r.pending = true) :
    exec .rbSignal s = done Instr.rbSignal.op 0 0 0 s := by
  have hdue : postDue s.cfg r = false := Bool.eq_false_iff.mpr fun hpost => by
    obtain ⟨hfree, hpending⟩ := (postDue_iff s.cfg r).mp hpost
    rcases h with h | h
    · omega
    · simp [hpending] at h
  simp [exec, execRbSignal, withRing_some hr, signalSpace, hdue, boolWord, setRing_same hr]

/-- With no `WRITE` in flight `PROD` steps the directly driven `RB_WAIT` (R138, log 13). -/
theorem prodStep_directWait {w : DirectWait} (hphase : s.wr.phase = .none) (hw : s.wait = some w) :
    prodStep s = directTake w s := by
  simp [prodStep, hphase, hw]

section
variable (w : DirectWait) (hr : s.rb = some r)
include hr

/-- A post is taken, whatever the clock says (rules R91, R138; D18). -/
theorem directTake_posted (hsem : r.sem = true) :
    directTake w s = done rbWaitOp 0 0 0 { s with rb := some (takeSem r), wait := none } := by
  simp [directTake, withRing_some hr, hsem]

theorem directTake_expired (hsem : r.sem = false) (hexp : waitExpired s.cfg s.now w.start w.timeout.toNat = true) :
    directTake w s = raise rbWaitOp .timeout { s with wait := none } := by
  simp [directTake, withRing_some hr, hsem, hexp]

theorem directTake_blocked (hsem : r.sem = false) (hexp : waitExpired s.cfg s.now w.start w.timeout.toNat = false) :
    directTake w s = .next { s with wait := some { w with atTake := true } } := by
  simp [directTake, withRing_some hr, hsem, hexp]

end

end Sys2Proof.Machine

open Sys2Proof.Machine

/-- Settles O10: the operation answers as `create` does, on a state that had no ring. -/
theorem rbCreateMakesAnEmptyRingOrFails : Obligations.RbCreateMakesAnEmptyRingOrFails := by
  refine fun s capacity hc hr => ⟨fun h => ?_, fun hmin hmax halloc => ?_⟩
  · exact answers_error (exec_rbCreate_fails hc hr (createRing_fails h))
  · have e := exec_rbCreate_succeeds hc hr (createRing_succeeds hmin hmax halloc)
    refine ⟨_, freshRing capacity s.draws, answers_done e rfl, rfl, rfl, rfl, rfl, rfl, rfl, fun _ => rfl, ?_⟩
    rw [← hr]
    rfl

/-- Settles O11: the operation completes on the state without its ring. -/
theorem rbDestroyLeavesNoRing : Obligations.RbDestroyLeavesNoRing := by
  intro s hc hw
  have e : exec .rbDestroy s = done Sys2Proof.Instr.rbDestroy.op 0 0 0 { s with rb := none } := by
    simp [exec, execRbDestroy, hc, hw]
  exact ⟨_, answers_done e rfl, rfl, rfl⟩

/-- Settles O12: the counts answered are `occupied` and `free`, and `occupied` is the modular difference (R28). -/
theorem occupancyQueriesAnswerTheModularDifference : Obligations.OccupancyQueriesAnswerTheModularDifference := by
  intro s r hr hok
  obtain ⟨t, ht, hframe⟩ := answers_unchanged (i := .rbOccupied) (withRing_some hr _)
  obtain ⟨u, hu, hframe'⟩ := answers_unchanged (i := .rbFree) (withRing_some hr _)
  rw [← occupied_eq_mod hok]
  exact ⟨t, u, ht, hframe, hu, hframe'⟩

/-- Settles O13: the two outcomes of a pop. -/
theorem rbReadPopsTheByteAtTailOrAnswersEmpty : Obligations.RbReadPopsTheByteAtTailOrAnswersEmpty := by
  intro s r hrun hr hok
  rcases ringPop_cases r with ⟨hempty, hpop⟩ | ⟨hne, hpop⟩
  · exact ⟨fun _ => answers_error (exec_rbRead_empty hrun hr hpop), fun hne => absurd hempty hne⟩
  · refine ⟨fun hempty => absurd hempty hne, fun _ => ⟨_, _, rbRead_answers hrun hr hpop, rfl, rfl, rfl, ?_⟩⟩
    exact (nextIndex_toNat hok r.tail).trans (succ_mod hok.tail)

/-- Settles O14: the two outcomes of a push; its cells are those of `write_byte` (R71, R135). -/
theorem rbWriteStoresAtHeadOrAnswersFull : Obligations.RbWriteStoresAtHeadOrAnswersFull := by
  intro s r b hw hr hok
  rw [← nextIndex_toNat hok, ne_eq, BitVec.toNat_inj]
  rcases ringPush_cases r b with ⟨hfull, hpush⟩ | ⟨hroom, hpush⟩
  · exact ⟨fun _ => answers_error (exec_rbWrite_full hw hr hpush), fun hroom => absurd hfull hroom⟩
  · refine ⟨fun hfull => absurd hfull hroom, fun _ => ?_⟩
    obtain ⟨t, hanswer, hframe, hring⟩ := answers_setRing (exec_rbWrite_stores hw hr hpush)
    exact ⟨t, _, hanswer, hframe, hring, rfl, rfl, ringPush_cell_head hpush, fun _ hj => ringPush_cell_other hpush hj⟩

/-- Settles O15: the operation completes on the flushed ring. -/
theorem rbFlushZeroesBothCursors : Obligations.RbFlushZeroesBothCursors := by
  intro s r hc hw hr
  have e : exec .rbFlush s = done Sys2Proof.Instr.rbFlush.op 0 0 0 (s.setRing (ringFlush r)) := by
    simp [exec, execRbFlush, hc, hw, withRing_some hr]
  obtain ⟨t, hanswer, hframe, hring⟩ := answers_setRing e
  exact ⟨t, _, hanswer, hframe, hring, rfl, rfl, ringFlush_occupied r, rfl⟩

/-- Settles O16: the post and its answer where it is due, and the unchanged state where it is not. -/
theorem rbSignalPostsAboveTheWatermark : Obligations.RbSignalPostsAboveTheWatermark := by
  refine fun s r hr => ⟨fun ⟨hfree, hpending⟩ => ?_, fun h => answers_unchanged (exec_rbSignal_silent hr h)⟩
  refine ⟨_, switchRequest s r, exec_rbSignal_posts hr hfree hpending, ?_, switchRequest_iff s r, rfl, rfl⟩
  exact List.append_assoc _ _ _

/-- Settles O17: step 1 on the ring that exists; step 2 by the semaphore and then by the clock. -/
theorem rbWaitClearsThenTakesOrTimesOut : Obligations.RbWaitClearsThenTakesOrTimesOut := by
  refine ⟨fun s r timeout hr => ⟨_, withRing_some hr _, rfl, rfl, rfl, rfl⟩, fun s r w hphase hw hr => ?_⟩
  rw [prodStep_directWait hphase hw, ← waitExpired_iff, ← not_le, ← waitExpired_iff, Bool.not_eq_true]
  refine ⟨fun hsem => ?_, fun hsem hexp => ?_, directTake_blocked w hr⟩
  · exact ⟨_, directTake_posted w hr hsem, rfl, rfl, rfl, rfl⟩
  · exact ⟨_, directTake_expired w hr hsem hexp, rfl, rfl, rfl⟩
end

section
/-! PROOFS. Only the lifecycle commands change the status (O49). -/

namespace Sys2Proof.Machine

variable {s t u : State}

/-- The arrows of the status state machine, each with the operation that takes it (rules R167, R251). -/
inductive StatusArrow : Instr → Status → Status → Prop
  | init (len : Word) (res sel gl gr : Byte) : StatusArrow (.init len res sel gl gr) .uninitialized .idle
  | start : StatusArrow .start .idle .busy
  | stop : StatusArrow .stop .busy .idle
  | deinit (st : Status) : StatusArrow .deinit st .uninitialized

/-- The operation leaves the status, or takes one of its arrows. -/
def StatusByArrow (i : Instr) (s t : State) : Prop := t.status = s.status ∨ StatusArrow i s.status t.status

theorem Completed.status {i : Instr} {r1 r2 r3 : Word} (e : Completed i u t r1 r2 r3) : t.status = u.status := by
  subst e
  rfl

theorem Completed.statusKept {i : Instr} {r1 r2 r3 : Word} (e : Completed i u t r1 r2 r3) (h : u.status = s.status) :
    StatusByArrow i s t :=
  .inl (e.status.trans h)

theorem Completed.statusArrow {i : Instr} {r1 r2 r3 : Word} (e : Completed i u t r1 r2 r3)
    (h : StatusArrow i s.status u.status) : StatusByArrow i s t :=
  .inr (e.status.symm ▸ h)

theorem Rejected.statusKept {i : Instr} (e : Rejected i s t) : StatusByArrow i s t := by
  obtain ⟨_, _, rfl⟩ := e
  exact .inl rfl

/-! ### The operations -/

theorem signalSpace_status (s : State) (r : RingBuffer) : (signalSpace s r).status = s.status := by
  obtain ⟨_, _, e, _⟩ := signalSpace_frame s r
  rw [e]

theorem execLatch_status {c : Channel} (e : execLatch c s = .next t) : t.status = s.status := by
  rcases execLatch_cases c s with ⟨_, _, e'⟩ | ⟨_, e'⟩ <;> obtain rfl := Host.Outcome.next.inj (e.symm.trans e') <;> rfl

theorem takeAlarm_status (e : takeAlarm s = .next t) : t.status = s.status := by
  rcases takeAlarm_next e with ⟨_, rfl⟩ | ⟨_, r, _, ⟨_, rfl⟩ | ⟨_, r', _, rfl⟩⟩
  · rfl
  · exact signalSpace_status _ r
  · exact signalSpace_status _ r'

/-- Every operation leaves the status or takes its own arrow (R251). -/
theorem exec_status {i : Instr} (e : exec i s = .next t) : StatusByArrow i s t := by
  cases i with
  | init len res sel gl gr =>
    obtain e | ⟨hs, _, _, _, _, _, e⟩ := execInit_next e
    · exact e.statusKept
    · exact e.statusArrow (hs ▸ .init len res sel gl gr)
  | deinit =>
    obtain ⟨_, ⟨_, e⟩ | ⟨_, e⟩⟩ := execDeinit_next e
    · exact e.statusKept rfl
    · exact e.statusArrow (.deinit s.status)
  | setParam => obtain e | ⟨_, _, _, _, _, _, e⟩ := execSetParam_next e; exacts [e.statusKept, e.statusKept rfl]
  | setRate => obtain e | ⟨_, _, _, _, e⟩ := execSetRate_next e; exacts [e.statusKept, e.statusKept rfl]
  | setVol => obtain e | ⟨_, _, _, _, e⟩ := execSetVol_next e; exacts [e.statusKept, e.statusKept rfl]
  | getVol => obtain e | ⟨_, e⟩ := execGetVol_next e; exacts [e.statusKept, e.statusKept rfl]
  | start =>
    obtain e | ⟨hs, e⟩ := execStart_next e
    · exact e.statusKept
    · exact e.statusArrow (hs ▸ .start)
  | stop =>
    obtain ⟨_, e | ⟨hs, _, _, e⟩⟩ := execStop_next e
    · exact e.statusKept
    · exact e.statusArrow (hs ▸ .stop)
  | getStatus => obtain e | ⟨_, e⟩ := execGetStatus_next e; exacts [e.statusKept, e.statusKept rfl]
  | getParam => obtain e | ⟨_, _, _, e⟩ := execGetParam_next e; exacts [e.statusKept, e.statusKept rfl]
  | write => obtain ⟨_, e | ⟨_, _, _, _, rfl⟩⟩ := execWrite_next e; exacts [e.statusKept, .inl rfl]
  | writeNb => obtain ⟨_, e | ⟨_, _, _, _, _, _, _, e⟩⟩ := execWriteNb_next e; exacts [e.statusKept, e.statusKept rfl]
  | rbCreate => obtain ⟨_, _, e | ⟨_, _, _, e⟩⟩ := execRbCreate_next e; exacts [e.statusKept, e.statusKept rfl]
  | rbDestroy => obtain ⟨_, _, e⟩ := execRbDestroy_next e; exact e.statusKept rfl
  | rbOccupied => obtain ⟨_, _, e⟩ := execRbOccupied_next e; exact e.statusKept rfl
  | rbFree => obtain ⟨_, _, e⟩ := execRbFree_next e; exact e.statusKept rfl
  | rbRead => obtain ⟨_, _, _, e | ⟨_, _, _, e⟩⟩ := execRbRead_next e; exacts [e.statusKept, e.statusKept rfl]
  | rbWrite => obtain ⟨_, _, _, e | ⟨_, _, e⟩⟩ := execRbWrite_next e; exacts [e.statusKept, e.statusKept rfl]
  | rbFlush => obtain ⟨_, _, _, _, e⟩ := execRbFlush_next e; exact e.statusKept rfl
  | rbSignal => obtain ⟨r, _, e⟩ := execRbSignal_next e; exact e.statusKept (signalSpace_status s r)
  | rbWait => obtain ⟨_, _, rfl⟩ := execRbWait_next e; exact .inl rfl
  | setDuty => rw [done_next e]; exact .inl rfl
  | alarm => exact .inl (takeAlarm_status e)
  | latch => exact .inl (execLatch_status e)

/-! ### The turns -/

theorem timerFires_status (e : timerFires s = .next t) : t.status = s.status := by
  obtain ⟨_, e⟩ | ⟨_, rfl⟩ := timerFires_next e
  · exact takeAlarm_status (s := { s with timer := { s.timer with cnt := 0, countdown := none } }) e
  · rfl

theorem countStep_status (e : countStep s = .next t) : t.status = s.status := by
  rcases countStep_next e with ⟨_, rfl⟩ | ⟨_, _, _, rfl⟩ | ⟨_, e⟩ | ⟨_, _, e⟩ | ⟨_, _, _, ⟨_, rfl⟩ | ⟨_, _, rfl⟩⟩
  · rfl
  · rfl
  · exact timerFires_status e
  · exact timerFires_status (s := { s with draws := s.draws + 1 }) e
  · rfl
  · rfl

theorem directTake_status {w : DirectWait} (e : directTake w s = .next t) : t.status = s.status := by
  obtain ⟨_, _, ⟨_, e⟩ | ⟨_, _, _, rfl⟩ | ⟨_, rfl⟩⟩ := directTake_next e
  · exact e.status
  · rfl
  · rfl

theorem finishWrite_status {timedOut : Bool} (e : finishWrite timedOut s = .next t) : t.status = s.status := by
  rw [finishWrite_next e]
  rfl

theorem prodStep_status (e : prodStep s = .next t) : t.status = s.status := by
  rcases prodStep_next e with ⟨_, _, rfl⟩ | ⟨_, _, _, e⟩ | ⟨_, _, _, rfl⟩ | ⟨_, _, _, ⟨_, rfl⟩ | ⟨_, e⟩ | ⟨_, rfl⟩⟩ |
    ⟨_, _, rfl⟩ | ⟨_, _, _, _, _, _, _, _, rfl⟩ | ⟨_, ⟨_, e⟩ | rfl⟩
  · rfl
  · exact directTake_status e
  · rfl
  · rfl
  · exact finishWrite_status e
  · rfl
  · rfl
  · rfl
  · exact finishWrite_status e
  · rfl

/-- No turn of an agent changes the status. -/
theorem turnOf_status {a : Agent} (e : turnOf a s = .next t) : t.status = s.status := by
  cases a with
  | prod => exact prodStep_status e
  | timer => exact countStep_status e
  | pwm c => exact execLatch_status e
  | tick =>
    obtain rfl := Host.Outcome.next.inj e
    rfl

/-! ### The step -/

/-- An arriving command leaves the status, or is an operation that takes its arrow from a port that may carry it. -/
theorem issue_status {p : Port} {k : Cmd} {b : SourceBuffer} (e : issue p k b s = .next t) :
    t.status = s.status ∨ ∃ i, decode k = .ok i ∧ portAllows p i = true ∧ StatusArrow i s.status t.status := by
  obtain ⟨e, _⟩ | ⟨i, hd, hp, _, e⟩ := issue_next e
  · rw [raise_next e]
    exact .inl rfl
  · obtain ⟨b', hs, _⟩ := supplySource_eq i b s
    rw [hs] at e
    exact (exec_status e).imp_right fun h => ⟨i, hd, hp, h⟩

/-- The operations with an arrow come from the control port alone (R114). -/
theorem StatusArrow.port {i : Instr} {a b : Status} (h : StatusArrow i a b) {p : Port} (hp : portAllows p i = true) :
    p = .control := by
  have hport := mem_portsOf hp
  cases h <;> exact List.mem_singleton.mp hport

/-- The arrows by operation number (R103). -/
theorem StatusArrow.by_op {i : Instr} {a b : Status} (h : StatusArrow i a b) :
    (i.op = 0x01 ∧ a = .uninitialized ∧ b = .idle) ∨ (i.op = 0x07 ∧ a = .idle ∧ b = .busy) ∨
      (i.op = 0x08 ∧ a = .busy ∧ b = .idle) ∨ (i.op = 0x02 ∧ b = .uninitialized) := by
  cases h with
  | init => exact .inl ⟨rfl, rfl, rfl⟩
  | start => exact .inr (.inl ⟨rfl, rfl, rfl⟩)
  | stop => exact .inr (.inr (.inl ⟨rfl, rfl, rfl⟩))
  | deinit => exact .inr (.inr (.inr ⟨rfl, rfl⟩))

end Sys2Proof.Machine

open Sys2Proof.Machine

/-- Settles O49: no turn changes the status, and a command changes it only along the arrow of its operation. -/
theorem onlyLifecycleCommandsChangeStatus : Obligations.OnlyLifecycleCommandsChangeStatus := by
  intro s t e hne
  obtain ⟨_, ⟨_, e⟩ | ⟨x, rest, ha, e⟩⟩ := step_next e
  · exact absurd (turnOf_status e) hne
  · cases x with
    | turn a => exact absurd (turnOf_status e) hne
    | command p k d b =>
      obtain h | ⟨i, hd, hp, harrow⟩ := issue_status e
      · exact absurd h hne
      · obtain rfl := harrow.port hp
        exact ⟨k, d, b, rest, i, ha, hd, harrow.by_op⟩
end

section
/-! PROOFS. The alarm handler (O20, O21). -/

namespace Sys2Proof.Machine

variable {s : State} {r : RingBuffer}

/-- A signal writes two flags and one event when it is due, and nothing when it is not (R137). -/
theorem signalSpace_spec (s : State) (r : RingBuffer) :
    ∃ r' es, signalSpace s r = { s with rb := some r', events := s.events ++ es } ∧
      { r' with pending := r.pending, sem := r.sem } = r ∧
      (s.cfg.watermark < free r ∧ r.pending = false → r' = postSem r ∧ es = [.post (switchRequest s r)]) ∧
      (free r ≤ s.cfg.watermark ∨ r.pending = true → r' = r ∧ es = []) := by
  rcases signalSpace_cases s r with ⟨hfree, hpending, e⟩ | ⟨h, e⟩
  · refine ⟨postSem r, [.post (switchRequest s r)], e, rfl, fun _ => ⟨rfl, rfl⟩, ?_⟩
    rintro (h | h)
    · omega
    · simp [hpending] at h
  · refine ⟨r, [], by simp [e, State.setRing], rfl, fun ⟨hfree, hpending⟩ => ?_, fun _ => ⟨rfl, rfl⟩⟩
    rcases h with h | h
    · omega
    · simp [hpending] at h

/-- Without the handle the alarm is an event and nothing else (R163). -/
theorem exec_alarm_noHandle (hh : s.handle = false) : exec .alarm s = .next (emit (.alarm .noHandle) s) := by
  simp [exec, execAlarm, takeAlarm, hh]

theorem exec_alarm_serves (hh : s.handle = true) (hr : s.rb = some r) : exec .alarm s = .next (serveAlarm s r) := by
  simp [exec, execAlarm, takeAlarm, hh, withRing_some hr]

/-- On an empty ring the alarm is an underrun and the signal (R164). -/
theorem exec_alarm_underrun (hh : s.handle = true) (hr : s.rb = some r) (hempty : r.head = r.tail) :
    exec .alarm s = .next (signalSpace (emit (.alarm .underrun) s) r) := by
  rw [exec_alarm_serves hh hr, serveAlarm, show ringPop r = none from if_pos hempty]

/-- With a byte waiting the alarm pops it, drives it on the primary channel and signals (R163). -/
theorem exec_alarm_byte {b : Byte} {r' : RingBuffer} (hh : s.handle = true) (hr : s.rb = some r)
    (hpop : ringPop r = some (b, r')) :
    exec .alarm s = .next (signalSpace (emit (.alarm (.byte b)) (applyDuty s.cfg.primaryCh b s)) r') := by
  rw [exec_alarm_serves hh hr, serveAlarm, hpop]

end Sys2Proof.Machine

open Sys2Proof.Machine

/-- Settles O20: the outcomes of a pop, each followed by the signal, which is due on the ring the pop leaves. -/
theorem alarmServesExactlyOneByte : Obligations.AlarmServesExactlyOneByte := by
  refine fun s => ⟨exec_alarm_noHandle, fun r hh hr hok hne => ?_, fun r hh hr hempty => ?_⟩
  · have hpop : ringPop r = some (r.cell r.tail.toNat, { r with tail := nextIndex r r.tail }) := if_neg hne
    have e := exec_alarm_byte hh hr hpop
    obtain ⟨r', es, hs, hring, hposts, hsilent⟩ := signalSpace_spec
      (emit (.alarm (.byte (r.cell r.tail.toNat))) (applyDuty s.cfg.primaryCh (r.cell r.tail.toNat) s))
      { r with tail := nextIndex r r.tail }
    have htail : r'.tail = nextIndex r r.tail := (congrArg RingBuffer.tail hring :)
    have hframe : { r' with tail := r.tail, pending := r.pending, sem := r.sem } = r :=
      (congrArg (fun q : RingBuffer => { q with tail := r.tail }) hring :)
    rw [← ringPop_free hok hpop]
    rw [hs] at e
    refine ⟨_, r', switchRequest s r, e, rfl, by rw [htail, nextIndex_toNat hok], hframe, channel_setChannel_same s _ _,
      fun c hc => channel_setChannel_other s _ hc, rfl, fun hdue => ?_, fun hnot => ?_⟩
    · obtain ⟨rfl, rfl⟩ := hposts hdue
      exact ⟨rfl, rfl, switchRequest_iff s r, (List.append_assoc _ _ _).trans (List.append_assoc _ _ _)⟩
    · obtain ⟨rfl, rfl⟩ := hsilent hnot
      exact ⟨rfl, rfl, (List.append_assoc _ _ _).trans (List.append_assoc _ _ _)⟩
  · have e := exec_alarm_underrun hh hr hempty
    obtain ⟨r', es, hs, hring, hposts, hsilent⟩ := signalSpace_spec (emit (.alarm .underrun) s) r
    rw [hs] at e
    refine ⟨_, e, rfl, fun hdue => ?_, fun hnot => ?_⟩
    · obtain ⟨rfl, rfl⟩ := hposts hdue
      exact ⟨rfl, _, switchRequest_iff s r, List.append_assoc _ _ _⟩
    · obtain ⟨rfl, rfl⟩ := hsilent hnot
      exact ⟨rfl, List.append_assoc _ _ _⟩

/-- Settles O21: an underrun is its event and a signal, which writes two flags of the ring and posts at most. -/
theorem underrunHoldsTheLastDuty : Obligations.UnderrunHoldsTheLastDuty := by
  intro s r hh hr hempty
  have e := exec_alarm_underrun hh hr hempty
  obtain ⟨r', es, hs, hring, hposts⟩ := signalSpace_frame (emit (.alarm .underrun) s) r
  rw [hs] at e
  refine ⟨_, r', e, rfl, rfl, (congrArg RingBuffer.head hring :), (congrArg RingBuffer.tail hring :), .alarm .underrun :: es,
    List.append_assoc _ _ _, List.mem_cons_self, fun c v hduty => ?_⟩
  obtain h | h := List.mem_cons.mp hduty
  · cases h
  · obtain ⟨_, h⟩ := hposts _ h
    cases h
end

section
/-! PROOFS. When the alarm comes (O23, O24) and which alarm value a rate has (O25). -/

namespace Sys2Proof.Machine

variable {s t : State} {n k : Nat} {rest : List Input}

/-! ### Several steps -/

theorem steps_succ (h : step s = .next t) : steps (n + 1) s = steps n t := by
  rw [steps, h]

theorem steps_one (s : State) : steps 1 s = step s := by
  rw [steps]
  cases step s <;> rfl

/-- States that step alike go on alike. -/
theorem steps_congr (hn : 0 < n) (h : step s = step t) : steps n s = steps n t := by
  cases n with
  | zero => cases hn
  | succ n => rw [steps, steps, h]

/-! ### Where a counting timer stands -/

/-- `n` turns of the timer, then `rest` (log 4). -/
def timerTurns (n : Nat) (rest : List Input) : List Input := List.replicate n (.turn .timer) ++ rest

/-- The state with an agenda, a count of the timer and a drawn number of counts to go (R39, log 12). -/
def State.counting (s : State) (agenda : List Input) (cnt : Nat) (countdown : Option Nat) : State :=
  { s with agenda := agenda, timer := { s.timer with cnt := cnt, countdown := countdown } }

/-- What stands in the state already changes nothing. -/
theorem counting_same {agenda : List Input} {d : Option Nat} (ha : s.agenda = agenda) (hd : s.timer.countdown = d) :
    s.counting agenda s.timer.cnt d = s := by
  rw [State.counting, ← ha, ← hd]

/-- A reached alarm reloads the timer, so it does not depend on where the count stood (R162). -/
theorem reloadAndServe_counting (s : State) (rest : List Input) (c : Nat) (d : Option Nat) :
    reloadAndServe (s.counting rest c d) = reloadAndServe { s with agenda := rest } := rfl

section
variable (hl : s.cfg.Legal) {c : Nat} {d : Option Nat}
include hl

/-- With a turn of the timer at the head of the agenda the step is a count (R162). -/
theorem step_count : step (s.counting (timerTurns (n + 1) rest) c d) = countStep (s.counting (timerTurns n rest) c d) :=
  step_turn (s := s.counting (timerTurns (n + 1) rest) c d) hl rfl

/-- A count that answers is followed by the rest of the counts. -/
theorem steps_count (h : countStep (s.counting (timerTurns n rest) c d) = .next t) :
    steps (n + 1) (s.counting (timerTurns (n + 1) rest) c d) = steps n t :=
  steps_succ ((step_count hl).trans h)

end

/-! ### The count step, case by case -/

theorem countStep_stopped (h : timerCounts s.timer = false) : countStep s = .next s := by
  simp [countStep, h]

theorem countDown_more (hk : 1 < k) (s : State) : countDown k s = .next { s with
    timer := { s.timer with cnt := countUp s.cfg s.timer.cnt, countdown := some (k - 1) } } :=
  if_neg (Nat.not_le.mpr hk)

section
variable (hc : timerCounts s.timer = true)
include hc

/-- A number once drawn is counted down (R166, U8). -/
theorem countStep_drawn (hd : s.timer.countdown = some k) : countStep s = countDown k s := by
  simp [countStep, hc, hd]

/-- With the alarm value not above the count, the count draws a number and is the first of it (R166, U8). -/
theorem countStep_draw (hd : s.timer.countdown = none) (ha : s.timer.alarm ≤ s.timer.cnt) :
    countStep { s with agenda := rest } =
      countStep (State.counting { s with draws := s.draws + 1 } rest s.timer.cnt (some (drawnCounts s.cfg s.draws))) := by
  have hdraws : countStep { s with agenda := rest } =
      countDown (drawnCounts s.cfg s.draws) { s with agenda := rest, draws := s.draws + 1 } := by
    simp [countStep, hc, hd, Nat.not_lt.mpr ha]
  have hdrawn := countStep_drawn (k := drawnCounts s.cfg s.draws)
    (s := State.counting { s with draws := s.draws + 1 } rest s.timer.cnt (some (drawnCounts s.cfg s.draws))) hc rfl
  exact hdraws.trans hdrawn.symm

/-- The last of a drawn number of counts is the alarm. -/
theorem countStep_last (c : Nat) : countStep (s.counting rest c (some 1)) = reloadAndServe { s with agenda := rest } :=
  (countStep_drawn (s := s.counting rest c (some 1)) hc rfl).trans (reloadAndServe_counting s rest c (some 1))

/-- A count that is not the last of a drawn number of counts only counts. -/
theorem countStep_more (hk : 1 < k) (c : Nat) :
    countStep (s.counting rest c (some k)) = .next (s.counting rest ((c + 1) % 2 ^ s.cfg.tcntW) (some (k - 1))) :=
  (countStep_drawn (s := s.counting rest c (some k)) hc rfl).trans (countDown_more hk _)

end

/-! ### Many counts -/

section
variable (hl : s.cfg.Legal) (hc : timerCounts s.timer = true)
include hl hc

/-- Below the alarm value `n` counts only count (R162). -/
theorem steps_below (hfit : s.timer.alarm < 2 ^ s.cfg.tcntW) {c : Nat} (hn : c + n < s.timer.alarm) :
    steps n (s.counting (timerTurns n rest) c none) = .next (s.counting rest (c + n) none) := by
  induction n generalizing c with
  | zero => rfl
  | succ n ih =>
    obtain ⟨_, hcounts⟩ := countStep_below (s := s.counting (timerTurns n rest) c none) hc rfl
      (show c < s.timer.alarm by omega) hfit
    rw [steps_count hl (hcounts (show c + 1 ≠ s.timer.alarm by omega)), Nat.add_comm n 1, ← Nat.add_assoc]
    exact ih (show c + 1 + n < s.timer.alarm by omega)

/-- Fewer counts than the drawn number only count, modulo `2^TCNT_W` (R166, U8). -/
theorem steps_countdown (c : Nat) (hn : 0 < n) (hk : n < k) :
    steps n (s.counting (timerTurns n rest) c (some k)) =
      .next (s.counting rest ((c + n) % 2 ^ s.cfg.tcntW) (some (k - n))) := by
  induction n, hn using Nat.le_induction generalizing c k with
  | base => exact (steps_one _).trans ((step_count hl).trans (countStep_more hc hk c))
  | succ n _ ih =>
    rw [steps_count hl (countStep_more hc (by omega) c), ih _ (by omega), Nat.mod_add_mod, Nat.sub_sub, Nat.add_assoc,
      Nat.add_comm 1 n]

/-- The drawn number of counts ends in the alarm (R166, U8). -/
theorem steps_countdown_fires (c : Nat) (hk : 0 < k) :
    steps k (s.counting (timerTurns k rest) c (some k)) = reloadAndServe { s with agenda := rest } := by
  induction k, hk using Nat.le_induction generalizing c with
  | base => exact (steps_one _).trans ((step_count hl).trans (countStep_last hc c))
  | succ k hk ih =>
    rw [steps_count hl (countStep_more hc (by omega) c)]
    exact ih _

/-- A count that draws is the first of the number it draws (R166, U8). -/
theorem steps_draw (hd : s.timer.countdown = none) (ha : s.timer.alarm ≤ s.timer.cnt) (hn : 0 < n) :
    steps n { s with agenda := timerTurns n rest } =
      steps n (State.counting { s with draws := s.draws + 1 } (timerTurns n rest) s.timer.cnt
        (some (drawnCounts s.cfg s.draws))) := by
  obtain ⟨m, rfl⟩ := Nat.exists_eq_add_one.mpr hn
  exact steps_congr hn ((step_turn (s := { s with agenda := timerTurns (m + 1) rest }) hl rfl).trans
    ((countStep_draw hc hd ha).trans (step_count (s := { s with draws := s.draws + 1 }) hl).symm))

end

end Sys2Proof.Machine

open Sys2Proof.Machine

/-- Settles O23: the counts below the alarm value, the one that reaches it, and the idle timer. -/
theorem alarmComesAfterExactlyItsCount : Obligations.AlarmComesAfterExactlyItsCount := by
  refine ⟨fun n s rest hl hc hd ha hn hfit => ?_, fun s rest hl hc hd ha hcnt hfit => ?_, fun s h => ?_⟩
  · have hsteps := steps_below (rest := rest) hl hc hfit hn
    rwa [counting_same (agenda := timerTurns n rest) ha hd, ← hd] at hsteps
  · have hbelow : s.timer.cnt < s.timer.alarm := by omega
    obtain ⟨hreaches, _⟩ := countStep_below (s := { s with agenda := rest }) hc hd hbelow hfit
    rw [step_turn hl ha]
    refine (hreaches hcnt).trans ?_
    rw [timerFires_eq, reloadAndServe, ← hd]
  · refine countStep_stopped ?_
    rcases h with h | h <;> simp [timerCounts, h]

/-- Settles O24: the first count draws the number and is the first of it; the rest counts it down. -/
theorem countPastTheAlarmIsADraw : Obligations.CountPastTheAlarmIsADraw := by
  refine ⟨fun s hl hc hd ha => ?_, fun s n rest hl hc hd hn ha => ?_⟩
  · obtain ⟨hmin, hmax⟩ := drawnCounts_bounds s.cfg s.draws
    refine ⟨_, hmin, hmax, fun rest => ?_, fun m rest hm hlt => ?_⟩
    · exact (steps_draw hl hc hd ha hmin).trans (steps_countdown_fires (s := { s with draws := s.draws + 1 }) hl hc _ hmin)
    · exact (steps_draw hl hc hd ha hm).trans (steps_countdown (s := { s with draws := s.draws + 1 }) hl hc _ hm hlt)
  · have hsteps := steps_countdown_fires (rest := rest) hl hc s.timer.cnt hn
    rwa [counting_same (agenda := timerTurns n rest) ha hd] at hsteps

/-- Settles O25: the value that fits is stored, and is at least that of the greatest rate, which is not 0 (R6, U7). -/
theorem alarmValueThatFitsIsTheFormulas : Obligations.AlarmValueThatFitsIsTheFormulas := by
  refine fun k rate hl hmin hmax => ⟨alarmOf_lt k rate, fun hfit => ⟨alarmOf_eq hfit, ?_⟩⟩
  obtain ⟨_, _, _, _, _, hpos, _⟩ := (legal_iff k).mp hl
  calc 0 < k.timerBaseClock / k.timerDivider / 48000 := hpos
    _ ≤ k.timerBaseClock / k.timerDivider / rate.toNat := Nat.div_le_div_left hmax (by omega)
    _ = alarmOf k rate := (alarmOf_eq hfit).symm
end

section
/-! PROOFS. The duty driver: the alarm's other channel (O22), `SET_DUTY` (O26), the latch (O27) and the pin (O28). -/

namespace Sys2Proof.Machine

variable {s t : State} {c c' : Channel}

/-! ### One channel's registers -/

theorem applyDuty_channel_same (c : Channel) (v : Byte) (s : State) :
    (applyDuty c v s).channel c = { s.channel c with dutyReg := dutyOf s.cfg v, upd := true, outEn := true } :=
  channel_setChannel_same s c _

theorem applyDuty_channel_other (v : Byte) (s : State) (h : c' ≠ c) : (applyDuty c v s).channel c' = s.channel c' :=
  channel_setChannel_other s _ h

theorem signalSpace_channel (s : State) (r : RingBuffer) (c : Channel) : (signalSpace s r).channel c = s.channel c := by
  obtain ⟨_, _, e, _⟩ := signalSpace_frame s r
  rw [e]
  rfl

/-- The handler drives the primary channel alone (R191). -/
theorem takeAlarm_channel_other (h : c ≠ s.cfg.primaryCh) (e : takeAlarm s = .next t) : t.channel c = s.channel c := by
  rcases takeAlarm_next e with ⟨_, rfl⟩ | ⟨_, r, _, ⟨_, rfl⟩ | ⟨b, r', _, rfl⟩⟩
  · rfl
  · exact signalSpace_channel _ r c
  · exact (signalSpace_channel _ r' c).trans (applyDuty_channel_other b s h)

/-! ### The operations -/

/-- `SET_DUTY` always completes (R190, D24). -/
theorem exec_setDuty (c : Channel) (v : Byte) (s : State) :
    exec (.setDuty c v) s = .next (respond 0x30 .ok 0 0 0 (applyDuty c v s)) := rfl

/-- At a boundary a waiting duty value is applied (R193). -/
theorem exec_latch_waiting (hmask : (s.channel c).mask = true) (hupd : (s.channel c).upd = true) :
    exec (.latch c) s =
      .next (emit (.latch c (s.channel c).dutyReg) (s.setChannel c (latchRegs (s.channel c)))) :=
  if_pos (by rw [hmask, hupd]; rfl)

/-- Without a boundary or a request a latch changes nothing (R193, log 21). -/
theorem exec_latch_nothing (h : (s.channel c).mask = false ∨ (s.channel c).upd = false) : exec (.latch c) s = .next s :=
  if_neg (by rcases h with h | h <;> simp [h])

/-! ### The pin -/

/-- An enabled output pin is high for the applied duty's count of each carrier cycle (R194). -/
theorem pinDrive_enabled {p : Params} (hpin : (s.channel c).pin = .output) (hout : (s.channel c).outEn = true)
    (hp : s.params = some p) :
    pinDrive s c = .pwm ((s.channel c).dutyAct.toNat / 2 ^ s.cfg.dutyFracBits) (2 ^ p.resolution.toNat) := by
  rw [pinDrive, hpin, hout, hp]

end Sys2Proof.Machine

open Sys2Proof.Machine

/-- Settles O22: only a served byte writes a channel, and that is the primary one. -/
theorem alarmNeverTouchesTheOtherChannel : Obligations.AlarmNeverTouchesTheOtherChannel :=
  fun _ _ _ => takeAlarm_channel_other

/-- Settles O26: the duty value is that of the sample, which a legal configuration shifts without a lost bit. -/
theorem setDutyWritesTheShiftedSample : Obligations.SetDutyWritesTheShiftedSample := fun s c v hl =>
  ⟨_, dutyOf s.cfg v, exec_setDuty c v s, dutyOf_toNat hl v, List.append_assoc _ _ _, applyDuty_channel_same c v s,
    fun _ => applyDuty_channel_other v s, rfl⟩

/-- Settles O27: the two outcomes of a latch. -/
theorem latchAppliesAWaitingDuty : Obligations.LatchAppliesAWaitingDuty := fun s c =>
  ⟨fun hmask hupd => ⟨_, exec_latch_waiting hmask hupd, rfl, channel_setChannel_same s c _,
    fun _ => channel_setChannel_other s _, rfl⟩, exec_latch_nothing⟩

/-- Settles O28: `SET_DUTY` leaves the request that the latch answers, so the duty applied is that of the sample. -/
theorem latchedSampleDrivesThePin : Obligations.LatchedSampleDrivesThePin := by
  intro s t u c v p hl hp hmask hpin hduty hlatch
  obtain ⟨t', d, et, hd, _, htc, _, htframe⟩ := setDutyWritesTheShiftedSample s c v hl
  obtain rfl := Host.Outcome.next.inj (et.symm.trans hduty)
  obtain ⟨u', eu, _, huc, _, huframe⟩ := (latchAppliesAWaitingDuty t' c).1 (by rw [htc, hmask]) (by rw [htc])
  obtain rfl := Host.Outcome.next.inj (eu.symm.trans hlatch)
  have hcfg : u'.cfg = s.cfg := (congrArg State.cfg huframe :).trans (congrArg State.cfg htframe :)
  have hparams : u'.params = some p := ((congrArg State.params huframe :).trans (congrArg State.params htframe :)).trans hp
  rw [htc] at huc
  calc pinDrive u' c = .pwm ((u'.channel c).dutyAct.toNat / 2 ^ u'.cfg.dutyFracBits) (2 ^ p.resolution.toNat) :=
        pinDrive_enabled (by rw [huc, hpin]) (by rw [huc]) hparams
    _ = .pwm (v.toNat * 2 ^ s.cfg.dutyFracBits / 2 ^ s.cfg.dutyFracBits) (2 ^ p.resolution.toNat) := by
        rw [huc, hcfg, ← hd]
    _ = .pwm v.toNat (2 ^ p.resolution.toNat) := by rw [Nat.mul_div_cancel _ (Nat.two_pow_pos _)]
end

section
/-! PROOFS. No step meets a full ring inside a chunk (O37). Only phase `CHUNK` and `WRITE_NB` can raise that fault, and both
have the room they need; every other meaning is built of branches and answers that do not raise it. -/

namespace Sys2Proof.Machine

variable {s : State}

/-- The answer is not the fault of a full ring inside a chunk (U4). -/
def MeetsNoFullRing (x : Result) : Prop := x ≠ .fault .fullInChunk

/-! ### The shapes a meaning is built of -/

theorem meetsNoFullRing_next (t : State) : MeetsNoFullRing (.next t) := nofun

theorem meetsNoFullRing_refused (r : Refusal) : MeetsNoFullRing (.refused r) := nofun

theorem meetsNoFullRing_fault {f : Fault} (h : f ≠ .fullInChunk) : MeetsNoFullRing (.fault f) :=
  fun e => h (Host.Outcome.fault.inj e)

theorem meetsNoFullRing_ite {c : Prop} [Decidable c] {a b : Result} (ha : MeetsNoFullRing a) (hb : MeetsNoFullRing b) :
    MeetsNoFullRing (if c then a else b) := by
  split
  · exact ha
  · exact hb

theorem meetsNoFullRing_withRing {k : RingBuffer → Result} (h : ∀ r, s.rb = some r → MeetsNoFullRing (k r)) :
    MeetsNoFullRing (withRing s k) := by
  cases hr : s.rb with
  | none => rw [withRing_none hr]; exact meetsNoFullRing_fault (by decide)
  | some r => rw [withRing_some hr]; exact h r hr

theorem meetsNoFullRing_withParams {k : Params → Result} (h : ∀ p, MeetsNoFullRing (k p)) :
    MeetsNoFullRing (withParams s k) := by
  unfold withParams
  cases s.params with
  | none => exact meetsNoFullRing_fault (by decide)
  | some p => exact h p

/-! ### The two meanings that push bytes of a chunk -/

/-- At most `free` bytes are pushed, so each of them finds room (R218). -/
theorem execWriteNb_meetsNoFullRing (hring : ∀ r, s.rb = some r → r.Ok) (buf length : Word) :
    MeetsNoFullRing (execWriteNb buf length s) := by
  refine meetsNoFullRing_ite (meetsNoFullRing_fault (by decide)) <| meetsNoFullRing_ite (meetsNoFullRing_next _) <|
    meetsNoFullRing_ite (meetsNoFullRing_next _) <| meetsNoFullRing_ite (meetsNoFullRing_refused _) <|
    meetsNoFullRing_withRing fun r hr => meetsNoFullRing_withParams fun p => ?_
  obtain ⟨r', hpush, _⟩ :=
    pushSource_spec s p.volume (min length.toNat (free r)) buf.toNat r (hring r hr) (min_le_right _ _)
  simp only [hpush]
  exact meetsNoFullRing_next _

/-- What is left of a chunk fits the ring (R221), so a byte that is left finds room. -/
theorem chunkStep_meetsNoFullRing (h : s.Inv) (hphase : s.wr.phase = .chunk) : MeetsNoFullRing (chunkStep s) := by
  unfold chunkStep
  split
  · exact meetsNoFullRing_next _
  · rename_i hchunk
    refine meetsNoFullRing_withRing fun r hr => meetsNoFullRing_withParams fun p => ?_
    obtain ⟨r₀, hr₀, hroom, _⟩ := h.chunk hphase
    obtain rfl : r = r₀ := Option.some.inj (hr.symm.trans hr₀)
    have hleft : s.wr.chunk.toNat ≠ 0 := fun e => hchunk (BitVec.eq_of_toNat_eq e)
    have hfree : free r ≠ 0 := by omega
    obtain ⟨r', hpush⟩ := Option.ne_none_iff_exists'.mp (mt (ringPush_eq_none_iff (h.ring r hr) _).mp hfree)
    rw [hpush]
    exact meetsNoFullRing_next _

/-! ### The other meanings -/

theorem takeAlarm_meetsNoFullRing (s : State) : MeetsNoFullRing (takeAlarm s) :=
  meetsNoFullRing_ite (meetsNoFullRing_withRing fun _ _ => meetsNoFullRing_next _) (meetsNoFullRing_next _)

theorem timerFires_meetsNoFullRing (s : State) : MeetsNoFullRing (timerFires s) :=
  meetsNoFullRing_ite (takeAlarm_meetsNoFullRing _) (meetsNoFullRing_next _)

theorem countDown_meetsNoFullRing (n : Nat) (s : State) : MeetsNoFullRing (countDown n s) :=
  meetsNoFullRing_ite (timerFires_meetsNoFullRing s) (meetsNoFullRing_next _)

theorem countStep_meetsNoFullRing (s : State) : MeetsNoFullRing (countStep s) := by
  refine meetsNoFullRing_ite ?_ (meetsNoFullRing_next _)
  cases s.timer.countdown with
  | some n => exact countDown_meetsNoFullRing n s
  | none =>
    exact meetsNoFullRing_ite (meetsNoFullRing_ite (timerFires_meetsNoFullRing s) (meetsNoFullRing_next _))
      (countDown_meetsNoFullRing _ _)

theorem directTake_meetsNoFullRing (w : DirectWait) (s : State) : MeetsNoFullRing (directTake w s) :=
  meetsNoFullRing_withRing fun _ _ => meetsNoFullRing_ite (meetsNoFullRing_next _) <|
    meetsNoFullRing_ite (meetsNoFullRing_next _) (meetsNoFullRing_next _)

theorem execLatch_meetsNoFullRing (c : Channel) (s : State) : MeetsNoFullRing (execLatch c s) :=
  meetsNoFullRing_ite (meetsNoFullRing_next _) (meetsNoFullRing_next _)

theorem execInit_meetsNoFullRing (len : Word) (res sel gl gr : Byte) (s : State) :
    MeetsNoFullRing (execInit len res sel gl gr s) := by
  refine meetsNoFullRing_ite (meetsNoFullRing_next _) <| meetsNoFullRing_ite (meetsNoFullRing_next _) <|
    meetsNoFullRing_ite (meetsNoFullRing_fault (by decide)) ?_
  cases createRing len s with
  | none => exact meetsNoFullRing_next _
  | some r =>
    exact meetsNoFullRing_ite (meetsNoFullRing_next _) <|
      meetsNoFullRing_ite (meetsNoFullRing_next _) (meetsNoFullRing_next _)

theorem execSetParam_meetsNoFullRing (rate bits channels : Word) (s : State) :
    MeetsNoFullRing (execSetParam rate bits channels s) := by
  unfold execSetParam
  cases s.status with
  | uninitialized => exact meetsNoFullRing_next _
  | busy => exact meetsNoFullRing_next _
  | idle =>
    exact meetsNoFullRing_ite (meetsNoFullRing_next _) <| meetsNoFullRing_ite (meetsNoFullRing_next _) <|
      meetsNoFullRing_ite (meetsNoFullRing_next _) <| meetsNoFullRing_withParams fun _ => meetsNoFullRing_next _

theorem execStart_meetsNoFullRing (s : State) : MeetsNoFullRing (execStart s) := by
  unfold execStart
  cases s.status <;> exact meetsNoFullRing_next _

theorem execStop_meetsNoFullRing (s : State) : MeetsNoFullRing (execStop s) := by
  refine meetsNoFullRing_ite (meetsNoFullRing_fault (by decide)) ?_
  cases s.status with
  | uninitialized => exact meetsNoFullRing_next _
  | idle => exact meetsNoFullRing_next _
  | busy => exact meetsNoFullRing_withRing fun _ _ => meetsNoFullRing_next _

theorem execRbCreate_meetsNoFullRing (capacity : Word) (s : State) : MeetsNoFullRing (execRbCreate capacity s) := by
  refine meetsNoFullRing_ite (meetsNoFullRing_fault (by decide)) <|
    meetsNoFullRing_ite (meetsNoFullRing_fault (by decide)) ?_
  cases createRing capacity s <;> exact meetsNoFullRing_next _

theorem execRbRead_meetsNoFullRing (s : State) : MeetsNoFullRing (execRbRead s) :=
  meetsNoFullRing_ite (meetsNoFullRing_fault (by decide)) <| meetsNoFullRing_withRing fun r _ => by
    cases ringPop r <;> exact meetsNoFullRing_next _

theorem execRbWrite_meetsNoFullRing (b : Byte) (s : State) : MeetsNoFullRing (execRbWrite b s) :=
  meetsNoFullRing_ite (meetsNoFullRing_fault (by decide)) <| meetsNoFullRing_withRing fun r _ => by
    cases ringPush r b <;> exact meetsNoFullRing_next _

/-! ### Every operation, every turn, every step -/

/-- Where the ring meets its invariant no operation meets a full ring inside a chunk (R218). -/
theorem exec_meetsNoFullRing (hring : ∀ r, s.rb = some r → r.Ok) (i : Instr) : MeetsNoFullRing (exec i s) := by
  cases i with
  | init => exact execInit_meetsNoFullRing _ _ _ _ _ s
  | deinit =>
    exact meetsNoFullRing_ite (meetsNoFullRing_fault (by decide)) <|
      meetsNoFullRing_ite (meetsNoFullRing_next _) (meetsNoFullRing_next _)
  | setParam => exact execSetParam_meetsNoFullRing _ _ _ s
  | setRate | setVol =>
    exact meetsNoFullRing_ite (meetsNoFullRing_next _) <| meetsNoFullRing_ite (meetsNoFullRing_next _) <|
      meetsNoFullRing_withParams fun _ => meetsNoFullRing_next _
  | getVol | getParam =>
    exact meetsNoFullRing_ite (meetsNoFullRing_next _) <| meetsNoFullRing_withParams fun _ => meetsNoFullRing_next _
  | getStatus => exact meetsNoFullRing_ite (meetsNoFullRing_next _) (meetsNoFullRing_next _)
  | start => exact execStart_meetsNoFullRing s
  | stop => exact execStop_meetsNoFullRing s
  | write =>
    exact meetsNoFullRing_ite (meetsNoFullRing_fault (by decide)) <| meetsNoFullRing_ite (meetsNoFullRing_next _) <|
      meetsNoFullRing_ite (meetsNoFullRing_next _) <|
      meetsNoFullRing_ite (meetsNoFullRing_refused _) (meetsNoFullRing_next _)
  | writeNb => exact execWriteNb_meetsNoFullRing hring _ _
  | rbCreate => exact execRbCreate_meetsNoFullRing _ s
  | rbDestroy => exact meetsNoFullRing_ite (meetsNoFullRing_fault (by decide)) (meetsNoFullRing_next _)
  | rbOccupied | rbFree | rbSignal | rbWait => exact meetsNoFullRing_withRing fun _ _ => meetsNoFullRing_next _
  | rbRead => exact execRbRead_meetsNoFullRing s
  | rbWrite => exact execRbWrite_meetsNoFullRing _ s
  | rbFlush =>
    exact meetsNoFullRing_ite (meetsNoFullRing_fault (by decide)) <|
      meetsNoFullRing_withRing fun _ _ => meetsNoFullRing_next _
  | setDuty => exact meetsNoFullRing_next _
  | alarm => exact takeAlarm_meetsNoFullRing s
  | latch => exact execLatch_meetsNoFullRing _ s

/-- A `WRITE` in flight finds the room its chunk was sized for (R221). -/
theorem prodStep_meetsNoFullRing (h : s.Inv) : MeetsNoFullRing (prodStep s) := by
  unfold prodStep
  cases hphase : s.wr.phase with
  | waitClear => exact meetsNoFullRing_withRing fun _ _ => meetsNoFullRing_next _
  | waitTake =>
    exact meetsNoFullRing_withRing fun _ _ => meetsNoFullRing_ite (meetsNoFullRing_next _) <|
      meetsNoFullRing_ite (meetsNoFullRing_next _) (meetsNoFullRing_next _)
  | chunk => exact chunkStep_meetsNoFullRing h hphase
  | check =>
    exact meetsNoFullRing_ite (meetsNoFullRing_next _) <|
      meetsNoFullRing_ite (meetsNoFullRing_next _) (meetsNoFullRing_next _)
  | none =>
    cases s.wait with
    | none => exact meetsNoFullRing_next _
    | some w => exact directTake_meetsNoFullRing w s

theorem turnOf_meetsNoFullRing (h : s.Inv) (a : Agent) : MeetsNoFullRing (turnOf a s) := by
  cases a with
  | prod => exact prodStep_meetsNoFullRing h
  | timer => exact countStep_meetsNoFullRing s
  | pwm c => exact execLatch_meetsNoFullRing c s
  | tick => exact meetsNoFullRing_next _

/-- The source buffer a command brings does not enter the ring. -/
theorem issue_meetsNoFullRing (h : s.Inv) (p : Port) (k : Cmd) (b : SourceBuffer) : MeetsNoFullRing (issue p k b s) := by
  unfold issue
  cases decode k with
  | error _ => exact meetsNoFullRing_next _
  | ok i =>
    refine meetsNoFullRing_ite (meetsNoFullRing_next _) (meetsNoFullRing_ite (meetsNoFullRing_fault (by decide)) ?_)
    obtain ⟨b', hsource, _⟩ := supplySource_eq i b s
    rw [hsource]
    exact exec_meetsNoFullRing (s := { s with source := b' }) h.ring i

theorem serve_meetsNoFullRing (h : s.Inv) (x : Input) : MeetsNoFullRing (serve x s) := by
  cases x with
  | command p k d b => exact issue_meetsNoFullRing (inv_bookkeeping h _ d _) p k b
  | turn a => exact turnOf_meetsNoFullRing h a

theorem step_meetsNoFullRing (h : s.Inv) : MeetsNoFullRing (step s) := by
  refine meetsNoFullRing_ite ?_ (meetsNoFullRing_refused _)
  cases hagenda : s.agenda with
  | nil => exact turnOf_meetsNoFullRing (inv_draw h) _
  | cons x rest => exact serve_meetsNoFullRing (inv_agenda h (hagenda ▸ List.subset_cons_self x rest)) x

end Sys2Proof.Machine

open Sys2Proof.Machine

/-- Settles O37: a chunk is never larger than the room (R221), and `WRITE_NB` pushes what fits. -/
theorem noChunkEverMeetsAFullRing : Obligations.NoChunkEverMeetsAFullRing := fun _ => step_meetsNoFullRing
end

section
/-! PROOFS. The producer write path: the entry of `WRITE` (O29), its phases (O31, O32, O33), the volume scaling (O34),
`WRITE_NB` (O35) and a `WRITE` that nothing posts (O36). -/

namespace Sys2Proof.Machine

variable {s : State} {r : RingBuffer} {p : Params} {buf length timeout : Word}

/-! ### The entry of `WRITE` -/

theorem sourceArgsBad_eq_false (hbuf : buf ≠ 0) (hlength : length ≠ 0) : sourceArgsBad buf length = false :=
  Bool.eq_false_iff.mpr (mt (sourceArgsBad_iff buf length).mp (not_or.mpr ⟨hbuf, hlength⟩))

section
variable (hw : writeInFlight s = false)
include hw

theorem exec_write_notInitialized (hs : s.status = .uninitialized) :
    exec (.write buf length timeout) s = raise (Instr.write buf length timeout).op .notInitialized s := by
  simp [exec, execWrite, hw, hs]

theorem exec_write_invalidArgument (hs : s.status ≠ .uninitialized) (h : buf = 0 ∨ length = 0) :
    exec (.write buf length timeout) s = raise (Instr.write buf length timeout).op .invalidArgument s := by
  simp [exec, execWrite, hw, hs, (sourceArgsBad_iff buf length).mpr h]

/-- With its tests passed a `WRITE` starts the sequencer (R210). -/
theorem exec_write_starts (hs : s.status ≠ .uninitialized) (hbuf : buf ≠ 0) (hlength : length ≠ 0)
    (hrange : buf.toNat + length.toNat ≤ 2 ^ s.cfg.addrW) :
    exec (.write buf length timeout) s = .next { s with wr := enterWrite buf length timeout s } := by
  simp [exec, execWrite, hw, hs, sourceArgsBad_eq_false hbuf hlength, Instr.wf,
    (sourceRangeFits_iff s.cfg buf length).mpr hrange]

end

/-! ### The phases of a `WRITE` in flight -/

/-- The state of a `WRITE` whose wait began at this tick on the ring `r` (R213). -/
def State.waiting (s : State) (r : RingBuffer) : State :=
  { s with rb := some (clearPending r), wr := { s.wr with waitStart := s.now, phase := .waitTake } }

theorem prodStep_waitClear (hphase : s.wr.phase = .waitClear) (hr : s.rb = some r) :
    prodStep s = .next (s.waiting r) := by
  simp [prodStep, hphase, waitClearStep, withRing_some hr, State.waiting]

section
variable (hphase : s.wr.phase = .waitTake) (hr : s.rb = some r)
include hphase hr

/-- A post is taken, whatever the clock says, and sizes the chunk (rules R91, R214; D18). -/
theorem prodStep_take_posted (hsem : r.sem = true) :
    prodStep s = .next { s with
      rb := some (takeSem r)
      wr := { s.wr with chunk := toWord (min s.wr.remaining.toNat (free r)), phase := .chunk } } := by
  simp [prodStep, hphase, waitTakeStep, withRing_some hr, hsem]

theorem prodStep_take_expired (hsem : r.sem = false)
    (hexp : waitExpired s.cfg s.now s.wr.waitStart s.wr.timeout = true) : prodStep s = finishWrite true s := by
  simp [prodStep, hphase, waitTakeStep, withRing_some hr, hsem, hexp]

theorem prodStep_take_blocked (hsem : r.sem = false)
    (hexp : waitExpired s.cfg s.now s.wr.waitStart s.wr.timeout = false) : prodStep s = .next s := by
  simp [prodStep, hphase, waitTakeStep, withRing_some hr, hsem, hexp]

end

section
variable (hphase : s.wr.phase = .chunk)
include hphase

theorem prodStep_chunk_exhausted (hchunk : s.wr.chunk = 0) :
    prodStep s = .next { s with wr := { s.wr with phase := .check } } := by
  simp [prodStep, hphase, chunkStep, hchunk]

/-- A byte of the chunk that finds room is pushed, scaled (rules R212, R215). -/
theorem prodStep_chunk_pushes {r' : RingBuffer} (hchunk : s.wr.chunk ≠ 0) (hr : s.rb = some r) (hp : s.params = some p)
    (hpush : ringPush r (scale s.cfg (memRead s s.wr.buf) p.volume) = some r') :
    prodStep s = .next { s with rb := some r', wr := advanceWrite s.cfg s.wr } := by
  rw [prodStep, hphase]
  simp only [chunkStep, if_neg hchunk, withRing_some hr, withParams_some hp, hpush]

end

section
variable (hphase : s.wr.phase = .check)
include hphase

theorem prodStep_check_complete (hrem : s.wr.remaining = 0) : prodStep s = finishWrite false s := by
  simp [prodStep, hphase, checkStep, hrem]

theorem prodStep_check_late (hrem : s.wr.remaining ≠ 0)
    (hlate : deadlineExceeded s.cfg s.now s.wr.start s.wr.timeout = true) : prodStep s = finishWrite true s := by
  rw [prodStep, hphase]
  exact (if_neg hrem).trans (if_pos hlate)

theorem prodStep_check_again (hrem : s.wr.remaining ≠ 0)
    (hlate : deadlineExceeded s.cfg s.now s.wr.start s.wr.timeout = false) :
    prodStep s = .next { s with wr := { s.wr with phase := .waitClear } } := by
  rw [prodStep, hphase]
  exact (if_neg hrem).trans (if_neg (Bool.eq_false_iff.mp hlate))

end

/-- A `WRITE` that ends answers what it wrote and whether it timed out, and leaves the rest of the state (rules R214, R216). -/
theorem ends_of_finishWrite {timedOut : Bool} (h : prodStep s = finishWrite timedOut s) :
    ∃ t, prodStep s = .next t ∧ t.events = s.events ++ [.resp 0x10 0 s.wr.written (boolWord timedOut) 0] ∧
      t.wr = { s.wr with phase := .none } ∧ { t with events := s.events, wr := s.wr } = s :=
  ⟨_, h, rfl, rfl, rfl⟩

/-! ### `WRITE_NB` -/

theorem exec_writeNb_invalidArgument (hw : writeInFlight s = false) (hs : s.status ≠ .uninitialized)
    (h : buf = 0 ∨ length = 0) :
    exec (.writeNb buf length) s = raise (Instr.writeNb buf length).op .invalidArgument s := by
  simp [exec, execWriteNb, hw, hs, (sourceArgsBad_iff buf length).mpr h]

/-- With its tests passed `WRITE_NB` answers how many bytes its source loop pushed (R218). -/
theorem exec_writeNb_pushes {r' : RingBuffer} (hw : writeInFlight s = false) (hs : s.status ≠ .uninitialized)
    (hbuf : buf ≠ 0) (hlength : length ≠ 0) (hrange : buf.toNat + length.toNat ≤ 2 ^ s.cfg.addrW) (hr : s.rb = some r)
    (hp : s.params = some p) (hpush : pushSource s p.volume (min length.toNat (free r)) buf.toNat r = some r') :
    exec (.writeNb buf length) s =
      done (Instr.writeNb buf length).op (toWord (min length.toNat (free r))) 0 0 (s.setRing r') := by
  simp [exec, execWriteNb, hw, hs, sourceArgsBad_eq_false hbuf hlength, Instr.wf,
    (sourceRangeFits_iff s.cfg buf length).mpr hrange, withRing_some hr, withParams_some hp, hpush]

/-! ### Volume scaling -/

/-- Up to the 0 dB reference the product shrinks to a byte, so nothing wraps (R212). -/
theorem scale_toNat_of_le {k : Config} (b : Byte) {vol : Word} (hvol : vol.toNat ≤ k.fsv) :
    (scale k b vol).toNat = b.toNat * vol.toNat / k.fsv := by
  have hquot : b.toNat * vol.toNat / k.fsv ≤ b.toNat :=
    Nat.div_le_of_le_mul (Nat.mul_comm b.toNat k.fsv ▸ Nat.mul_le_mul_left _ hvol)
  rw [scale_toNat, Nat.mod_eq_of_lt (lt_of_le_of_lt hquot b.isLt)]

/-- At the 0 dB reference a sample passes as it is (R212). -/
theorem scale_fullScale {k : Config} (hl : k.Legal) (b : Byte) : scale k b (toWord k.fsv) = b := by
  obtain ⟨_, hpos, hmax, _⟩ := (legal_iff k).mp hl
  have hfsv : (toWord k.fsv).toNat = k.fsv := by
    rw [toWord, BitVec.toNat_ofNat]
    exact Nat.mod_eq_of_lt (by omega)
  apply BitVec.eq_of_toNat_eq
  rw [scale_toNat_of_le b hfsv.le, hfsv, Nat.mul_div_cancel _ hpos]

/-! ### A wait that nothing ends -/

/-- After `n` ticks, fewer than the clock counts before it wraps, `n` ticks have passed (rules R8, R40). -/
theorem elapsed_after_ticks {k : Config} {n : Nat} (hn : n < 2 ^ k.tickW) (now : Nat) :
    elapsed k ((now + n) % 2 ^ k.tickW) now = n := by
  have hdiff : (((now : Int) + n) % 2 ^ k.tickW - now) % 2 ^ k.tickW = n := by
    rw [Int.emod_sub_emod, add_sub_cancel_left]
    exact Int.emod_eq_of_lt (by omega) (by exact_mod_cast hn)
  have helapsed := elapsed_eq k ((now + n) % 2 ^ k.tickW) now
  push_cast at helapsed
  exact_mod_cast helapsed.trans hdiff

theorem steps_add {m n : Nat} {t : State} (h : steps m s = .next t) : steps (m + n) s = steps n t := by
  induction m generalizing s with
  | zero =>
    obtain rfl := Host.Outcome.next.inj h
    rw [Nat.zero_add]
  | succ m ih =>
    rw [steps] at h
    cases hstep : step s with
    | next u =>
      rw [hstep] at h
      rw [Nat.add_right_comm, steps_succ hstep]
      exact ih h
    | fault f => rw [hstep] at h; cases h
    | refused f => rw [hstep] at h; cases h

/-- `n` turns of the tick clock, then `rest` (log 4). -/
def tickTurns (n : Nat) (rest : List Input) : List Input := List.replicate n (.turn .tick) ++ rest

/-- The state with an agenda and a tick count (R40, log 4). -/
def State.clocked (s : State) (agenda : List Input) (now : Nat) : State := { s with agenda := agenda, now := now }

/-- `n` ticks move the clock alone, modulo `2^TICK_W` (rules R10, R40). -/
theorem steps_ticks (hl : s.cfg.Legal) (n : Nat) (rest : List Input) {now : Nat} (hnow : now < 2 ^ s.cfg.tickW) :
    steps n (s.clocked (tickTurns n rest) now) = .next (s.clocked rest ((now + n) % 2 ^ s.cfg.tickW)) := by
  induction n generalizing now with
  | zero =>
    rw [Nat.add_zero, Nat.mod_eq_of_lt hnow]
    rfl
  | succ n ih =>
    have htick : step (s.clocked (tickTurns (n + 1) rest) now) =
        .next (s.clocked (tickTurns n rest) ((now + 1) % 2 ^ s.cfg.tickW)) :=
      step_turn (s := s.clocked (tickTurns (n + 1) rest) now) hl rfl
    rw [steps_succ htick, ih (Nat.mod_lt _ (Nat.two_pow_pos _)), Nat.mod_add_mod, Nat.add_assoc, Nat.add_comm 1 n]

/-- The wait of a `WRITE` that no post ends: the clear, as many ticks as the timeout, and the take that times out (rules
R213, R214, R223). -/
theorem steps_wait_runs_out {n : Nat} {rest : List Input} (hl : s.cfg.Legal) (hphase : s.wr.phase = .waitClear)
    (hr : s.rb = some r) (hsem : r.sem = false) (hnow : s.now < 2 ^ s.cfg.tickW) (htimeout : s.wr.timeout = n)
    (hn : n < 2 ^ s.cfg.tickW) (ha : s.agenda = .turn .prod :: tickTurns n (.turn .prod :: rest)) :
    steps (n + 2) s = finishWrite true ((s.waiting r).clocked rest ((s.now + n) % 2 ^ s.cfg.tickW)) := by
  have hclear : step s = .next ((s.waiting r).clocked (tickTurns n (.turn .prod :: rest)) s.now) :=
    (step_turn hl ha).trans (prodStep_waitClear (s := { s with agenda := tickTurns n (.turn .prod :: rest) }) hphase hr)
  have hexp : waitExpired s.cfg ((s.now + n) % 2 ^ s.cfg.tickW) s.now s.wr.timeout = true :=
    decide_eq_true (htimeout.trans (elapsed_after_ticks hn s.now).symm).le
  calc steps (n + 2) s
      = steps (n + 1) ((s.waiting r).clocked (tickTurns n (.turn .prod :: rest)) s.now) := steps_succ hclear
    _ = steps 1 ((s.waiting r).clocked (.turn .prod :: rest) ((s.now + n) % 2 ^ s.cfg.tickW)) :=
        steps_add (steps_ticks (s := s.waiting r) hl n (.turn .prod :: rest) hnow)
    _ = step ((s.waiting r).clocked (.turn .prod :: rest) ((s.now + n) % 2 ^ s.cfg.tickW)) := steps_one _
    _ = prodStep ((s.waiting r).clocked rest ((s.now + n) % 2 ^ s.cfg.tickW)) :=
        step_turn (s := (s.waiting r).clocked (.turn .prod :: rest) ((s.now + n) % 2 ^ s.cfg.tickW)) hl rfl
    _ = finishWrite true ((s.waiting r).clocked rest ((s.now + n) % 2 ^ s.cfg.tickW)) :=
        prodStep_take_expired (s := (s.waiting r).clocked rest ((s.now + n) % 2 ^ s.cfg.tickW)) rfl rfl hsem hexp

/-- A `WRITE` that arrives on the free data port starts the sequencer on the source buffer it brings (rules R72, R210). -/
theorem step_write_starts {d : Draws} {b : SourceBuffer} {rest : List Input} (hl : s.cfg.Legal)
    (hs : s.status ≠ .uninitialized) (hfree : dataPortBusy s = false) (hbuf : buf ≠ 0) (hlength : length ≠ 0)
    (hrange : buf.toNat + length.toNat ≤ 2 ^ s.cfg.addrW)
    (ha : s.agenda = .command .data ⟨0x10, buf, length, timeout⟩ d b :: rest) :
    step s = .next { s with agenda := rest, env := d, source := b, wr := enterWrite buf length timeout s } := by
  have hw : writeInFlight s = false := (Bool.or_eq_false_iff.mp hfree).1
  have hd : decode ⟨0x10, buf, length, timeout⟩ = .ok (.write buf length timeout) :=
    decodeOfEncodeIsIdentity (.write buf length timeout)
  have hsource : supplySource (.write buf length timeout) b { s with agenda := rest, env := d } =
      { s with agenda := rest, env := d, source := b } :=
    if_pos (by simp [readsSource, writeInFlight] at hw ⊢; exact hw)
  rw [step_command hl ha, issue_runs (s := { s with agenda := rest, env := d }) b hd rfl fun _ => hfree, hsource]
  exact exec_write_starts (s := { s with agenda := rest, env := d, source := b }) hw hs hbuf hlength hrange

end Sys2Proof.Machine

open Sys2Proof Sys2Proof.Machine

/-- Settles O29: the two errors, and the sequencer of the entry with the timeout its register holds. -/
theorem writeEntryTestsThenStartsTheSequencer : Obligations.WriteEntryTestsThenStartsTheSequencer := by
  refine fun s buf length timeout hw => ⟨fun hs => ?_, fun hs h => ?_, fun hs hbuf hlength hrange => ?_⟩
  · exact answers_error (exec_write_notInitialized hw hs)
  · exact answers_error (exec_write_invalidArgument hw hs h)
  · exact ⟨timeoutOf s.cfg timeout, timeoutOf_lt s.cfg timeout, fitTo_of_lt, exec_write_starts hw hs hbuf hlength hrange⟩

/-- Settles O31: the clear, and the take by the semaphore and then by the clock. -/
theorem waitPhasesTakeThePostOrTimeOut : Obligations.WaitPhasesTakeThePostOrTimeOut := by
  refine ⟨fun s r hphase hr => prodStep_waitClear hphase hr, fun s r hphase hr => ?_⟩
  rw [← waitExpired_iff, ← not_le, ← waitExpired_iff, Bool.not_eq_true]
  refine ⟨fun hsem => ?_, fun hsem hexp => ?_, prodStep_take_blocked hphase hr⟩
  · exact ⟨_, _, prodStep_take_posted hphase hr hsem, rfl, rfl, rfl, chunkSize_toNat _ _, rfl⟩
  · exact ends_of_finishWrite (prodStep_take_expired hphase hr hsem hexp)

/-- Settles O32: with room left the byte is pushed, and a push does to the ring what `write_byte` does. -/
theorem chunkStepQueuesOneScaledByte : Obligations.ChunkStepQueuesOneScaledByte := by
  refine fun s hphase => ⟨prodStep_chunk_exhausted hphase, fun r p hchunk hr hp hok hfree => ?_⟩
  obtain ⟨r', hpush⟩ := Option.ne_none_iff_exists'.mp (mt (ringPush_eq_none_iff hok _).mp hfree.ne')
  obtain ⟨_, hr'⟩ := ringPush_some hpush
  exact ⟨_, r', prodStep_chunk_pushes hphase hchunk hr hp hpush, rfl, rfl, ringPush_contents hok hpush, by rw [hr'],
    fun _ => ringPush_cell_other hpush, rfl, rfl⟩

/-- Settles O33: the three outcomes of `CHECK`, by the rest of the input and then by the deadline. -/
theorem checkEndsTheWriteOrWaitsAgain : Obligations.CheckEndsTheWriteOrWaitsAgain := by
  intro s hphase
  rw [← deadlineExceeded_iff, ← not_lt, ← deadlineExceeded_iff, Bool.not_eq_true]
  refine ⟨fun hrem => ?_, fun hrem hlate => ?_, prodStep_check_again hphase⟩
  · exact ends_of_finishWrite (prodStep_check_complete hphase hrem)
  · exact ends_of_finishWrite (prodStep_check_late hphase hrem hlate)

/-- Settles O34: the formula, which up to 0 dB does not wrap and so is monotonic as a quotient is. -/
theorem volumeScalingIsLinearUpToZeroDecibel : Obligations.VolumeScalingIsLinearUpToZeroDecibel := by
  refine fun k b vol vol' hl => ⟨scale_toNat k b vol, scale_fullScale hl b, ?_, fun hle hmax => ?_⟩
  · exact BitVec.eq_of_toNat_eq (by simp [scale_toNat])
  · rw [scale_toNat_of_le b (hle.trans hmax), scale_toNat_of_le b hmax]
    exact ⟨Nat.div_le_div_right (Nat.mul_le_mul_left _ hle), rfl⟩

/-- Settles O35: the source loop finds room for all the bytes it pushes, so it does what `pushSource_spec` says. -/
theorem writeNbQueuesWhatFits : Obligations.WriteNbQueuesWhatFits := by
  refine ⟨fun s buf length hw hs h => answers_error (exec_writeNb_invalidArgument hw hs h), ?_⟩
  intro s r p buf length hw hs hbuf hlength hrange hr hp hok
  obtain ⟨r', hpush, _, _, hregs, hcontents, _, hcells⟩ :=
    pushSource_spec s p.volume (min length.toNat (free r)) buf.toNat r hok (min_le_right _ _)
  obtain ⟨t, hanswer, hframe, hring⟩ :=
    answers_setRing (exec_writeNb_pushes hw hs hbuf hlength hrange hr hp hpush)
  exact ⟨t, r', hanswer, hframe, hring, hregs, hcontents, hcells⟩

/-- Settles O36: the entry, the clear, the ticks, and a take that finds no post and its wait run out. -/
theorem writeThatNothingPostsTimesOut : Obligations.WriteThatNothingPostsTimesOut := by
  intro s r buf length n d b rest hl hs hfree hr hsem hbuf hlength hrange hn32 hn hnow ha
  have htimeout : timeoutOf s.cfg (toWord n) = n := by
    have hword : (toWord n).toNat = n := Nat.mod_eq_of_lt hn32
    rw [timeoutOf, hword, fitTo_of_lt hn]
  have hentry := step_write_starts hl hs hfree hbuf hlength hrange ha
  exact ⟨_, (steps_succ hentry).trans (steps_wait_runs_out hl rfl hr hsem hnow htimeout hn rfl), rfl, rfl, rfl, rfl, rfl,
    rfl⟩
end

section
/-! PROOFS. `INIT` (O38, O39) and `DEINIT` (O40). -/

namespace Sys2Proof.Machine

variable {s : State} {r : RingBuffer} {len : Word} {res sel gl gr : Byte}

/-! ### What `INIT` answers, in the order of its tests (rules R240, R295) -/

theorem exec_init_alreadyInitialized (hs : s.status ≠ .uninitialized) :
    exec (.init len res sel gl gr) s = raise (Instr.init len res sel gl gr).op .alreadyInitialized s :=
  if_pos hs

section
variable (hs : s.status = .uninitialized)
include hs

theorem exec_init_resolutionOutOfRange (hres : resolutionInRange res = false) :
    exec (.init len res sel gl gr) s = raise (Instr.init len res sel gl gr).op .invalidArgument s := by
  simp [exec, execInit, hs, hres]

variable (hr : s.rb = none) (hres : resolutionInRange res = true)
include hr hres

theorem exec_init_allocFailed (hcreate : createRing len s = none) :
    exec (.init len res sel gl gr) s = raise (Instr.init len res sel gl gr).op .allocFailed s := by
  simp [exec, execInit, hs, hr, hres, hcreate]

variable (hcreate : createRing len s = some r)
include hcreate

theorem exec_init_noChannel (hleft : gpioAssigned s.cfg gl = false) (hright : gpioAssigned s.cfg gr = false) :
    exec (.init len res sel gl gr) s = raise (Instr.init len res sel gl gr).op .invalidArgument s := by
  simp [exec, execInit, hs, hr, hres, hcreate, hleft, hright]

variable (hgpio : (!gpioAssigned s.cfg gl && !gpioAssigned s.cfg gr) = false)
include hgpio

theorem exec_init_hardwareConfigFailed (hhw : s.env.hwOk = false) :
    exec (.init len res sel gl gr) s = raise (Instr.init len res sel gl gr).op .hardwareConfigFailed s := by
  simp only [exec, execInit, hs, hr, hres, hcreate, hgpio, hhw]
  rfl

theorem exec_init_succeeds (hhw : s.env.hwOk = true) :
    exec (.init len res sel gl gr) s =
      done (Instr.init len res sel gl gr).op 0 0 0 (initState res sel gl gr r s) := by
  simp only [exec, execInit, hs, hr, hres, hcreate, hgpio, hhw]
  rfl

end

/-! ### The operand tests of `INIT`, in numbers -/

theorem resolutionInRange_eq_false (h : res.toNat < 8 ∨ 10 < res.toNat) : resolutionInRange res = false := by
  rw [← Bool.not_eq_true, resolutionInRange_iff]
  omega

theorem gpioAssigned_eq_false {k : Config} {g : Byte} (h : g = k.gpioNone) : gpioAssigned k g = false := by
  rw [← Bool.not_eq_true, gpioAssigned_iff]
  exact not_not.mpr h

/-- The test for a pair of GPIOs that assigns no channel fails where one of the two is assigned (rules R106, R240). -/
theorem noGpioAssigned_eq_false {k : Config} (h : gl ≠ k.gpioNone ∨ gr ≠ k.gpioNone) :
    (!gpioAssigned k gl && !gpioAssigned k gr) = false := by
  rw [← Bool.not_or, Bool.not_eq_false', Bool.or_eq_true, gpioAssigned_iff, gpioAssigned_iff]
  exact h

/-! ### The channels -/

/-- `INIT` configures each channel by its own GPIO operand (rules R37, R240). -/
theorem initState_channel (c : Channel) : (initState res sel gl gr r s).channel c =
    configureChannel (gpioAssigned s.cfg (PerChannel.get { left := gl, right := gr } c)) (s.channel c) := by
  cases c <;> rfl

/-- What R192 sets on a configured channel, and the power-on registers of the others (R332, log 22). -/
theorem configureChannel_spec (assigned : Bool) (c : ChannelRegs) :
    ((configureChannel assigned c).mask = true → (configureChannel assigned c).pin = .output ∧
      (configureChannel assigned c).outEn = true ∧ (configureChannel assigned c).dutyReg = 0 ∧
      (configureChannel assigned c).dutyAct = 0 ∧ (configureChannel assigned c).upd = false) ∧
    ((configureChannel assigned c).mask = false → configureChannel assigned c = ChannelRegs.reset) := by
  cases assigned
  · exact ⟨nofun, fun _ => rfl⟩
  · exact ⟨fun _ => ⟨rfl, rfl, rfl, rfl, rfl⟩, nofun⟩

/-- A released channel has its power-on registers, whatever it held (rules R196, R330). -/
theorem deinitState_channel (s : State) (c : Channel) : (deinitState s).channel c = ChannelRegs.reset := by
  cases c <;> rfl

/-! ### What `DEINIT` answers -/

section
variable (hw : writeInFlight s = false)
include hw

theorem exec_deinit_nothing (hs : s.status = .uninitialized) : exec .deinit s = done Instr.deinit.op 0 0 0 s := by
  simp [exec, execDeinit, hw, hs]

theorem exec_deinit_releases (hs : s.status ≠ .uninitialized) :
    exec .deinit s = done Instr.deinit.op 0 0 0 (deinitState s) := by
  simp [exec, execDeinit, hw, hs]

end

end Sys2Proof.Machine

open Sys2Proof Sys2Proof.Machine

/-- Settles O38: the success state of `INIT`, register by register. -/
theorem initBuildsTheIdleState : Obligations.InitBuildsTheIdleState := by
  intro s len res sel gl gr hs hr hresmin hresmax hmin hmax halloc hhw hgpio
  have hres : resolutionInRange res = true := (resolutionInRange_iff res).mpr ⟨hresmin, hresmax⟩
  have hcreate := createRing_succeeds hmin hmax halloc
  have e := exec_init_succeeds (sel := sel) hs hr hres hcreate (noGpioAssigned_eq_false hgpio) hhw
  refine ⟨_, freshRing len s.draws, initParams s.cfg res sel gl gr, answers_done e rfl, rfl, rfl, rfl, rfl, rfl, rfl, rfl,
    rfl, rfl, rfl, rfl, rfl, rfl, rfl, ?_, rfl, rfl, carrierOf_toNat, rfl, rfl, rfl, rfl, rfl, fun c => ?_, rfl⟩
  · exact BitVec.toNat_setWidth_of_le (by decide)
  · rw [respond_channel, initState_channel]
    refine ⟨?_, configureChannel_spec _ _⟩
    rw [configureChannel_mask, gpioAssigned_iff]
    rfl

/-- Settles O39: each test of `INIT` in its order, with those before it passed. -/
theorem failedInitChangesNothing : Obligations.FailedInitChangesNothing := by
  intro s len res sel gl gr
  refine ⟨fun hs => answers_error (exec_init_alreadyInitialized hs),
    fun hs h => answers_error (exec_init_resolutionOutOfRange hs (resolutionInRange_eq_false h)),
    fun hs hr hresmin hresmax => ?_⟩
  have hres : resolutionInRange res = true := (resolutionInRange_iff res).mpr ⟨hresmin, hresmax⟩
  refine ⟨fun h => answers_error (exec_init_allocFailed hs hr hres (createRing_fails h)), fun hmin hmax halloc => ?_⟩
  have hcreate := createRing_succeeds hmin hmax halloc
  refine ⟨fun hleft hright => ?_, fun hgpio hhw => ?_⟩
  · exact answers_error
      (exec_init_noChannel hs hr hres hcreate (gpioAssigned_eq_false hleft) (gpioAssigned_eq_false hright))
  · exact answers_error (exec_init_hardwareConfigFailed hs hr hres hcreate (noGpioAssigned_eq_false hgpio) hhw)

/-- Settles O40: the no-op, and the released state register by register. -/
theorem deinitReturnsToPowerOn : Obligations.DeinitReturnsToPowerOn := by
  refine fun s hw => ⟨fun hs => answers_unchanged (exec_deinit_nothing hw hs), fun hs => ?_⟩
  exact ⟨_, answers_done (exec_deinit_releases hw hs) rfl, rfl, rfl, rfl, rfl, rfl, rfl, deinitState_channel s, rfl⟩
end

section
/-! PROOFS. The commands that need the subsystem: all of them before `INIT` (O48), and each on an initialised block:
`SET_PARAM` (O41), `SET_RATE` (O42), `SET_VOL` out of range (O44), `START` (O45), `STOP` (O46) and the queries (O47). -/

namespace Sys2Proof.Machine

variable {s : State} {r : RingBuffer} {p : Params} {rate bits channels : Word}

/-! ### Before `INIT` (R292) -/

/-- The ten commands that need the subsystem answer `NotInitialized`; `STOP`, `WRITE` and `WRITE_NB` test first that no
`WRITE` is in flight (log 15). -/
theorem exec_notInitialized {i : Instr} (hs : s.status = .uninitialized)
    (hi : i.op ∈ ([0x03, 0x04, 0x05, 0x06, 0x07, 0x08, 0x09, 0x0A, 0x10, 0x11] : List Byte))
    (hw : i.op ∈ ([0x08, 0x10, 0x11] : List Byte) → writeInFlight s = false) :
    exec i s = raise i.op .notInitialized s := by
  cases i with
  | setParam => simp [exec, execSetParam, hs]
  | setRate => exact if_pos hs
  | setVol => exact if_pos hs
  | getVol => exact if_pos hs
  | start => simp [exec, execStart, hs]
  | stop => simp [exec, execStop, hw (by decide), hs]
  | getStatus => exact if_pos hs
  | getParam => exact if_pos hs
  | write => exact exec_write_notInitialized (hw (by simp [Instr.op])) hs
  | writeNb => simp [exec, execWriteNb, hw (by simp [Instr.op]), hs]
  | _ => simp [Instr.op] at hi

/-! ### `SET_PARAM` and `SET_RATE` -/

theorem rateInRange_eq_false (h : rate.toNat < 8000 ∨ 48000 < rate.toNat) : rateInRange rate = false := by
  rw [← Bool.not_eq_true, rateInRange_iff]
  omega

theorem bitsLegal_eq_false (h : bits ≠ 8 ∧ bits ≠ 16 ∧ bits ≠ 32) : bitsLegal bits = false := by
  rw [← Bool.not_eq_true, bitsLegal_iff]
  simpa only [not_or] using h

theorem channelsLegal_eq_false (h : channels ≠ 1 ∧ channels ≠ 2) : channelsLegal channels = false := by
  rw [← Bool.not_eq_true, channelsLegal_iff]
  exact not_or.mpr h

/-- The state gate comes before the arguments (R243, C5). -/
theorem exec_setParam_busy (hs : s.status = .busy) :
    exec (.setParam rate bits channels) s = raise (Instr.setParam rate bits channels).op .invalidState s := by
  simp [exec, execSetParam, hs]

section
variable (hs : s.status = .idle)
include hs

theorem exec_setParam_invalidArgument
    (h : rateInRange rate = false ∨ bitsLegal bits = false ∨ channelsLegal channels = false) :
    exec (.setParam rate bits channels) s = raise (Instr.setParam rate bits channels).op .invalidArgument s := by
  rcases h with h | h | h <;> simp [exec, execSetParam, hs, h]

theorem exec_setParam_stores (hp : s.params = some p) (hrate : rateInRange rate = true) (hbits : bitsLegal bits = true)
    (hchannels : channelsLegal channels = true) :
    exec (.setParam rate bits channels) s = done (Instr.setParam rate bits channels).op 0 0 0
      { s with
        params := some { p with rate := rate, bits := bits, channels := channels }
        timer := reprogramAlarm s.cfg rate s.timer } := by
  simp [exec, execSetParam, hs, hrate, hbits, hchannels, withParams_some hp]

end

section
variable (hs : s.status ≠ .uninitialized)
include hs

theorem exec_setRate_invalidArgument (hrate : rateInRange rate = false) :
    exec (.setRate rate) s = raise (Instr.setRate rate).op .invalidArgument s := by
  simp [exec, execSetRate, hs, hrate]

/-- A rate in range is taken in `IDLE` and in `BUSY` (R244, C4). -/
theorem exec_setRate_stores (hp : s.params = some p) (hrate : rateInRange rate = true) :
    exec (.setRate rate) s = done (Instr.setRate rate).op 0 0 0
      { s with params := some { p with rate := rate }, timer := reprogramAlarm s.cfg rate s.timer } := by
  simp [exec, execSetRate, hs, hrate, withParams_some hp]

/-! ### `SET_VOL` and the queries -/

theorem exec_setVol_invalidArgument {v : Word} (hv : volumeInRange s.cfg v = false) :
    exec (.setVol v) s = raise (Instr.setVol v).op .invalidArgument s := by
  simp [exec, execSetVol, hs, hv]

theorem exec_getStatus : exec .getStatus s = done Instr.getStatus.op (if s.status = .busy then 2 else 1) 0 0 s := by
  cases hst : s.status with
  | uninitialized => exact absurd hst hs
  | _ => simp [exec, execGetStatus, hst, statusWord]

theorem exec_getParam (hp : s.params = some p) :
    exec .getParam s = done Instr.getParam.op p.rate p.bits p.channels s := by
  simp [exec, execGetParam, hs, withParams_some hp]

end

theorem volumeInRange_eq_false {k : Config} {v : Word} (h : v.toInt < -(k.fsv : Int) ∨ (k.fsv : Int) < v.toInt) :
    volumeInRange k v = false := by
  rw [← Bool.not_eq_true, volumeInRange_iff]
  omega

/-! ### `START` and `STOP` -/

theorem exec_start_busy (hs : s.status = .busy) : exec .start s = raise Instr.start.op .invalidState s := by
  simp [exec, execStart, hs]

theorem exec_start_enables (hs : s.status = .idle) : exec .start s = done Instr.start.op 0 0 0
    { s with timer := { s.timer with run := true, inten := true }, status := .busy } := by
  simp [exec, execStart, hs]

section
variable (hw : writeInFlight s = false)
include hw

theorem exec_stop_idle (hs : s.status = .idle) : exec .stop s = raise Instr.stop.op .invalidState s := by
  simp [exec, execStop, hw, hs]

theorem exec_stop_pauses (hs : s.status = .busy) (hr : s.rb = some r) : exec .stop s = done Instr.stop.op 0 0 0
    { s with
      timer := { s.timer with run := false, inten := false }
      rb := some (ringFlush r)
      status := .idle } := by
  simp [exec, execStop, hw, hs, withRing_some hr]

end

end Sys2Proof.Machine

open Sys2Proof Sys2Proof.Machine

/-- Settles O48: each of the ten, with the premise that three of them test. -/
theorem uninitializedCommandsAnswerNotInitialized : Obligations.UninitializedCommandsAnswerNotInitialized :=
  fun _ _ hs hw hi => answers_error (exec_notInitialized hs hi fun _ => hw)

/-- Settles O41: the status first, then the three arguments. -/
theorem setParamOnlyWhileIdle : Obligations.SetParamOnlyWhileIdle := by
  refine fun s rate bits channels => ⟨fun hs => ?_, fun hs => answers_error (exec_setParam_busy hs),
    fun hs => ⟨fun h => ?_, fun p hp hmin hmax hbits hchannels => ?_⟩⟩
  · exact answers_error (exec_notInitialized hs (by simp [Instr.op]) (by simp [Instr.op]))
  · rw [← or_assoc] at h
    exact answers_error (exec_setParam_invalidArgument hs
      (h.imp rateInRange_eq_false (Or.imp bitsLegal_eq_false channelsLegal_eq_false)))
  · have e := exec_setParam_stores hs hp ((rateInRange_iff rate).mpr ⟨hmin, hmax⟩) ((bitsLegal_iff bits).mpr hbits)
      ((channelsLegal_iff channels).mpr hchannels)
    exact ⟨_, answers_done e rfl, rfl, rfl, rfl⟩

/-- Settles O42: the status, then the rate; the success state names no status. -/
theorem setRateReprogramsOnlyTheAlarm : Obligations.SetRateReprogramsOnlyTheAlarm := by
  refine fun s rate => ⟨fun hs => ?_, fun hs h => ?_, fun p hs hp hmin hmax => ?_⟩
  · exact answers_error (exec_notInitialized hs (by simp [Instr.op]) (by simp [Instr.op]))
  · exact answers_error (exec_setRate_invalidArgument hs (rateInRange_eq_false h))
  · have e := exec_setRate_stores hs hp ((rateInRange_iff rate).mpr ⟨hmin, hmax⟩)
    exact ⟨_, answers_done e rfl, rfl, rfl, rfl⟩

/-- Settles O44: both ends of the range fail the one test. -/
theorem volumeOutOfRangeIsAnError : Obligations.VolumeOutOfRangeIsAnError := fun _ _ hs h =>
  answers_error (exec_setVol_invalidArgument hs (volumeInRange_eq_false h))

/-- Settles O45: one outcome per status. -/
theorem startEnablesTheTimerFromIdle : Obligations.StartEnablesTheTimerFromIdle := fun _ =>
  ⟨fun hs => answers_error (exec_notInitialized hs (by simp [Instr.op]) (by simp [Instr.op])),
    fun hs => answers_error (exec_start_busy hs),
    fun hs => ⟨_, answers_done (exec_start_enables hs) rfl, rfl, rfl, rfl⟩⟩

/-- Settles O46: one outcome per status, and the flush is that of `RB_FLUSH`. -/
theorem stopPausesTheTimerAndFlushes : Obligations.StopPausesTheTimerAndFlushes := fun _ hw =>
  ⟨fun hs => answers_error (exec_notInitialized hs (by simp [Instr.op]) fun _ => hw),
    fun hs => answers_error (exec_stop_idle hw hs),
    fun _ hs hr => ⟨_, answers_done (exec_stop_pauses hw hs hr) rfl, rfl, rfl, rfl, rfl⟩⟩

/-- Settles O47: each query completes on its own state. -/
theorem queriesAnswerStatusParametersAndVolume : Obligations.QueriesAnswerStatusParametersAndVolume := by
  refine fun s => ⟨fun hs => answers_unchanged (exec_getStatus hs), fun p hs hp => ?_⟩
  exact ⟨_, _, answers_done (exec_getParam hs hp) rfl, rfl, getVol_answers hs hp (volumeSetting_eq s.cfg p.volume), rfl⟩
end

section
/-! PROOFS. An operation that answers an error has only been rejected (O50). -/

namespace Sys2Proof.Machine

variable {s t u : State}

/-- The event is not a response with an error code. -/
def Event.NoError : Event → Prop
  | .resp _ r0 _ _ _ => r0 = 0
  | _ => True

/-- From `s` to `t` the history has grown by events none of which is an error response. -/
def AddsNoError (s t : State) : Prop := ∃ es, t.events = s.events ++ es ∧ ∀ e ∈ es, e.NoError

theorem addsNoError_of_events_eq (h : t.events = s.events) : AddsNoError s t := ⟨[], by simp [h], by simp⟩

theorem AddsNoError.emit (h : AddsNoError s u) {e : Event} (he : e.NoError) : AddsNoError s (emit e u) := by
  obtain ⟨es, hevents, hes⟩ := h
  refine ⟨es ++ [e], by simp [hevents], fun e' hmem => ?_⟩
  obtain hmem | hmem := List.mem_append.mp hmem
  · exact hes e' hmem
  · exact List.mem_singleton.mp hmem ▸ he

theorem AddsNoError.signalSpace (h : AddsNoError s u) (r : RingBuffer) : AddsNoError s (signalSpace u r) := by
  obtain ⟨_, _, e⟩ | ⟨_, e⟩ := signalSpace_cases u r <;> rw [e]
  · exact AddsNoError.emit (u := u.setRing (postSem r)) h trivial
  · exact h

theorem Completed.addsNoError {i : Instr} {r1 r2 r3 : Word} (e : Completed i u t r1 r2 r3) (h : AddsNoError s u) :
    AddsNoError s t := by
  subst e
  exact h.emit rfl

/-- An operation whose completion no event precedes. -/
theorem Completed.noError {i : Instr} {r1 r2 r3 : Word} (e : Completed i u t r1 r2 r3) (h : u.events = s.events) :
    Rejected i s t ∨ AddsNoError s t :=
  .inr (e.addsNoError (addsNoError_of_events_eq h))

/-! ### The operations -/

theorem execLatch_addsNoError {c : Channel} (e : execLatch c s = .next t) : AddsNoError s t := by
  obtain ⟨_, _, e'⟩ | ⟨_, e'⟩ := execLatch_cases c s <;> obtain rfl := Host.Outcome.next.inj (e.symm.trans e')
  · exact ⟨_, rfl, by simp [Event.NoError]⟩
  · exact addsNoError_of_events_eq rfl

theorem applyDuty_addsNoError (c : Channel) (v : Byte) (s : State) : AddsNoError s (applyDuty c v s) :=
  ⟨_, rfl, by simp [Event.NoError]⟩

theorem takeAlarm_addsNoError (e : takeAlarm s = .next t) : AddsNoError s t := by
  have hsame : AddsNoError s s := addsNoError_of_events_eq rfl
  rcases takeAlarm_next e with ⟨_, rfl⟩ | ⟨_, r, _, ⟨_, rfl⟩ | ⟨b, r', _, rfl⟩⟩
  · exact hsame.emit trivial
  · exact (hsame.emit (e := .alarm .underrun) trivial).signalSpace r
  · exact ((applyDuty_addsNoError _ b s).emit (e := .alarm (.byte b)) trivial).signalSpace r'

/-- Every operation is rejected, or answers no error (rules R291, R292). -/
theorem exec_rejected_or_noError {i : Instr} (e : exec i s = .next t) : Rejected i s t ∨ AddsNoError s t := by
  cases i with
  | init => obtain e | ⟨_, _, _, _, _, _, e⟩ := execInit_next e; exacts [.inl e, e.noError rfl]
  | deinit => obtain ⟨_, ⟨_, e⟩ | ⟨_, e⟩⟩ := execDeinit_next e; exacts [e.noError rfl, e.noError rfl]
  | setParam => obtain e | ⟨_, _, _, _, _, _, e⟩ := execSetParam_next e; exacts [.inl e, e.noError rfl]
  | setRate => obtain e | ⟨_, _, _, _, e⟩ := execSetRate_next e; exacts [.inl e, e.noError rfl]
  | setVol => obtain e | ⟨_, _, _, _, e⟩ := execSetVol_next e; exacts [.inl e, e.noError rfl]
  | getVol => obtain e | ⟨_, e⟩ := execGetVol_next e; exacts [.inl e, e.noError rfl]
  | start => obtain e | ⟨_, e⟩ := execStart_next e; exacts [.inl e, e.noError rfl]
  | stop => obtain ⟨_, e | ⟨_, _, _, e⟩⟩ := execStop_next e; exacts [.inl e, e.noError rfl]
  | getStatus => obtain e | ⟨_, e⟩ := execGetStatus_next e; exacts [.inl e, e.noError rfl]
  | getParam => obtain e | ⟨_, _, _, e⟩ := execGetParam_next e; exacts [.inl e, e.noError rfl]
  | write =>
    obtain ⟨_, e | ⟨_, _, _, _, rfl⟩⟩ := execWrite_next e
    exacts [.inl e, .inr (addsNoError_of_events_eq rfl)]
  | writeNb => obtain ⟨_, e | ⟨_, _, _, _, _, _, _, e⟩⟩ := execWriteNb_next e; exacts [.inl e, e.noError rfl]
  | rbCreate => obtain ⟨_, _, e | ⟨_, _, _, e⟩⟩ := execRbCreate_next e; exacts [.inl e, e.noError rfl]
  | rbDestroy => obtain ⟨_, _, e⟩ := execRbDestroy_next e; exact e.noError rfl
  | rbOccupied => obtain ⟨_, _, e⟩ := execRbOccupied_next e; exact e.noError rfl
  | rbFree => obtain ⟨_, _, e⟩ := execRbFree_next e; exact e.noError rfl
  | rbRead => obtain ⟨_, _, _, e | ⟨_, _, _, e⟩⟩ := execRbRead_next e; exacts [.inl e, e.noError rfl]
  | rbWrite => obtain ⟨_, _, _, e | ⟨_, _, e⟩⟩ := execRbWrite_next e; exacts [.inl e, e.noError rfl]
  | rbFlush => obtain ⟨_, _, _, _, e⟩ := execRbFlush_next e; exact e.noError rfl
  | rbSignal =>
    obtain ⟨r, _, e⟩ := execRbSignal_next e
    exact .inr (e.addsNoError ((addsNoError_of_events_eq rfl).signalSpace r))
  | rbWait => obtain ⟨_, _, rfl⟩ := execRbWait_next e; exact .inr (addsNoError_of_events_eq rfl)
  | setDuty c v => rw [done_next e]; exact .inr ((applyDuty_addsNoError c v s).emit rfl)
  | alarm => exact .inr (takeAlarm_addsNoError e)
  | latch => exact .inr (execLatch_addsNoError e)

/-- A rejection answers the results 0 and changes the history only. -/
theorem Rejected.response {i : Instr} {es : List Event} {op : Byte} {r0 r1 r2 r3 : Word} (e : Rejected i s t)
    (hevents : t.events = s.events ++ es) (hresp : .resp op r0 r1 r2 r3 ∈ es) :
    OnlyEvents s t ∧ r1 = 0 ∧ r2 = 0 ∧ r3 = 0 := by
  obtain ⟨code, _, rfl⟩ := e
  obtain rfl : [.resp i.op (errorWord code) 0 0 0] = es := List.append_cancel_left hevents
  obtain ⟨_, _, h1, h2, h3⟩ := Event.resp.inj (List.mem_singleton.mp hresp)
  exact ⟨rfl, h1, h2, h3⟩

/-- Where no error was answered, every response carries the code of `OK`. -/
theorem AddsNoError.response {es : List Event} {op : Byte} {r0 r1 r2 r3 : Word} (h : AddsNoError s t)
    (hevents : t.events = s.events ++ es) (hresp : .resp op r0 r1 r2 r3 ∈ es) : r0 = 0 := by
  obtain ⟨es', hevents', hes⟩ := h
  obtain rfl : es' = es := List.append_cancel_left (hevents'.symm.trans hevents)
  exact hes _ hresp

end Sys2Proof.Machine

open Sys2Proof.Machine

/-- Settles O50: an operation that answers an error was rejected, and a rejection writes the response only. -/
theorem errorResponsesWriteNoRegister : Obligations.ErrorResponsesWriteNoRegister := by
  intro i s t es r0 r1 r2 r3 e hevents hresp hcode
  obtain h | h := exec_rejected_or_noError e
  · exact h.response hevents hresp
  · exact absurd (h.response hevents hresp) hcode
end

section
/-! PROOFS. Where the hazards stop the machine (O51), and the power-on values (O52). -/

namespace Sys2Proof.Machine

variable {s : State}

/-! ### A ring that is absent (U1), or present already (U2) -/

/-- Every primitive but `RB_CREATE` and `RB_DESTROY` needs the ring; `RB_READ`, `RB_WRITE` and `RB_FLUSH` test first that
no other side is active (log 15). -/
theorem exec_absentRing (hr : s.rb = none) (hrun : s.timer.run = false) (hw : writeInFlight s = false) {i : Instr}
    (hi : i.op ∈ ([0x22, 0x23, 0x24, 0x25, 0x26, 0x27, 0x28] : List Byte)) : exec i s = .fault .absentRing := by
  have hc : consumerActive s = false := by simp [consumerActive, hrun]
  cases i with
  | rbOccupied | rbFree | rbSignal | rbWait => exact withRing_none hr _
  | rbRead => simp [exec, execRbRead, hrun, withRing_none hr]
  | rbWrite => simp [exec, execRbWrite, hw, withRing_none hr]
  | rbFlush => simp [exec, execRbFlush, hc, hw, withRing_none hr]
  | _ => simp [Instr.op] at hi

section
variable (hr : s.rb ≠ none)
include hr

/-- The ring that exists is met before the test of the capacity (log 17). -/
theorem exec_rbCreate_ringExists {capacity : Word} (hc : consumerActive s = false) :
    exec (.rbCreate capacity) s = .fault .ringExists := by
  simp [exec, execRbCreate, hc, Option.isSome_iff_ne_none.mpr hr]

/-- `INIT` comes to its inner `create` after the tests of status and resolution (R240). -/
theorem exec_init_ringExists {len : Word} {res sel gl gr : Byte} (hs : s.status = .uninitialized)
    (hres : resolutionInRange res = true) : exec (.init len res sel gl gr) s = .fault .ringExists := by
  simp [exec, execInit, hs, hres, Option.isSome_iff_ne_none.mpr hr]

end

/-! ### Cursors moved under an active side (U3) -/

theorem exec_cursorRace_of_consumer (hc : consumerActive s = true) {i : Instr}
    (hi : i.op ∈ ([0x20, 0x21, 0x26] : List Byte)) : exec i s = .fault .cursorRace := by
  have hside : (consumerActive s || writeInFlight s) = true := by rw [hc, Bool.true_or]
  cases i with
  | rbCreate => exact if_pos hc
  | rbDestroy | rbFlush => exact if_pos hside
  | _ => simp [Instr.op] at hi

section
variable (hw : writeInFlight s = true)
include hw

theorem exec_cursorRace_of_write {i : Instr} (hi : i.op ∈ ([0x02, 0x08, 0x21, 0x26] : List Byte)) :
    exec i s = .fault .cursorRace := by
  have hside : (consumerActive s || writeInFlight s) = true := by rw [hw, Bool.or_true]
  cases i with
  | deinit | stop => exact if_pos hw
  | rbDestroy | rbFlush => exact if_pos hside
  | _ => simp [Instr.op] at hi

/-! ### A second producer, a second consumer (U5) -/

theorem exec_secondProducer {i : Instr} (hi : i.op ∈ ([0x10, 0x11, 0x25] : List Byte)) :
    exec i s = .fault .secondProducer := by
  cases i with
  | write | writeNb | rbWrite => exact if_pos hw
  | _ => simp [Instr.op] at hi

end

theorem exec_rbRead_secondConsumer (hrun : s.timer.run = true) : exec .rbRead s = .fault .secondConsumer := if_pos hrun

end Sys2Proof.Machine

open Sys2Proof.Machine

/-- Settles O51: each hazard is tested before its operation writes anything (in `INIT` after status and resolution). -/
theorem hazardsAreFaults : Obligations.HazardsAreFaults := fun _ =>
  ⟨fun hr hrun hw _ hi => exec_absentRing hr hrun hw hi,
    fun _ hc hr => exec_rbCreate_ringExists hr hc,
    fun _ _ _ _ _ hs hr hmin hmax => exec_init_ringExists hr hs ((resolutionInRange_iff _).mpr ⟨hmin, hmax⟩),
    fun hc _ hi => exec_cursorRace_of_consumer hc hi,
    fun hw _ hi => exec_cursorRace_of_write hw hi,
    fun hw _ hi => exec_secondProducer hw hi,
    exec_rbRead_secondConsumer⟩

/-- Settles O52: no unit holds a value, and both channels stand at their power-on registers. -/
theorem resetIsThePowerOnState : Obligations.ResetIsThePowerOnState := by
  have hchannel : ∀ c, State.reset.channel c = ChannelRegs.reset
    | .left => rfl
    | .right => rfl
  refine ⟨rfl, rfl, rfl, rfl, rfl, rfl, rfl, rfl, rfl, fun c => ?_, rfl, rfl⟩
  rw [hchannel c]
  exact ⟨rfl, rfl, rfl, rfl, rfl, rfl⟩
end
